-- ==== Sys2Proof/Word.lean ====
section
/-! DEFINITION. The word types of the MMSP-JPEG CORE and the small closed sets of names its rules use.

Only what the spec treats as bits is a bit vector: bus words and token words (32 bits, 00_scope.md
"Fixed widths"), pixel samples (8 bits), integer coefficients (int16 in two's complement, R24, R25)
and the 64-bit encoding of a binary64 element (R92). -/

namespace Sys2Proof

/-- A bus, command or token word (R54, R80, R85). -/
abbrev Word := BitVec 32

/-- A pixel sample, `u8` (R22). -/
abbrev Byte := BitVec 8

/-- An `int16` coefficient in two's complement (R24, R25, R27). -/
abbrev Coef := BitVec 16

/-- The 64-bit IEEE 754 encoding of a binary64 value (R13, R92). -/
abbrev F64 := BitVec 64

/-- A block or sequence: always exactly 64 elements (R18), element `8·row + col` (R14). -/
abbrev Block (α : Type) := Vector α 64

/-- The three channels: 0 = Y, 1 = Cb, 2 = Cr (R14). CH = 3 is no channel (R80). -/
inductive Chan where
  | y
  | cb
  | cr
deriving DecidableEq, Repr

/-- The tie rule of `rint`, parameter ROUND_TIE (R10, R16). -/
inductive RoundTie where
  | halfAway
  | halfEven
deriving DecidableEq, Repr

/-- The arithmetic of FDCT and IDCT, parameter DCT_NUMERICS (R10). -/
inductive DctNumerics where
  | ref64
  | abstract
deriving DecidableEq, Repr

end Sys2Proof
end

