-- ==== Sys2Proof/Config.lean ====
section
/-! DEFINITION. What an implementation fixes: the named parameters of R10, and the model's free values.

The parameters are plain data (`Params`). State carries one parameter set that no step changes, so that
every statement over all states holds for every parameter set; the defaults of R10 stand in
Sys2Proof/Machine/Tables.lean. The free values are opaque constants: no proof can see what they are. -/

namespace Sys2Proof

/-- The implementation parameters of R10 (RESET_STEPS has no value and is no field). -/
structure Params where
  /-- BASE: byte address of the 8 KiB aperture, a multiple of 0x2000 (R10, item I6). -/
  base : Nat
  /-- TOKQ_DEPTH: capacity of each token FIFO, at least 65 (R10, R28). -/
  tokqDepth : Nat
  /-- ROUND_TIE (R10, R16). -/
  roundTie : RoundTie
  /-- QTAB, table 0 (luma): entries in [1, 255] (R142). -/
  qtabLuma : Block Nat
  /-- QTAB, table 1 (chroma): entries in [1, 255] (R142). -/
  qtabChroma : Block Nat
  /-- ZZ: sequence index to block element index (R160, R161). -/
  zz : Block (Fin 64)
  /-- DCT_NUMERICS (R10, R127). -/
  dctNumerics : DctNumerics
deriving DecidableEq, Repr

/-- FREE VALUE (log entry 7): the raw bits of the NaN pattern that the `seq`-th FDCT or IDCT step
leaves in element `e` where its result is a NaN. R129: which pattern results is not fixed. -/
opaque Config.freeNaN : Nat → Nat → F64

/-- FREE VALUE (log entry 8): `fdct_impl` of R127, a function of the 64 inputs alone. -/
opaque Config.fdctImpl : Block F64 → Block F64

/-- FREE VALUE (log entry 8): `idct_impl` of R127, a function of the 64 inputs alone. -/
opaque Config.idctImpl : Block F64 → Block F64

end Sys2Proof
end

