-- ==== Sys2Proof/Syntax.lean ====
section
/-! DEFINITION. The command set: one constructor for each row of the opcode table (R3, R82).
The only operand of a command is its channel (R81). -/

namespace Sys2Proof

/-- The twelve commands (R82). A channel command carries its channel; CH = 3 cannot be written. -/
inductive Instr where
  /-- R200 -/
  | nop
  /-- R100 -/
  | cscFwd
  /-- R103 -/
  | cscInv
  /-- R123 -/
  | fdct (c : Chan)
  /-- R125 -/
  | idct (c : Chan)
  /-- R143 -/
  | quant (c : Chan)
  /-- R145 -/
  | dequant (c : Chan)
  /-- R162 -/
  | zzFlat (c : Chan)
  /-- R163 -/
  | zzUnflat (c : Chan)
  /-- R172 -/
  | entEnc (c : Chan)
  /-- R180 -/
  | entDec (c : Chan)
  /-- R188 -/
  | dcReset
deriving DecidableEq, Repr

end Sys2Proof
end

