-- ==== Sys2Proof/WellFormed.lean ====
section
/-! DEFINITION. Well-formedness.

Every term of `Instr` is well formed: the channel type has no fourth value, so R83's checks fall to the
decoder (Sys2Proof/Decode.lean). What can be ill formed is a parameter set: R142, R161 and item I7 say
which sets are no configuration of this hardware, and that a model refuses them; R10 and item I6 say that BASE
is a multiple of 0x2000, and the model treats another BASE in the same way (log entry 10). -/

namespace Sys2Proof

/-- R10 and item I6: BASE is a multiple of 0x2000. -/
def Params.baseAligned (p : Params) : Bool := p.base % 0x2000 == 0

/-- R10 and item I7: TOKQ_DEPTH is at least 65, and at most 65535 (CFG and TOKQ_STAT hold 16 bits). -/
def Params.depthInRange (p : Params) : Bool := 65 ≤ p.tokqDepth && p.tokqDepth ≤ 65535

/-- R142: every entry of a table is an integer in [1, 255]. -/
def qtabInRange (t : Block Nat) : Bool := t.toList.all fun q => 1 ≤ q && q ≤ 255

/-- R161: ZZ is a bijection on 0..63, each of 0..63 appears. -/
def zzBijective (zz : Block (Fin 64)) : Bool :=
  (List.range 64).all fun e => zz.toList.any fun z => z.val == e

/-- R161: ZZ[0] = 0. -/
def zzStartsAtDc (zz : Block (Fin 64)) : Bool := (zz[0]'(by decide)).val == 0

/-- R161: row(ZZ[i]) + col(ZZ[i]) is non-decreasing in i. -/
def zzAntiDiagonal (zz : Block (Fin 64)) : Bool :=
  let d := zz.toList.map fun z => z.val / 8 + z.val % 8
  (d.zip d.tail).all fun q => q.1 ≤ q.2

/-- A parameter set that is a configuration of this hardware (R10, R142, R161, items I6, I7). -/
def Params.wf (p : Params) : Bool :=
  p.baseAligned && p.depthInRange && qtabInRange p.qtabLuma && qtabInRange p.qtabChroma
    && zzBijective p.zz && zzStartsAtDc p.zz && zzAntiDiagonal p.zz

end Sys2Proof
end

