-- ==== Sys2Proof/Decode.lean ====
section
/-! DEFINITION. Command words: the fields of CMD32 (R80), the decoder (R83, R84), total on every 32-bit
word and rejecting by name, and the encoder (R82). -/

namespace Sys2Proof

/-- The two decoding errors of R83. -/
inductive DecodeError where
  /-- OP is not one of the twelve opcodes, code 0x01. -/
  | illegalOpcode
  /-- RSV ≠ 0, or a CH value not allowed for the opcode, code 0x02. -/
  | reservedField
deriving DecidableEq, Repr

/-- OP = w[7:0] (R80). -/
def opField (w : Word) : BitVec 8 := w.extractLsb' 0 8

/-- CH = w[9:8] (R80). -/
def chField (w : Word) : BitVec 2 := w.extractLsb' 8 2

/-- RSV = w[31:10] (R80). -/
def rsvField (w : Word) : BitVec 22 := w.extractLsb' 10 22

/-- The channel number (R14). -/
def Chan.bits : Chan → BitVec 2
  | .y => 0
  | .cb => 1
  | .cr => 2

/-- The channel of a CH field; 3 is reserved (R80). -/
def Chan.ofBits (b : BitVec 2) : Option Chan :=
  match b.toNat with
  | 0 => some .y
  | 1 => some .cb
  | 2 => some .cr
  | _ => none

/-- The two kinds of row of the opcode map (R82): CH must be 0, or CH names a channel. -/
inductive OpRow where
  | noChannel (i : Instr)
  | channel (f : Chan → Instr)

/-- The opcode map of R82: the row of an OP value, none for the 244 illegal values (R84). -/
def opRow (op : BitVec 8) : Option OpRow :=
  match op.toNat with
  | 0x00 => some (.noChannel .nop)
  | 0x01 => some (.noChannel .cscFwd)
  | 0x02 => some (.noChannel .cscInv)
  | 0x10 => some (.channel .fdct)
  | 0x11 => some (.channel .idct)
  | 0x20 => some (.channel .quant)
  | 0x21 => some (.channel .dequant)
  | 0x30 => some (.channel .zzFlat)
  | 0x31 => some (.channel .zzUnflat)
  | 0x40 => some (.channel .entEnc)
  | 0x41 => some (.channel .entDec)
  | 0x42 => some (.noChannel .dcReset)
  | _ => none

/-- Decoding of a command word, in the order of R83. -/
def decode (w : Word) : Except DecodeError Instr :=
  match opRow (opField w) with
  | none => .error .illegalOpcode
  | some row =>
    if rsvField w ≠ 0 then .error .reservedField
    else match row with
      | .noChannel i => if chField w ≠ 0 then .error .reservedField else .ok i
      | .channel f =>
        match Chan.ofBits (chField w) with
        | none => .error .reservedField
        | some c => .ok (f c)

/-- The OP value of a command (R82). -/
def Instr.op : Instr → BitVec 8
  | .nop => 0x00
  | .cscFwd => 0x01
  | .cscInv => 0x02
  | .fdct _ => 0x10
  | .idct _ => 0x11
  | .quant _ => 0x20
  | .dequant _ => 0x21
  | .zzFlat _ => 0x30
  | .zzUnflat _ => 0x31
  | .entEnc _ => 0x40
  | .entDec _ => 0x41
  | .dcReset => 0x42

/-- The CH value of a command: its channel, or 0 for a channel-less command (R81). -/
def Instr.ch : Instr → BitVec 2
  | .nop | .cscFwd | .cscInv | .dcReset => 0
  | .fdct c | .idct c | .quant c | .dequant c => c.bits
  | .zzFlat c | .zzUnflat c | .entEnc c | .entDec c => c.bits

/-- The full command word, OP | (CH << 8) (R82). -/
def encode (i : Instr) : Word := BitVec.ofNat 32 (i.op.toNat + 2 ^ 8 * i.ch.toNat)

/-- What the decoder reads from one row of the opcode table: every row is one 32-bit word (R80), bit 0
its least significant bit; bits from `nbits` up are 0, and a number that does not fit is no word. -/
def decodeTableWord (nbits w : Nat) : Option Instr :=
  if w % 2 ^ nbits < 2 ^ 32 then
    match decode (BitVec.ofNat 32 (w % 2 ^ nbits)) with
    | .ok i => some i
    | .error _ => none
  else none

end Sys2Proof
end

