-- ==== Sys2Proof/Machine/Tables.lean ====
section
/-! DEFINITION. The constant tables of the spec: the default parameter set (R10, R141, R160), the colour
constants (R101), the cosine table and the normalisation constants (R120, R121). -/

namespace Sys2Proof.Machine

/-- A block written as a list, short lists padded with `d` (every list below has 64 entries). -/
def blockOfList {α : Type} (d : α) (l : List α) : Block α :=
  ⟨(List.ofFn fun e : Fin 64 => l.getD e.val d).toArray, by simp only [List.size_toArray, List.length_ofFn]⟩

/-- QT[0], the default luma table (R141), row by row. -/
def defaultLuma : Block Nat := blockOfList 1 (
  [16, 11, 10, 16, 24, 40, 51, 61] ++
  [12, 12, 14, 19, 26, 58, 60, 55] ++
  [14, 13, 16, 24, 40, 57, 69, 56] ++
  [14, 17, 22, 29, 51, 87, 80, 62] ++
  [18, 22, 37, 56, 68, 109, 103, 77] ++
  [24, 35, 55, 64, 81, 104, 113, 92] ++
  [49, 64, 78, 87, 103, 121, 120, 101] ++
  [72, 92, 95, 98, 112, 100, 103, 99])

/-- QT[1], the default chroma table (R141), row by row. -/
def defaultChroma : Block Nat := blockOfList 1 (
  [17, 18, 24, 47, 99, 99, 99, 99] ++
  [18, 21, 26, 66, 99, 99, 99, 99] ++
  [24, 26, 56, 99, 99, 99, 99, 99] ++
  [47, 66, 99, 99, 99, 99, 99, 99] ++
  [99, 99, 99, 99, 99, 99, 99, 99] ++
  [99, 99, 99, 99, 99, 99, 99, 99] ++
  [99, 99, 99, 99, 99, 99, 99, 99] ++
  [99, 99, 99, 99, 99, 99, 99, 99])

/-- ZZ[0..63], the default zigzag order (R160). -/
def defaultZigzag : Block (Fin 64) := blockOfList 0 (
  [0, 1, 8, 16, 9, 2, 3, 10, 17, 24, 32, 25, 18, 11, 4, 5] ++
  [12, 19, 26, 33, 40, 48, 41, 34, 27, 20, 13, 6, 7, 14, 21, 28] ++
  [35, 42, 49, 56, 57, 50, 43, 36, 29, 22, 15, 23, 30, 37, 44, 51] ++
  [58, 59, 52, 45, 38, 31, 39, 46, 53, 60, 61, 54, 47, 55, 62, 63])

/-- The defaults of R10. DESIGN CHOICE (log entry 2): BASE, which R10 leaves open, is 0 here. -/
def defaultParams : Params where
  base := 0
  tokqDepth := 128
  roundTie := .halfAway
  qtabLuma := defaultLuma
  qtabChroma := defaultChroma
  zz := defaultZigzag
  dctNumerics := .ref64

/-! The conversion constants of R101. -/

def kyR : F64 := 0x3FD322D0E5604189
def kyG : F64 := 0x3FE2C8B439581062
def kyB : F64 := 0x3FBD2F1A9FBE76C9
def kcbR : F64 := 0xBFC5992428D434A0
def kcbG : F64 := 0xBFD5336DEB95E5B0
def kcbB : F64 := 0x3FE0000000000000
def kcrR : F64 := 0x3FE0000000000000
def kcrG : F64 := 0xBFDACBC8C0CE91C9
def kcrB : F64 := 0xBFB4D0DCFCC5B8DC
def krCr : F64 := 0x3FF66E978D4FDF3B
def kgCb : F64 := 0x3FD6065300581494
def kgCr : F64 := 0x3FE6DA33BD9CAE21
def kbCb : F64 := 0x3FFC5A1CAC083127
def ofs : F64 := 0x4060000000000000

/-- T[m] = RN(cos(m·π/16)) (R120); m = 8 never occurs there. -/
def cosT (m : Nat) : F64 :=
  match m with
  | 0 => 0x3FF0000000000000
  | 1 => 0x3FEF6297CFF75CB0
  | 2 => 0x3FED906BCF328D46
  | 3 => 0x3FEA9B66290EA1A3
  | 4 => 0x3FE6A09E667F3BCD
  | 5 => 0x3FE1C73B39AE68C8
  | 6 => 0x3FD87DE2A6AEA963
  | 7 => 0x3FC8F8B83C69A60B
  | _ => 0

/-- −x in the sign bit. -/
def f64Neg (x : F64) : F64 := x ^^^ 0x8000000000000000

/-- COS[k][n] (R120, "the general rule"). -/
def cosTab (k n : Fin 8) : F64 :=
  let m := ((2 * n.val + 1) * k.val) % 32
  if m ≤ 8 then cosT m
  else if m ≤ 16 then f64Neg (cosT (16 - m))
  else if m ≤ 24 then f64Neg (cosT (m - 16))
  else cosT (32 - m)

/-- CU[k] (R121): T[4] at 0, else 1.0. -/
def cu (k : Fin 8) : F64 := if k.val = 0 then cosT 4 else 0x3FF0000000000000

/-- QUARTER = 0.25 (R121). -/
def quarter : F64 := 0x3FD0000000000000

end Sys2Proof.Machine
end

