-- ==== Sys2Proof/Machine/State.lean ====
section
/-! DEFINITION. The machine's state as plain data (R20), its stops, and the state after power-on (R250). -/

namespace Sys2Proof.Machine

/-- One value for each channel: the index c of RB, IB, ZS and PREV_DC (R14). -/
structure PerChan (α : Type) where
  y : α
  cb : α
  cr : α
deriving DecidableEq, Repr

def PerChan.get {α : Type} (p : PerChan α) : Chan → α
  | .y => p.y
  | .cb => p.cb
  | .cr => p.cr

def PerChan.set {α : Type} (p : PerChan α) (c : Chan) (v : α) : PerChan α :=
  match c with
  | .y => { p with y := v }
  | .cb => { p with cb := v }
  | .cr => { p with cr := v }

/-- A pixel of the tile (R22). -/
structure Pixel where
  r : Byte
  g : Byte
  b : Byte
deriving DecidableEq, Repr

/-- The interrupt enables, CTRL bits 2:0 (R32). -/
structure Ctrl where
  ieDone : Bool
  ieErr : Bool
  ieWait : Bool
deriving DecidableEq, Repr

/-- The sticky W1C bits of STATUS (R31). BUSY, WAIT_IN and WAIT_OUT are functions of the rest (log entry 12). -/
structure Flags where
  done : Bool
  err : Bool
  sat : Bool
  accErr : Bool
  cmdOvr : Bool
deriving DecidableEq, Repr

/-- ERRINFO (R37): bits 7:0, 15:8, 17:16, 24:18; bits 31:25 are reserved and read 0. -/
structure ErrInfo where
  code : BitVec 8
  op : BitVec 8
  ch : BitVec 2
  cursor : BitVec 7
deriving DecidableEq, Repr

/-- The stage of an ENT_DEC (R29). -/
inductive Stage where
  | dc
  | ac
deriving DecidableEq, Repr

/-- PHASE, the engine's execution state (R29). -/
inductive Phase where
  /-- No command in progress. -/
  | idle
  /-- The command with word w accepted, its (first) engine step still to come (R201, R203; log entry 6). -/
  | exec (w : Word)
  /-- ENT_ENC c in progress: the token words still to push, and PREV_DC[c] on completion. -/
  | enc (c : Chan) (pending : List Word) (newdc : Coef)
  /-- ENT_DEC c in progress: stage, the next zigzag position k in [1, 64], the DC value decoded. -/
  | dec (c : Chan) (stage : Stage) (k : Nat) (dc : Coef)
  /-- A reset in progress (R250). -/
  | reset
deriving DecidableEq, Repr

/-- One host access on the bus (R54 to R56): a byte address, a width in bits, and for a write the value. -/
inductive BusAccess where
  | read (addr bits : Nat)
  | write (addr bits : Nat) (v : Word)
deriving DecidableEq, Repr

/-- The response kind of a host access (R55). -/
inductive Resp where
  | okay
  | error
deriving DecidableEq, Repr

/-- What the host gets back: a read returns data and a response, a write a response (R55, R58). -/
inductive BusResp where
  | read (data : Word) (r : Resp)
  | write (r : Resp)
deriving DecidableEq, Repr

/-- One atomic step of the interleaving (R67): a host access, or the engine's turn. The MODEL's own. -/
inductive Event where
  | host (a : BusAccess)
  | engine
deriving DecidableEq, Repr

/-- The state of R20, and four fields of the model's own (`cfg`, `schedule`, `resp`, `nanSeq`). -/
structure State where
  /-- The parameters of R10, QT among them (R26): constant (log entry 2). -/
  cfg : Params
  /-- PX (R22). -/
  px : Block Pixel
  /-- RB (R23): the encodings of the elements. -/
  rb : PerChan (Block F64)
  /-- IB (R24). -/
  ib : PerChan (Block Coef)
  /-- ZS (R25). -/
  zs : PerChan (Block Coef)
  /-- PREV_DC (R27, R41). -/
  prevDc : PerChan Coef
  /-- TOKQ_OUT (R28), oldest word first. -/
  tokOut : List Word
  /-- TOKQ_IN (R28), oldest word first. -/
  tokIn : List Word
  /-- CTRL (R32). -/
  ctrl : Ctrl
  /-- STATUS (R31), its sticky bits. -/
  flags : Flags
  /-- LASTCMD (R36). -/
  lastCmd : Word
  /-- ERRINFO (R37). -/
  errInfo : ErrInfo
  /-- PHASE (R29). -/
  phase : Phase
  /-- The model's own: the interleaving still to come (log entry 3). -/
  schedule : List Event
  /-- The model's own: the response of the last host access (log entry 4). -/
  resp : Option BusResp
  /-- The model's own: how many FDCT and IDCT steps have drawn free NaN patterns (log entry 7). -/
  nanSeq : Nat
deriving DecidableEq, Repr

/-- Why the machine stops. -/
inductive Fault where
  /-- Raised by `hostAccess` for an address outside BASE .. BASE + 0x1FFF: no address of this hardware (R50).
  Safe: the model stops where the platform would answer (log entry 9). -/
  | outsideAperture (addr : Nat)
deriving DecidableEq, Repr

/-- Why the model gives no meaning. -/
inductive Refusal where
  /-- An instruction without a meaning: no arm of `exec` raises it. Safe. -/
  | notModelled (mnemonic : String)
  /-- Raised by `step` for a parameter set that is no configuration of this hardware (R142, R161, items I1, I2,
  I7: "a model refuses it"), or whose BASE is no multiple of 0x2000 (R10, I6). Safe (log entry 10). -/
  | badConfiguration
deriving DecidableEq, Repr

/-- The state after power is applied (R250): PHASE = RESET and every piece of state at its reset value. -/
def State.powerOn (cfg : Params) : State where
  cfg := cfg
  px := Vector.replicate 64 ⟨0, 0, 0⟩
  rb := ⟨Vector.replicate 64 0, Vector.replicate 64 0, Vector.replicate 64 0⟩
  ib := ⟨Vector.replicate 64 0, Vector.replicate 64 0, Vector.replicate 64 0⟩
  zs := ⟨Vector.replicate 64 0, Vector.replicate 64 0, Vector.replicate 64 0⟩
  prevDc := ⟨0, 0, 0⟩
  tokOut := []
  tokIn := []
  ctrl := ⟨false, false, false⟩
  flags := ⟨false, false, false, false, false⟩
  lastCmd := 0
  errInfo := ⟨0, 0, 0, 0⟩
  phase := .reset
  schedule := []
  resp := none
  nanSeq := 0

/-- The machine right after power-on, with the default parameters of R10. -/
def State.reset : State := State.powerOn defaultParams

end Sys2Proof.Machine
end

