-- ==== Sys2Proof/Machine/Operands.lean ====
section
/-! DEFINITION. Operand forms: block elements and their indices (R14, R122), the quantization table a channel
selects (R81, R140), the integer forms of R12 and R17, and the aperture map (R52). -/

namespace Sys2Proof.Machine

/-- The vector whose element `e` is `f e`. -/
def tabulate {α : Type} {n : Nat} (f : Fin n → α) : Vector α n :=
  ⟨(List.ofFn f).toArray, by rw [List.size_toArray, List.length_ofFn]⟩

/-- Element index `8·row + col` (R14). -/
def elemIdx (row col : Fin 8) : Fin 64 := ⟨8 * row.val + col.val, by omega⟩

/-- The row of an element (R14). -/
def rowOf (e : Fin 64) : Fin 8 := ⟨e.val / 8, by omega⟩

/-- The column of an element (R14). -/
def colOf (e : Fin 64) : Fin 8 := ⟨e.val % 8, by omega⟩

/-- The table of a channel: luma for c = 0, chroma for c = 1 and 2 (R140). -/
def qtabOf (p : Params) : Chan → Block Nat
  | .y => p.qtabLuma
  | .cb => p.qtabChroma
  | .cr => p.qtabChroma

/-- `sat(i, lo, hi)` (R17). -/
def satInt (i lo hi : Int) : Int := if i < lo then lo else if hi < i then hi else i

/-- `sat16(i)` as an int16 (R17). -/
def sat16 (i : Int) : Coef := BitVec.ofInt 16 (satInt i (-32768) 32767)

/-- `clamp8(i)` as a u8 (R17). -/
def clamp8 (i : Int) : Byte := BitVec.ofInt 8 (satInt i 0 255)

/-- What a word of the aperture is (R30, R52). -/
inductive Target where
  | id
  | version
  | cfg
  | ctrl
  | status
  | cmd
  | errInfo
  | tokOut
  | tokIn
  | tokqStat
  | dcPred (c : Chan)
  | px (e : Fin 64)
  | qtLuma (e : Fin 64)
  | qtChroma (e : Fin 64)
  | ib (c : Chan) (e : Fin 64)
  | zs (c : Chan) (e : Fin 64)
  | rb (c : Chan) (e : Fin 64) (upper : Bool)
  | reserved
deriving DecidableEq, Repr

/-- A control register by its word index (R30). -/
def regTarget (word : Nat) : Target :=
  match word with
  | 0 => .id
  | 1 => .version
  | 2 => .cfg
  | 3 => .ctrl
  | 4 => .status
  | 5 => .cmd
  | 6 => .errInfo
  | 7 => .tokOut
  | 8 => .tokIn
  | 9 => .tokqStat
  | 10 => .dcPred .y
  | 11 => .dcPred .cb
  | 12 => .dcPred .cr
  | _ => .reserved

/-- The aperture map of R52: what stands at an offset, by its 256-byte page. -/
def targetOf (off : Nat) : Target :=
  let word : Fin 64 := ⟨(off / 4) % 64, by omega⟩
  let half (hi : Nat) : Fin 64 := ⟨(hi + (off / 8) % 32) % 64, by omega⟩
  let upper : Bool := (off / 4) % 2 == 1
  match off / 0x100 with
  | 0x00 => regTarget (off / 4)
  | 0x01 => .px word
  | 0x02 => .qtLuma word
  | 0x03 => .qtChroma word
  | 0x04 => .ib .y word
  | 0x05 => .ib .cb word
  | 0x06 => .ib .cr word
  | 0x08 => .zs .y word
  | 0x09 => .zs .cb word
  | 0x0A => .zs .cr word
  | 0x10 => .rb .y (half 0) upper
  | 0x11 => .rb .y (half 32) upper
  | 0x12 => .rb .cb (half 0) upper
  | 0x13 => .rb .cb (half 32) upper
  | 0x14 => .rb .cr (half 0) upper
  | 0x15 => .rb .cr (half 32) upper
  | _ => .reserved

/-- The buffer regions: the PX, IB, ZS and RB ranges; the QT ranges are none (R52). -/
def Target.isBuffer : Target → Bool
  | .px _ | .ib _ _ | .zs _ _ | .rb _ _ _ => true
  | .id | .version | .cfg | .ctrl | .status | .cmd | .errInfo | .tokOut | .tokIn | .tokqStat => false
  | .dcPred _ | .qtLuma _ | .qtChroma _ | .reserved => false

end Sys2Proof.Machine
end

