-- ==== Sys2Proof/Machine/Flags.lean ====
section
/-! DEFINITION. STATUS (R31), CTRL (R32), ERRINFO (R37), CFG (R35) as words, IRQ (R42), and every way a flag is
set or cleared. There are no other flags (R43). -/

namespace Sys2Proof.Machine

/-- STATUS.BUSY: 1 exactly when PHASE ≠ IDLE (R31). -/
def State.busy (s : State) : Bool := s.phase != .idle

/-- STATUS.WAIT_IN: PHASE = DEC(...) and TOKQ_IN is empty (R31). -/
def State.waitIn (s : State) : Bool :=
  match s.phase with
  | .dec _ _ _ _ => s.tokIn.isEmpty
  | _ => false

/-- TOKQ_OUT holds TOKQ_DEPTH words (R28, R173). -/
def State.tokOutFull (s : State) : Bool := s.cfg.tokqDepth ≤ s.tokOut.length

/-- TOKQ_IN holds TOKQ_DEPTH words (R28, R39). -/
def State.tokInFull (s : State) : Bool := s.cfg.tokqDepth ≤ s.tokIn.length

/-- STATUS.WAIT_OUT: PHASE = ENC(...) with pending non-empty and TOKQ_OUT full (R31). -/
def State.waitOut (s : State) : Bool :=
  match s.phase with
  | .enc _ (_ :: _) _ => s.tokOutFull
  | _ => false

/-- The STATUS word (R31). -/
def statusWord (s : State) : Word :=
  BitVec.ofNat 32 (s.busy.toNat + 2 * s.flags.done.toNat + 4 * s.flags.err.toNat + 8 * s.waitIn.toNat
    + 16 * s.waitOut.toNat + 32 * s.flags.sat.toNat + 64 * s.flags.accErr.toNat + 128 * s.flags.cmdOvr.toNat)

/-- The CTRL word as it reads (R32): bits 9:8 read 0. -/
def ctrlWord (c : Ctrl) : Word :=
  BitVec.ofNat 32 (c.ieDone.toNat + 2 * c.ieErr.toNat + 4 * c.ieWait.toNat)

/-- The ERRINFO word (R37). -/
def errInfoWord (i : ErrInfo) : Word :=
  BitVec.ofNat 32 (i.code.toNat + 2 ^ 8 * i.op.toNat + 2 ^ 16 * i.ch.toNat + 2 ^ 18 * i.cursor.toNat)

/-- The CFG word (R35). -/
def cfgWord (p : Params) : Word :=
  BitVec.ofNat 32 (p.tokqDepth % 2 ^ 16 + 2 ^ 16 * (p.roundTie == .halfEven).toNat
    + 2 ^ 17 * (p.qtabLuma == defaultLuma && p.qtabChroma == defaultChroma).toNat
    + 2 ^ 18 * (p.zz == defaultZigzag).toNat + 2 ^ 19 * (p.dctNumerics == .ref64).toNat)

/-- IRQ (R42): a function of the state. -/
def State.irq (s : State) : Bool :=
  (s.flags.done && s.ctrl.ieDone) || (s.flags.err && s.ctrl.ieErr)
    || ((s.waitIn || s.waitOut) && s.ctrl.ieWait)

/-- STATUS.DONE <- 1 (R202). -/
def Flags.setDone (f : Flags) : Flags := { f with done := true }

/-- STATUS.ERR <- 1 (R222). -/
def Flags.setErr (f : Flags) : Flags := { f with err := true }

/-- STATUS.ACCERR <- 1 (R56, R57, R66). -/
def Flags.setAccErr (f : Flags) : Flags := { f with accErr := true }

/-- STATUS.CMDOVR <- 1 (R201). -/
def Flags.setCmdOvr (f : Flags) : Flags := { f with cmdOvr := true }

/-- STATUS.SAT <- 1 if `b`; never cleared by a command (R143, R103). -/
def Flags.orSat (f : Flags) (b : Bool) : Flags := { f with sat := f.sat || b }

/-- A write of `v` to STATUS: each W1C bit whose written bit is 1 is cleared (R31). -/
def Flags.w1c (f : Flags) (v : Word) : Flags where
  done := f.done && !v.getLsbD 1
  err := f.err && !v.getLsbD 2
  sat := f.sat && !v.getLsbD 5
  accErr := f.accErr && !v.getLsbD 6
  cmdOvr := f.cmdOvr && !v.getLsbD 7

/-- The enables that a write of `v` to CTRL stores, bits 2:0 (R32). -/
def ctrlOfWord (v : Word) : Ctrl where
  ieDone := v.getLsbD 0
  ieErr := v.getLsbD 1
  ieWait := v.getLsbD 2

end Sys2Proof.Machine
end

