-- ==== Sys2Proof/Machine/Float64.lean ====
section
/-! DEFINITION. IEEE 754 binary64 with roundTiesToEven (R13), and `rint` (R16).

Every finite binary64 value is an integer multiple of 2^−1074. `f64Val` is that integer, so an exact sum is an
integer sum, and an exact product or quotient is a quotient of integers in the same unit. `f64RoundMag` is
the only place where a result is rounded to binary64. No NaN pattern is fixed by the spec (R129): inside an
operation the quiet NaN below stands for "a NaN" (log entry 17). -/

namespace Sys2Proof.Machine

/-- Sign bit 63 (R92). -/
def f64Sign (x : F64) : Bool := x.msb

/-- Biased exponent, bits 62:52 (R92). -/
def f64Exp (x : F64) : Nat := (x.extractLsb' 52 11).toNat

/-- Fraction, bits 51:0 (R92). -/
def f64Frac (x : F64) : Nat := (x.extractLsb' 0 52).toNat

def f64IsNaN (x : F64) : Bool := f64Exp x == 2047 && f64Frac x != 0

def f64IsInf (x : F64) : Bool := f64Exp x == 2047 && f64Frac x == 0

def f64IsFinite (x : F64) : Bool := f64Exp x != 2047

/-- |x| in units of 2^−1074, for a finite x. -/
def f64Mag (x : F64) : Nat :=
  if f64Exp x = 0 then f64Frac x else (2 ^ 52 + f64Frac x) * 2 ^ (f64Exp x - 1)

/-- x in units of 2^−1074, for a finite x: both zeros are 0. -/
def f64Val (x : F64) : Int := if f64Sign x then -(f64Mag x : Int) else (f64Mag x : Int)

/-- One in units of 2^−1074. -/
def f64Unit : Nat := 2 ^ 1074

/-- A NaN, of no particular pattern (log entry 17). -/
def f64NaN : F64 := 0x7FF8000000000000

/-- The encoding of +∞ as a number. -/
def f64InfMag : Nat := 2047 * 2 ^ 52

/-- The encoding with the given sign and the given bits 62:0. -/
def f64Pack (neg : Bool) (mag : Nat) : F64 := BitVec.ofNat 64 (mag + if neg then 2 ^ 63 else 0)

def f64Inf (neg : Bool) : F64 := f64Pack neg f64InfMag

/-- Bits 62:0 of RN(num/den) for a non-negative quotient in units of 2^−1074 (R13).
`sh` is the power of two that leaves a 53-bit significand (none is taken off a value that is subnormal or in
the lowest binade), `m` the significand cut off below it; it goes up by one if the remainder is more than half
a step, or half a step and `m` odd. The encoding is `sh·2^52 + m` in every binade, since a significand that
reaches 2^53 is the next binade's 2^52; past the largest finite value it is that of ∞. -/
def f64RoundMag (num den : Nat) : Nat :=
  let sh := Nat.log2 (num / den) - 52
  let step := den * 2 ^ sh
  let m := num / step
  let r := num % step
  let up := step < 2 * r || (2 * r == step && m % 2 == 1)
  min (sh * 2 ^ 52 + m + if up then 1 else 0) f64InfMag

/-- RN of ±num/den in units of 2^−1074. -/
def f64Round (neg : Bool) (num den : Nat) : F64 := f64Pack neg (f64RoundMag num den)

/-- `x +. y` (R13). An exact zero sum is +0, but −0 when both operands are −0. -/
def f64Add (x y : F64) : F64 :=
  if f64IsNaN x || f64IsNaN y then f64NaN
  else if f64IsInf x then if f64IsInf y && f64Sign x != f64Sign y then f64NaN else x
  else if f64IsInf y then y
  else
    let t := f64Val x + f64Val y
    if t = 0 then f64Pack (f64Sign x && f64Sign y) 0 else f64Round (decide (t < 0)) t.natAbs 1

/-- `x -. y` (R13). -/
def f64Sub (x y : F64) : F64 := f64Add x (f64Neg y)

/-- `x *. y` (R13). 0·∞ is a NaN. -/
def f64Mul (x y : F64) : F64 :=
  let neg := f64Sign x != f64Sign y
  if f64IsNaN x || f64IsNaN y then f64NaN
  else if f64IsInf x || f64IsInf y then
    if f64Mag x == 0 || f64Mag y == 0 then f64NaN else f64Inf neg
  else f64Round neg (f64Mag x * f64Mag y) f64Unit

/-- `x /. y` (R13). 0/0 and ∞/∞ are NaN; a finite nonzero value over 0 is ∞. -/
def f64Div (x y : F64) : F64 :=
  let neg := f64Sign x != f64Sign y
  if f64IsNaN x || f64IsNaN y then f64NaN
  else if f64IsInf x then if f64IsInf y then f64NaN else f64Inf neg
  else if f64IsInf y then f64Pack neg 0
  else if f64Mag y = 0 then if f64Mag x = 0 then f64NaN else f64Inf neg
  else f64Round neg (f64Mag x * f64Unit) (f64Mag y)

/-- `f64(i)` (R13): exact for |i| ≤ 2^53; 0 is +0. -/
def f64OfInt (i : Int) : F64 := f64Round (decide (i < 0)) (i.natAbs * f64Unit) 1

/-- |rint| of a magnitude in units of 2^−1074 (R16), computed exactly. -/
def f64RintMag (tie : RoundTie) (mag : Nat) : Nat :=
  let q := mag / f64Unit
  let r := mag % f64Unit
  match tie with
  | .halfAway => if f64Unit ≤ 2 * r then q + 1 else q
  | .halfEven => if f64Unit < 2 * r ∨ (2 * r = f64Unit ∧ q % 2 = 1) then q + 1 else q

/-- `rint(x)` for a finite x (R16). -/
def f64Rint (tie : RoundTie) (x : F64) : Int :=
  if f64Sign x then -(f64RintMag tie (f64Mag x) : Int) else (f64RintMag tie (f64Mag x) : Int)

/-- A binary64 NaN encoding made of free bits: exponent all ones, sign and fraction as `raw` has them, but a
fraction of 0 (which would be an infinity) replaced. Every NaN encoding is one of these (R129, item I3). -/
def nanOfRaw (raw : F64) : F64 :=
  if f64Frac raw = 0 then f64Pack (f64Sign raw) (f64InfMag + 2 ^ 51)
  else f64Pack (f64Sign raw) (f64InfMag + f64Frac raw)

end Sys2Proof.Machine
end

