-- ==== Sys2Proof/Machine/Ops.lean ====
section
/-! DEFINITION. The named operations over the state: the end of a command (R202), error entry (R222) and the
recovery from it (R224), reset (R251, R252), command issue (R201), the token FIFOs (R28, R38, R39), the reading
and the writing of one aperture word (R30, R61 to R63), and MemRead and MemWrite (R55, R58). -/

namespace Sys2Proof.Machine

/-! ## The end of a command -/

/-- `complete()` (R202): PHASE <- IDLE, STATUS.DONE <- 1. -/
def complete (s : State) : State := { s with phase := .idle, flags := s.flags.setDone }

/-- The command errors (R220). -/
inductive CmdError where
  | illegalOpcode
  | reservedField
  | decBadKind
  | decOverrun
  | decDcRange
  | decBadToken
deriving DecidableEq, Repr

/-- ERRINFO.CODE of an error (R220). -/
def CmdError.code : CmdError → BitVec 8
  | .illegalOpcode => 0x01
  | .reservedField => 0x02
  | .decBadKind => 0x10
  | .decOverrun => 0x11
  | .decDcRange => 0x12
  | .decBadToken => 0x13

/-- `raise E(info)` (R222): ERRINFO from the command word `w` and the cursor, STATUS.ERR <- 1, PHASE <- IDLE;
nothing else. There is nothing to return to: no state is saved (R222); the way out is `clearStatus` (R224). -/
def raiseError (e : CmdError) (w : Word) (cursor : Nat) (s : State) : State :=
  { s with
    errInfo := ⟨e.code, opField w, chField w, BitVec.ofNat 7 cursor⟩
    flags := s.flags.setErr
    phase := .idle }

/-- The command error of a decoding error (R83). -/
def CmdError.ofDecode : DecodeError → CmdError
  | .illegalOpcode => .illegalOpcode
  | .reservedField => .reservedField

/-- A write of STATUS (R31), the host's recovery from an error (R224). -/
def clearStatus (v : Word) (s : State) : State := { s with flags := s.flags.w1c v }

/-! ## Reset -/

/-- Soft reset (R251): every piece of the spec's state to its reset value, PHASE <- RESET. The model's own
fields stay: they are not the hardware's (log entry 15). -/
def softReset (s : State) : State :=
  { State.powerOn s.cfg with schedule := s.schedule, resp := s.resp, nanSeq := s.nanSeq }

/-- The reset step (R252): PHASE <- IDLE, nothing else. -/
def resetStep (s : State) : State := { s with phase := .idle }

/-! ## Command issue -/

/-- A write of `w` to CMD outside RESET (R201): dropped while busy or while ERR = 1; else LASTCMD <- w, and
either a decoding error at once or PHASE <- EXEC(w). -/
def issueCommand (w : Word) (s : State) : State :=
  if s.phase ≠ .idle ∨ s.flags.err then { s with flags := s.flags.setCmdOvr }
  else
    match decode w with
    | .error e => raiseError (CmdError.ofDecode e) w 0 { s with lastCmd := w }
    | .ok _ => { s with lastCmd := w, phase := .exec w }

/-! ## Token FIFOs, predictors and CTRL, as the host reaches them -/

/-- STATUS.ACCERR <- 1, for a refused access (R56, R57, R66). -/
def setAccErr (s : State) : State := { s with flags := s.flags.setAccErr }

/-- STATUS.ACCERR <- 1 in every PHASE but RESET (R56, R57, R60). -/
def refuseAccess (s : State) : State := if s.phase = .reset then s else setAccErr s

/-- The effect of a read of TOK_OUT outside RESET (R38): the oldest word is removed; if there is none, ACCERR. -/
def popTokOut (s : State) : State :=
  match s.tokOut with
  | _ :: rest => { s with tokOut := rest }
  | [] => setAccErr s

/-- A write of TOK_IN outside RESET (R39): appended, or dropped with ACCERR when the FIFO is full. -/
def pushTokIn (v : Word) (s : State) : State :=
  if s.tokInFull then setAccErr s else { s with tokIn := s.tokIn ++ [v] }

/-- A write of DC_PRED c outside RESET (R41): while idle bits 15:0 are stored, else ACCERR. -/
def writeDcPred (c : Chan) (v : Word) (s : State) : State :=
  if s.phase = .idle then { s with prevDc := s.prevDc.set c (v.setWidth 16) } else setAccErr s

/-- A write of CTRL outside RESET (R32, R66): bit 8 resets and discards the rest; else bits 2:0 are stored, and
bit 9 empties both FIFOs while idle, or sets ACCERR. -/
def writeCtrl (v : Word) (s : State) : State :=
  if v.getLsbD 8 then softReset s
  else
    let s := { s with ctrl := ctrlOfWord v }
    if v.getLsbD 9 then
      if s.phase = .idle then { s with tokOut := [], tokIn := [] } else setAccErr s
    else s

/-! ## One word of the aperture -/

/-- The pixel word of R90. -/
def pixelWord (p : Pixel) : Word := BitVec.ofNat 32 (p.r.toNat + 2 ^ 8 * p.g.toNat + 2 ^ 16 * p.b.toNat)

/-- The pixel a written word stores (R61): bits 31:24 are ignored. -/
def pixelOfWord (v : Word) : Pixel := ⟨v.extractLsb' 0 8, v.extractLsb' 8 8, v.extractLsb' 16 8⟩

/-- The half of a real element at its lower or upper word (R63). -/
def realHalf (x : F64) (upper : Bool) : Word := if upper then x.extractLsb' 32 32 else x.extractLsb' 0 32

/-- A real element after a write of one of its words (R63): the other half is kept. -/
def setRealHalf (x : F64) (upper : Bool) (v : Word) : F64 :=
  if upper then BitVec.ofNat 64 (2 ^ 32 * v.toNat + (x.extractLsb' 0 32).toNat)
  else BitVec.ofNat 64 (2 ^ 32 * (x.extractLsb' 32 32).toNat + v.toNat)

/-- The value of the word at a target (R30 to R41, R59, R61 to R63): what a read that is not refused returns. -/
def targetValue (t : Target) (s : State) : Word :=
  match t with
  | .id => 0x4A504547
  | .version => 0x00000001
  | .cfg => cfgWord s.cfg
  | .ctrl => ctrlWord s.ctrl
  | .status => statusWord s
  | .cmd => s.lastCmd
  | .errInfo => errInfoWord s.errInfo
  | .tokOut => s.tokOut.headD 0xFFFFFFFF
  | .tokIn => 0
  | .tokqStat => BitVec.ofNat 32 (s.tokOut.length % 2 ^ 16 + 2 ^ 16 * (s.tokIn.length % 2 ^ 16))
  | .dcPred c => (s.prevDc.get c).signExtend 32
  | .px e => pixelWord s.px[e]
  | .qtLuma e => BitVec.ofNat 32 s.cfg.qtabLuma[e]
  | .qtChroma e => BitVec.ofNat 32 s.cfg.qtabChroma[e]
  | .ib c e => (s.ib.get c)[e].signExtend 32
  | .zs c e => (s.zs.get c)[e].signExtend 32
  | .rb c e upper => realHalf (s.rb.get c)[e] upper
  | .reserved => 0

/-- The effect of a read that is not refused (R64): only TOK_OUT has one. -/
def readEffect (t : Target) (s : State) : State :=
  match t with
  | .tokOut => popTokOut s
  | .id | .version | .cfg | .ctrl | .status | .cmd | .errInfo | .tokIn | .tokqStat => s
  | .dcPred _ | .px _ | .qtLuma _ | .qtChroma _ | .ib _ _ | .zs _ _ | .rb _ _ _ | .reserved => s

/-- The effect of a write of `v` that is not refused, outside RESET (R30 to R41, R59, R61 to R63). -/
def writeTarget (t : Target) (v : Word) (s : State) : State :=
  match t with
  | .id | .version | .cfg | .errInfo | .tokOut | .tokqStat | .qtLuma _ | .qtChroma _ | .reserved => s
  | .ctrl => writeCtrl v s
  | .status => clearStatus v s
  | .cmd => issueCommand v s
  | .tokIn => pushTokIn v s
  | .dcPred c => writeDcPred c v s
  | .px e => { s with px := s.px.set e (pixelOfWord v) }
  | .ib c e => { s with ib := s.ib.set c ((s.ib.get c).set e (v.setWidth 16)) }
  | .zs c e => { s with zs := s.zs.set c ((s.zs.get c).set e (v.setWidth 16)) }
  | .rb c e upper =>
    { s with rb := s.rb.set c ((s.rb.get c).set e (setRealHalf (s.rb.get c)[e] upper v)) }

/-- The value of the byte at an aperture offset (R53): bits 8k+7:8k of the word it lies in. -/
def readByte (s : State) (off : Nat) : Byte := (targetValue (targetOf off) s).extractLsb' (8 * (off % 4)) 8

/-! ## Host accesses -/

/-- `MemRead` (R55): the state after it, the data, the response. -/
def memRead (off bits : Nat) (s : State) : State × Word × Resp :=
  if off % 4 ≠ 0 ∨ bits ≠ 32 then (refuseAccess s, 0, .error)
  else
    let t := targetOf off
    if t.isBuffer ∧ s.phase ≠ .idle then (refuseAccess s, 0, .error)
    else if s.phase = .reset ∧ t = .tokOut then (s, 0xFFFFFFFF, .okay)
    else (readEffect t s, targetValue t s, .okay)

/-- `MemWrite` (R58): the state after it, the response. -/
def memWrite (off bits : Nat) (v : Word) (s : State) : State × Resp :=
  if off % 4 ≠ 0 ∨ bits ≠ 32 then (refuseAccess s, .error)
  else if s.phase = .reset then (s, .okay)
  else
    let t := targetOf off
    if t.isBuffer ∧ s.phase ≠ .idle then (refuseAccess s, .error)
    else (writeTarget t v s, .okay)

/-- The offset of a host byte address, if the aperture holds it (R50). -/
def apertureOffset (base addr : Nat) : Option Nat :=
  if base ≤ addr ∧ addr < base + 0x2000 then some (addr - base) else none

/-- One host access (R67), its response kept in `resp` (log entry 4). An address outside the aperture is none
of this hardware's (R50; log entry 9). -/
def hostAccess (a : BusAccess) (s : State) : Host.Outcome State Fault Refusal :=
  match a with
  | .read addr bits =>
    match apertureOffset s.cfg.base addr with
    | none => .fault (.outsideAperture addr)
    | some off =>
      let r := memRead off bits s
      .next { r.1 with resp := some (.read r.2.1 r.2.2) }
  | .write addr bits v =>
    match apertureOffset s.cfg.base addr with
    | none => .fault (.outsideAperture addr)
    | some off =>
      let r := memWrite off bits v s
      .next { r.1 with resp := some (.write r.2) }

end Sys2Proof.Machine
end

