-- ==== Sys2Proof/Machine/Color.lean ====
section
/-! DEFINITION. Colour conversion and level shift: CSC_FWD and CSC_INV (40_color.md). -/

namespace Sys2Proof.Machine

/-- A sample as a binary64 value, exact (R100). -/
def f64OfByte (b : Byte) : F64 := f64OfInt b.toNat

/-- RB[0][e] of CSC_FWD (R100). -/
def fwdY (p : Pixel) : F64 :=
  f64Sub (f64Add (f64Add (f64Mul kyR (f64OfByte p.r)) (f64Mul kyG (f64OfByte p.g))) (f64Mul kyB (f64OfByte p.b))) ofs

/-- A chroma element of CSC_FWD: the weighted sum, the offset added, the level shift taken off (R100). -/
def fwdChroma (kr kg kb : F64) (p : Pixel) : F64 :=
  f64Sub (f64Add (f64Add (f64Add (f64Mul kr (f64OfByte p.r)) (f64Mul kg (f64OfByte p.g)))
    (f64Mul kb (f64OfByte p.b))) ofs) ofs

/-- RB[1][e] of CSC_FWD (R100). -/
def fwdCb (p : Pixel) : F64 := fwdChroma kcbR kcbG kcbB p

/-- RB[2][e] of CSC_FWD (R100). -/
def fwdCr (p : Pixel) : F64 := fwdChroma kcrR kcrG kcrB p

/-- CSC_FWD (R100). -/
def execCscFwd (s : State) : Host.Outcome State Fault Refusal :=
  .next (complete { s with
    rb := ⟨tabulate fun e => fwdY s.px[e], tabulate fun e => fwdCb s.px[e], tabulate fun e => fwdCr s.px[e]⟩ })

/-- `to8(x)` (R104): the sample, and whether SAT is set. -/
def to8 (tie : RoundTie) (x : F64) : Byte × Bool :=
  if f64IsNaN x then (0, true)
  else if f64IsInf x then (if f64Sign x then 0 else 255, false)
  else (clamp8 (f64Rint tie x), false)

/-- A chroma element with the level shift undone and the chroma offset removed: Cb′, Cr′ (R103, C2). -/
def chromaPrime (x : F64) : F64 := f64Sub (f64Add x ofs) ofs

/-- The R, G and B values of CSC_INV before `to8`, from the three elements (R103). -/
def invRgb (y cb cr : F64) : F64 × F64 × F64 :=
  let y := f64Add y ofs
  let cbp := chromaPrime cb
  let crp := chromaPrime cr
  (f64Add y (f64Mul krCr crp),
   f64Sub (f64Sub y (f64Mul kgCb cbp)) (f64Mul kgCr crp),
   f64Add y (f64Mul kbCb cbp))

/-- The pixel of CSC_INV (R103). -/
def invPixel (tie : RoundTie) (y cb cr : F64) : Pixel :=
  let v := invRgb y cb cr
  ⟨(to8 tie v.1).1, (to8 tie v.2.1).1, (to8 tie v.2.2).1⟩

/-- Whether `to8` met a NaN for a sample of the element (R103). -/
def invSat (tie : RoundTie) (y cb cr : F64) : Bool :=
  let v := invRgb y cb cr
  (to8 tie v.1).2 || (to8 tie v.2.1).2 || (to8 tie v.2.2).2

/-- CSC_INV (R103). -/
def execCscInv (s : State) : Host.Outcome State Fault Refusal :=
  .next (complete { s with
    px := tabulate fun e => invPixel s.cfg.roundTie s.rb.y[e] s.rb.cb[e] s.rb.cr[e]
    flags := s.flags.orSat
      ((List.finRange 64).any fun e => invSat s.cfg.roundTie s.rb.y[e] s.rb.cb[e] s.rb.cr[e]) })

end Sys2Proof.Machine
end

