-- ==== Sys2Proof/Machine/Entropy.lean ====
section
/-! DEFINITION. The entropy token unit: ENT_ENC, ENT_DEC, DC_RESET (44_entropy.md), and the token words
(R85 to R88). -/

namespace Sys2Proof.Machine

/-! ## Token words -/

/-- KIND, bits 31:30 (R85). -/
def tokKind (w : Word) : BitVec 2 := w.extractLsb' 30 2

/-- `DCtok(d)` (R87, R172): the differential in 24 bits, zero-extended. -/
def dcTok (d : Int) : Word := (BitVec.ofInt 24 d).setWidth 32

/-- `ACtok(r, v)` (R86, R172): 0x40000000 | (r << 16) | enc_16(v). -/
def acTok (run : Nat) (v : Coef) : Word := BitVec.ofNat 32 (0x40000000 + 2 ^ 16 * (run % 16) + v.toNat)

/-- EOB = (0, 0) (R86). -/
def eobTok : Word := acTok 0 0

/-- ZRL = (15, 0) (R86). -/
def zrlTok : Word := acTok 15 0

/-- The differential of a DC token (R87). -/
def dcDiff (w : Word) : Int := (w.extractLsb' 0 24).toInt

/-- The reserved bits of a DC token, 29:24 (R87). -/
def dcReserved (w : Word) : BitVec 6 := w.extractLsb' 24 6

/-- RUN of an AC token, bits 19:16 (R86). -/
def acRun (w : Word) : Nat := (w.extractLsb' 16 4).toNat

/-- VALUE of an AC token, bits 15:0 (R86). -/
def acValue (w : Word) : Coef := w.extractLsb' 0 16

/-- The reserved bits of an AC token, 29:20 (R86). -/
def acReserved (w : Word) : BitVec 10 := w.extractLsb' 20 10

/-! ## ENT_ENC -/

/-- The AC tokens of the rest of a sequence after a run of zeros (R172): at a nonzero value one ZRL for each
16 zeros of the run, then (remainder, value); at the end the EOB, always. -/
def acTokens (run : Nat) : List Coef → List Word
  | [] => [eobTok]
  | v :: rest =>
    if v = 0 then acTokens (run + 1) rest
    else List.replicate (run / 16) zrlTok ++ acTok (run % 16) v :: acTokens 0 rest

/-- The token stream of a sequence under a predictor (R172). -/
def encTokens (prev : Coef) (z : Block Coef) : List Word :=
  dcTok ((z[0]'(by decide)).toInt - prev.toInt) :: acTokens 0 z.toList.tail

/-- ENT_ENC c, the start step (R172, R203). -/
def execEntEnc (c : Chan) (s : State) : Host.Outcome State Fault Refusal :=
  let z := s.zs.get c
  .next { s with phase := .enc c (encTokens (s.prevDc.get c) z) (z[0]'(by decide)) }

/-- A step of ENC(c, pending, newdc): the push step (R173), which holds while TOKQ_OUT is full (log entry 5), or the
final step (R174). -/
def encStep (c : Chan) (pending : List Word) (newdc : Coef) (s : State) : State :=
  match pending with
  | [] => complete { s with prevDc := s.prevDc.set c newdc }
  | w :: rest =>
    if s.tokOutFull then s else { s with tokOut := s.tokOut ++ [w], phase := .enc c rest newdc }

/-! ## ENT_DEC -/

/-- ENT_DEC c, the start step (R180, R203). -/
def execEntDec (c : Chan) (s : State) : Host.Outcome State Fault Refusal :=
  .next { s with zs := s.zs.set c (Vector.replicate 64 0), phase := .dec c .dc 1 0 }

/-- Places `run` zeros and then `v` from position `k` on (R183). -/
def placeRun (k run : Nat) (v : Coef) (z : Block Coef) : Block Coef :=
  tabulate fun j => if j.val = k + run then v else if k ≤ j.val ∧ j.val < k + run then 0 else z[j]

/-- The DC stage of a token step, the word already removed (R181, R182). -/
def decDcToken (c : Chan) (w : Word) (s : State) : State :=
  if tokKind w ≠ 0b00 then raiseError .decBadKind (encode (.entDec c)) 0 s
  else if dcReserved w ≠ 0 then raiseError .decBadToken (encode (.entDec c)) 0 s
  else
    let dc := (s.prevDc.get c).toInt + dcDiff w
    if dc < -32768 ∨ 32767 < dc then raiseError .decDcRange (encode (.entDec c)) 0 s
    else
      { s with
        zs := s.zs.set c ((s.zs.get c).set 0 (BitVec.ofInt 16 dc))
        phase := .dec c .ac 1 (BitVec.ofInt 16 dc) }

/-- The AC stage of a token step, the word already removed (R181, R183, R185). -/
def decAcToken (c : Chan) (k : Nat) (dc : Coef) (w : Word) (s : State) : State :=
  if tokKind w ≠ 0b01 then raiseError .decBadKind (encode (.entDec c)) k s
  else if acReserved w ≠ 0 then raiseError .decBadToken (encode (.entDec c)) k s
  else if acRun w = 0 ∧ acValue w = 0 then complete { s with prevDc := s.prevDc.set c dc }
  else if 63 < k + acRun w then raiseError .decOverrun (encode (.entDec c)) k s
  else
    { s with
      zs := s.zs.set c (placeRun k (acRun w) (acValue w) (s.zs.get c))
      phase := .dec c .ac (k + acRun w + 1) dc }

/-- A step of DEC(c, stage, k, dc): a token step (R181 to R183), which holds while TOKQ_IN is empty (R184;
log entry 5). -/
def decStep (c : Chan) (stage : Stage) (k : Nat) (dc : Coef) (s : State) : State :=
  match s.tokIn with
  | [] => s
  | w :: rest =>
    match stage with
    | .dc => decDcToken c w { s with tokIn := rest }
    | .ac => decAcToken c k dc w { s with tokIn := rest }

/-! ## DC_RESET -/

/-- DC_RESET (R188). -/
def execDcReset (s : State) : Host.Outcome State Fault Refusal := .next (complete { s with prevDc := ⟨0, 0, 0⟩ })

end Sys2Proof.Machine
end

