-- ==== Sys2Proof/Machine/Quantizer.lean ====
section
/-! DEFINITION. The quantizer: QUANT and DEQUANT (42_quantizer.md). -/

namespace Sys2Proof.Machine

/-- `qelem(q)` (R144): the integer, and whether SAT is set. -/
def qelem (tie : RoundTie) (q : F64) : Coef × Bool :=
  if f64IsNaN q then (0, true)
  else if f64IsInf q then (if f64Sign q then sat16 (-32768) else sat16 32767, true)
  else
    let i := f64Rint tie q
    (sat16 i, decide (32767 < i ∨ i < -32768))

/-- One lane of QUANT (R143): one binary64 division, then `qelem`. -/
def quantLane (tie : RoundTie) (x : F64) (q : Nat) : Coef × Bool := qelem tie (f64Div x (f64OfInt q))

/-- QUANT c (R143). -/
def execQuant (c : Chan) (s : State) : Host.Outcome State Fault Refusal :=
  let x := s.rb.get c
  let t := qtabOf s.cfg c
  .next (complete { s with
    ib := s.ib.set c (tabulate fun e => (quantLane s.cfg.roundTie x[e] t[e]).1)
    flags := s.flags.orSat ((List.finRange 64).any fun e => (quantLane s.cfg.roundTie x[e] t[e]).2) })

/-- One lane of DEQUANT (R145): the integer product as a binary64 value. -/
def dequantLane (i : Coef) (q : Nat) : F64 := f64OfInt (i.toInt * q)

/-- DEQUANT c (R145). -/
def execDequant (c : Chan) (s : State) : Host.Outcome State Fault Refusal :=
  let x := s.ib.get c
  let t := qtabOf s.cfg c
  .next (complete { s with rb := s.rb.set c (tabulate fun e => dequantLane x[e] t[e]) })

end Sys2Proof.Machine
end

