-- ==== Sys2Proof/Machine/Transform.lean ====
section
/-! DEFINITION. The 2D DCT engine: FDCT and IDCT (41_transform.md). -/

namespace Sys2Proof.Machine

/-- The accumulation of R123 and R125: from +0.0, the outer index first, the inner index within it. -/
def dctSum (f : Fin 8 → Fin 8 → F64) : F64 :=
  (List.finRange 8).foldl (fun acc a => (List.finRange 8).foldl (fun acc b => f64Add acc (f a b)) acc) 0

/-- Output [u][v] of FDCT under REF64 (R123). -/
def fdctElem (inp : Block F64) (u v : Fin 8) : F64 :=
  f64Mul (f64Mul (f64Mul quarter (cu u)) (cu v))
    (dctSum fun x y => f64Mul (f64Mul inp[elemIdx x y] (cosTab u x)) (cosTab v y))

/-- Output [x][y] of IDCT under REF64 (R125). -/
def idctElem (inp : Block F64) (x y : Fin 8) : F64 :=
  f64Mul quarter
    (dctSum fun u v => f64Mul (f64Mul (f64Mul (f64Mul (cu u) (cu v)) inp[elemIdx u v]) (cosTab u x)) (cosTab v y))

/-- A REF64 result as it is written: a NaN gets a free pattern (R129; log entry 7), any other value stays. -/
def withFreeNaN (seq : Nat) (e : Fin 64) (x : F64) : F64 :=
  if f64IsNaN x then nanOfRaw (Config.freeNaN seq e.val) else x

/-- The block FDCT writes: R123 under REF64, R127 under ABSTRACT. -/
def fdctBlock (num : DctNumerics) (seq : Nat) (inp : Block F64) : Block F64 :=
  match num with
  | .ref64 => tabulate fun e => withFreeNaN seq e (fdctElem inp (rowOf e) (colOf e))
  | .abstract => Config.fdctImpl inp

/-- The block IDCT writes: R125 under REF64, R127 under ABSTRACT. -/
def idctBlock (num : DctNumerics) (seq : Nat) (inp : Block F64) : Block F64 :=
  match num with
  | .ref64 => tabulate fun e => withFreeNaN seq e (idctElem inp (rowOf e) (colOf e))
  | .abstract => Config.idctImpl inp

/-- FDCT c (R123), in place (R130). -/
def execFdct (c : Chan) (s : State) : Host.Outcome State Fault Refusal :=
  .next (complete { s with
    rb := s.rb.set c (fdctBlock s.cfg.dctNumerics s.nanSeq (s.rb.get c))
    nanSeq := s.nanSeq + 1 })

/-- IDCT c (R125), in place (R130). -/
def execIdct (c : Chan) (s : State) : Host.Outcome State Fault Refusal :=
  .next (complete { s with
    rb := s.rb.set c (idctBlock s.cfg.dctNumerics s.nanSeq (s.rb.get c))
    nanSeq := s.nanSeq + 1 })

end Sys2Proof.Machine
end

