-- ==== Sys2Proof/Machine/Zigzag.lean ====
section
/-! DEFINITION. The zigzag reorder unit: ZZ_FLAT and ZZ_UNFLAT (43_zigzag.md). -/

namespace Sys2Proof.Machine

/-- The sequence of a block (R162). -/
def zzFlatten (zz : Block (Fin 64)) (b : Block Coef) : Block Coef := tabulate fun i => b[zz[i]]

/-- The block of a sequence (R163): zero before assignment, then `tmp[ZZ[i]] <- ZS[i]` for i in 0..63. -/
def zzUnflatten (zz : Block (Fin 64)) (z : Block Coef) : Block Coef :=
  (List.finRange 64).foldl (fun tmp i => tmp.set (zz[i] : Fin 64).val z[i] (zz[i] : Fin 64).isLt) (Vector.replicate 64 0)

/-- ZZ_FLAT c (R162). -/
def execZzFlat (c : Chan) (s : State) : Host.Outcome State Fault Refusal :=
  .next (complete { s with zs := s.zs.set c (zzFlatten s.cfg.zz (s.ib.get c)) })

/-- ZZ_UNFLAT c (R163). -/
def execZzUnflat (c : Chan) (s : State) : Host.Outcome State Fault Refusal :=
  .next (complete { s with ib := s.ib.set c (zzUnflatten s.cfg.zz (s.zs.get c)) })

end Sys2Proof.Machine
end

