-- ==== Sys2Proof/Machine/Dispatch.lean ====
section
/-! DEFINITION. The meaning of each command: its first engine step (R203), which for every command but ENT_ENC and
ENT_DEC is its only one. -/

namespace Sys2Proof.Machine

def exec (i : Instr) (s : State) : Host.Outcome State Fault Refusal :=
  match i with
  | .nop => Sys2Proof.Machine.execNop s
  | .cscFwd => Sys2Proof.Machine.execCscFwd s
  | .cscInv => Sys2Proof.Machine.execCscInv s
  | .fdct c => Sys2Proof.Machine.execFdct c s
  | .idct c => Sys2Proof.Machine.execIdct c s
  | .quant c => Sys2Proof.Machine.execQuant c s
  | .dequant c => Sys2Proof.Machine.execDequant c s
  | .zzFlat c => Sys2Proof.Machine.execZzFlat c s
  | .zzUnflat c => Sys2Proof.Machine.execZzUnflat c s
  | .entEnc c => Sys2Proof.Machine.execEntEnc c s
  | .entDec c => Sys2Proof.Machine.execEntDec c s
  | .dcReset => Sys2Proof.Machine.execDcReset s

end Sys2Proof.Machine
end

