-- ==== Sys2Proof/Machine/Engine.lean ====
section
/-! DEFINITION. The engine's turn (R203): one engine step if one is enabled, and nothing otherwise. -/

namespace Sys2Proof.Machine

/-- One turn of the engine. With no step enabled (IDLE, or a held ENC or DEC) the state stays as it is (log
entry 5). EXEC(w) of a word that does not decode is reached by no run; it ends as the CMD write would have ended
it (R83, R222; log entry 11). -/
def engineStep (s : State) : Host.Outcome State Fault Refusal :=
  match s.phase with
  | .idle => .next s
  | .exec w =>
    match decode w with
    | .ok i => exec i s
    | .error e => .next (raiseError (CmdError.ofDecode e) w 0 s)
  | .enc c pending newdc => .next (encStep c pending newdc s)
  | .dec c stage k dc => .next (decStep c stage k dc s)
  | .reset => .next (resetStep s)

end Sys2Proof.Machine
end

