-- ==== Sys2Proof/Machine/Step.lean ====
section
/-! DEFINITION. One atomic step of the interleaving (R67): a host access or an engine turn, whichever the
schedule has next; when the schedule is empty the host is silent and the engine has the turn. -/

namespace Sys2Proof.Machine

def step (s : State) : Host.Outcome State Fault Refusal :=
  if s.cfg.wf then
    match s.schedule with
    | [] => engineStep s
    | .engine :: rest => engineStep { s with schedule := rest }
    | .host a :: rest => hostAccess a { s with schedule := rest }
  else .refused .badConfiguration

/-- The command word `w` accepted (PHASE = EXEC(w), LASTCMD = w, as R201 leaves them), and the engine's turn
next: the very next step runs it. The hardware fetches nothing (R70); log entry 14. -/
def State.withFetchWord (s : State) (nbits w : Nat) : State :=
  { s with
    phase := .exec (BitVec.ofNat 32 (w % 2 ^ nbits))
    lastCmd := BitVec.ofNat 32 (w % 2 ^ nbits)
    schedule := .engine :: s.schedule }

end Sys2Proof.Machine
end

