-- ==== Sys2Proof/Safety.lean ====
section
/-! DEFINITION. The terms claims are made in: when the engine has a step (R203), the machine's invariant, the byte
ranges of the buffers (R52), and the exact real transforms with the bound a model may assume under
DCT_NUMERICS = ABSTRACT (R124, R126, R127), and the tables of R120 and R121 as that file prints them. -/

namespace Sys2Proof.Machine

/-- The engine has a step enabled (R203, R173, R184). -/
def State.engineEnabled (s : State) : Bool :=
  match s.phase with
  | .idle => false
  | .exec _ => true
  | .enc _ [] _ => true
  | .enc _ (_ :: _) _ => !s.tokOutFull
  | .dec _ _ _ _ => !s.tokIn.isEmpty
  | .reset => true

/-- What PHASE promises about the rest of the state: the running command is LASTCMD (R201, R222); the words ENT_ENC
has yet to push end the stream of the sequence under the predictor (R172, R173); ENT_DEC's cursor and DC value,
and the zeros from the cursor on (R29, R180, R185); a reset in progress shows only reset values (R250, R60). -/
def State.phaseInv (s : State) : Prop :=
  match s.phase with
  | .idle => True
  | .exec w => s.lastCmd = w ∧ ∃ i, decode w = .ok i
  | .enc c pending newdc =>
    s.lastCmd = encode (.entEnc c) ∧ pending <:+ encTokens (s.prevDc.get c) (s.zs.get c)
      ∧ newdc = (s.zs.get c)[(0 : Fin 64)]
  | .dec c .dc k dc =>
    s.lastCmd = encode (.entDec c) ∧ k = 1 ∧ dc = 0 ∧ ∀ j : Fin 64, (s.zs.get c)[j] = 0
  | .dec c .ac k dc =>
    s.lastCmd = encode (.entDec c) ∧ 1 ≤ k ∧ k ≤ 64 ∧ dc = (s.zs.get c)[(0 : Fin 64)]
      ∧ ∀ j : Fin 64, k ≤ j.val → (s.zs.get c)[j] = 0
  | .reset => s = softReset s

/-- The codes ERRINFO.CODE can hold (R220): 0x00 until an error, then one of the six. -/
def errCodes : List (BitVec 8) := [0x00, 0x01, 0x02, 0x10, 0x11, 0x12, 0x13]

/-- The machine's invariant: it holds after power-on and every step keeps it. -/
structure State.Inv (s : State) : Prop where
  /-- The parameter set is a configuration of this hardware (R142, R161, item I7). -/
  cfgOk : s.cfg.wf = true
  /-- TOKQ_OUT holds at most TOKQ_DEPTH words (R28). -/
  outFits : s.tokOut.length ≤ s.cfg.tokqDepth
  /-- TOKQ_IN holds at most TOKQ_DEPTH words (R28). -/
  inFits : s.tokIn.length ≤ s.cfg.tokqDepth
  /-- A command error is reported with no command in progress, and none starts before it is cleared (R222, R224). -/
  errIdle : s.flags.err = true → s.phase = .idle
  /-- ERRINFO.CODE is 0x00 or one of the six codes (R220). -/
  errCode : s.errInfo.code ∈ errCodes
  /-- What PHASE promises. -/
  running : s.phaseInv

/-! ## Turns of the interleaving (R67) -/

/-- The host access `a` is the next step of `s`. -/
def State.onBus (s : State) (a : BusAccess) : State := { s with schedule := .host a :: s.schedule }

/-- The engine has the next step of `s`. -/
def State.onEngine (s : State) : State := { s with schedule := .engine :: s.schedule }

/-- A host read of 32 bits at an aperture offset. -/
def State.onRead (s : State) (off : Nat) : State := s.onBus (.read (s.cfg.base + off) 32)

/-- A host write of 32 bits at an aperture offset. -/
def State.onWrite (s : State) (off : Nat) (v : Word) : State := s.onBus (.write (s.cfg.base + off) 32 v)

/-! ## The byte ranges of the buffers (R52) -/

/-- The channel number (R14). -/
def chanNum : Chan → Nat
  | .y => 0
  | .cb => 1
  | .cr => 2

/-- `off` lies in the `len` bytes from `lo` on. -/
abbrev inRange (lo len off : Nat) : Prop := lo ≤ off ∧ off < lo + len

/-- STATUS's four bytes (R30). -/
abbrev inStatus (off : Nat) : Prop := inRange 0x010 4 off

/-- PX's bytes. -/
abbrev inPx (off : Nat) : Prop := inRange 0x0100 0x100 off

/-- IB[c]'s bytes. -/
abbrev inIb (c : Chan) (off : Nat) : Prop := inRange (0x0400 + 0x100 * chanNum c) 0x100 off

/-- ZS[c]'s bytes. -/
abbrev inZs (c : Chan) (off : Nat) : Prop := inRange (0x0800 + 0x100 * chanNum c) 0x100 off

/-- RB[c]'s bytes. -/
abbrev inRb (c : Chan) (off : Nat) : Prop := inRange (0x1000 + 0x200 * chanNum c) 0x200 off

/-- The bytes of all buffer regions (R52). -/
abbrev inBuffer (off : Nat) : Prop := inPx off ∨ ∃ c, inIb c off ∨ inZs c off ∨ inRb c off

/-- The reserved offsets (R52). -/
abbrev inReserved (off : Nat) : Prop :=
  inRange 0x0034 0xCC off ∨ inRange 0x0700 0x100 off ∨ inRange 0x0B00 0x500 off ∨ inRange 0x1600 0xA00 off

/-- The bytes a command's own step may change beside STATUS (R207). -/
def writtenBytes (i : Instr) (off : Nat) : Prop :=
  match i with
  | .nop => False
  | .cscFwd => ∃ c, inRb c off
  | .cscInv => inPx off
  | .fdct c => inRb c off
  | .idct c => inRb c off
  | .quant c => inIb c off
  | .dequant c => inRb c off
  | .zzFlat c => inZs c off
  | .zzUnflat c => inIb c off
  | .entEnc _ => False
  | .entDec c => inZs c off
  | .dcReset => inRange 0x028 12 off

/-- Two states agree on what a command reads (R207), and on the parameters and the model's free-value counter. -/
def readsAgree (i : Instr) (s t : State) : Prop :=
  s.cfg = t.cfg ∧ s.nanSeq = t.nanSeq ∧
  match i with
  | .nop => True
  | .cscFwd => s.px = t.px
  | .cscInv => s.rb = t.rb
  | .fdct c => s.rb.get c = t.rb.get c
  | .idct c => s.rb.get c = t.rb.get c
  | .quant c => s.rb.get c = t.rb.get c
  | .dequant c => s.ib.get c = t.ib.get c
  | .zzFlat c => s.ib.get c = t.ib.get c
  | .zzUnflat c => s.zs.get c = t.zs.get c
  | .entEnc c => s.zs.get c = t.zs.get c ∧ s.prevDc.get c = t.prevDc.get c
  | .entDec _ => True
  | .dcReset => True

/-- Two states agree on PHASE and on the buffer or predictors a command's own step writes (R207). -/
def writesAgree (i : Instr) (s t : State) : Prop :=
  s.phase = t.phase ∧
  match i with
  | .nop => True
  | .cscFwd => s.rb = t.rb
  | .cscInv => s.px = t.px
  | .fdct c => s.rb.get c = t.rb.get c
  | .idct c => s.rb.get c = t.rb.get c
  | .quant c => s.ib.get c = t.ib.get c
  | .dequant c => s.rb.get c = t.rb.get c
  | .zzFlat c => s.zs.get c = t.zs.get c
  | .zzUnflat c => s.ib.get c = t.ib.get c
  | .entEnc _ => True
  | .entDec c => s.zs.get c = t.zs.get c
  | .dcReset => s.prevDc = t.prevDc

/-! ## Rounding (R13) -/

/-- The infinity of a sign (R92). -/
def signedInf (neg : Bool) : F64 := if neg then 0xFFF0000000000000 else 0x7FF0000000000000

/-- The zero of a sign (R92). -/
def signedZero (neg : Bool) : F64 := if neg then 0x8000000000000000 else 0x0000000000000000

/-- `z` is RN of num/scale in units of 2^−1074 (R13): no NaN; infinite exactly when the exact quotient reaches the
midpoint above the largest finite value, (2^53 − 1/2)·2^2045; of the sign of the exact quotient if that is not zero,
an overflow to infinity and an underflow to zero among them; and if finite, no finite value is nearer, and where
another value is as near, the significand of `z` is even. -/
def roundsTo (z : F64) (scale num : Int) : Prop :=
  f64IsNaN z = false
  ∧ (f64IsInf z = true ↔ (2 ^ 54 - 1) * 2 ^ 2044 * |scale| ≤ |num|)
  ∧ (num ≠ 0 → (f64Sign z = true ↔ num * scale < 0))
  ∧ (f64IsFinite z = true → ∀ w : F64, f64IsFinite w = true →
      |f64Val z * scale - num| ≤ |f64Val w * scale - num|
      ∧ (f64Val w ≠ f64Val z → |f64Val z * scale - num| = |f64Val w * scale - num| → z.getLsbD 0 = false))

/-! ## The transform tables (R120, R121) -/

/-- T[0..7] (R120). -/
def cosEncodings : Vector F64 8 :=
  #v[0x3FF0000000000000, 0x3FEF6297CFF75CB0, 0x3FED906BCF328D46, 0x3FEA9B66290EA1A3,
     0x3FE6A09E667F3BCD, 0x3FE1C73B39AE68C8, 0x3FD87DE2A6AEA963, 0x3FC8F8B83C69A60B]

/-- The second table of R120, row k and column n: ±m stands for ±T[m]. -/
def cosSigned : Vector (Vector Int 8) 8 :=
  #v[#v[0, 0, 0, 0, 0, 0, 0, 0],
     #v[1, 3, 5, 7, -7, -5, -3, -1],
     #v[2, 6, -6, -2, -2, -6, 6, 2],
     #v[3, -7, -1, -5, 5, 1, 7, -3],
     #v[4, -4, -4, 4, 4, -4, -4, 4],
     #v[5, -1, 7, 3, -3, -7, 1, -5],
     #v[6, -2, 2, -6, -6, 2, -2, 6],
     #v[7, -5, 3, -1, 1, -3, 5, -7]]

/-- COS[k][n] as R120's two tables give it: the encoding, with the sign bit where the entry is negative. -/
def cosPrinted (k n : Fin 8) : F64 :=
  cosEncodings.toList.getD cosSigned[k][n].natAbs 0 ||| (if cosSigned[k][n] < 0 then 0x8000000000000000 else 0)

/-- CU[k] as R121 prints it. -/
def cuPrinted (k : Fin 8) : F64 := if k = 0 then 0x3FE6A09E667F3BCD else 0x3FF0000000000000

/-! ## The exact transforms -/

/-- The real value of a finite binary64 encoding. -/
noncomputable def f64Real (x : F64) : ℝ := (f64Val x : ℝ) / 2 ^ 1074

/-- Cu of the source: 1/√2 at 0, else 1 (R121, R124). -/
noncomputable def cuExact (k : Fin 8) : ℝ := if k.val = 0 then 1 / Real.sqrt 2 else 1

/-- cos((2n+1)·k·π/16) (R124). -/
noncomputable def cosExact (k n : Fin 8) : ℝ := Real.cos ((2 * (n.val : ℝ) + 1) * (k.val : ℝ) * Real.pi / 16)

/-- FDCT_exact (R124). -/
noncomputable def fdctExact (b : Fin 8 → Fin 8 → ℝ) (u v : Fin 8) : ℝ :=
  0.25 * cuExact u * cuExact v * ∑ x : Fin 8, ∑ y : Fin 8, b x y * cosExact u x * cosExact v y

/-- IDCT_exact (R126). -/
noncomputable def idctExact (b : Fin 8 → Fin 8 → ℝ) (x y : Fin 8) : ℝ :=
  0.25 * ∑ u : Fin 8, ∑ v : Fin 8, cuExact u * cuExact v * b u v * cosExact u x * cosExact v y

/-- Every element is finite, of magnitude at most `m`. -/
def blockBoundedBy (b : Block F64) (m : ℝ) : Prop :=
  ∀ e : Fin 64, f64IsFinite b[e] = true ∧ |f64Real b[e]| ≤ m

/-- `out` is within `eps` of the real function `f` of `inp`, element by element. -/
def blockWithin (f : (Fin 8 → Fin 8 → ℝ) → Fin 8 → Fin 8 → ℝ) (inp out : Block F64) (eps : ℝ) : Prop :=
  ∀ r c : Fin 8, f64IsFinite out[elemIdx r c] = true ∧
    |f64Real out[elemIdx r c] - f (fun x y => f64Real inp[elemIdx x y]) r c| ≤ eps

/-- What a model may assume of `fdct_impl` and `idct_impl` (R127, with the bounds as C9 settles them): 2^−30 for inputs
of magnitude at most 2^7, 2^−26 for inputs of magnitude at most 2^11. A claim that needs it takes it as a premise. -/
def AbstractNumericsBound : Prop :=
  ∀ inp : Block F64,
    (blockBoundedBy inp (2 ^ 7) → blockWithin fdctExact inp (Config.fdctImpl inp) (1 / 2 ^ 30)
      ∧ blockWithin idctExact inp (Config.idctImpl inp) (1 / 2 ^ 30))
    ∧ (blockBoundedBy inp (2 ^ 11) → blockWithin fdctExact inp (Config.fdctImpl inp) (1 / 2 ^ 26)
      ∧ blockWithin idctExact inp (Config.idctImpl inp) (1 / 2 ^ 26))

end Sys2Proof.Machine
end

