-- ==== Sys2Proof/Certificates/Slice0/Obligations.lean ====
section
/-! DEFINITION. The statements about the model. Each docstring names the rule of spec/ it formalises; a clause that
rests on a choice of the model's names its log entry. `s.onWrite off v`, `s.onRead off` and `s.onEngine` are `s`
with that access, or the engine's turn, as the next step of the interleaving. -/

open Sys2Proof Sys2Proof.Machine

/-! ## Encoding -/

/-- R82, R93 and the vectors C2 to C8 of 95_test_vectors.md: words written out from the opcode map. -/
def Obligations.SpecWordsDecode : Prop :=
  decode 0x00000000 = .ok .nop ∧ decode 0x00000001 = .ok .cscFwd ∧ decode 0x00000002 = .ok .cscInv
  ∧ decode 0x00000010 = .ok (.fdct .y) ∧ decode 0x00000111 = .ok (.idct .cb)
  ∧ decode 0x00000120 = .ok (.quant .cb) ∧ decode 0x00000221 = .ok (.dequant .cr)
  ∧ decode 0x00000030 = .ok (.zzFlat .y) ∧ decode 0x00000231 = .ok (.zzUnflat .cr)
  ∧ decode 0x00000140 = .ok (.entEnc .cb) ∧ decode 0x00000241 = .ok (.entDec .cr)
  ∧ decode 0x00000042 = .ok .dcReset
  ∧ decode 0x000003FF = .error .illegalOpcode ∧ decode 0x00000310 = .error .reservedField
  ∧ decode 0x80000000 = .error .reservedField

/-- R80 to R84: every command has exactly one word, and every word that decodes is that word. -/
def Obligations.DecodeAndEncodeAgree : Prop :=
  (∀ i, decode (encode i) = .ok i) ∧ ∀ w i, decode w = .ok i → w = encode i

/-- R84, in plain numbers: which words are illegal, which have a reserved field, and that every other word decodes to
the command of its OP and CH. -/
def Obligations.EveryWordDecodesOrIsRejectedByName : Prop :=
  let opcodes := [0x00, 0x01, 0x02, 0x10, 0x11, 0x20, 0x21, 0x30, 0x31, 0x40, 0x41, 0x42]
  let channelLess := [0x00, 0x01, 0x02, 0x42]
  ((List.range 256).filter fun op => op ∉ opcodes).length = 244
  ∧ ∀ w : Word,
    let op := w.toNat % 256
    let ch := w.toNat / 256 % 4
    let rsv := w.toNat / 1024
    (op ∉ opcodes → decode w = .error .illegalOpcode)
    ∧ (op ∈ opcodes → rsv ≠ 0 → decode w = .error .reservedField)
    ∧ (op ∈ channelLess → rsv = 0 → ch ≠ 0 → decode w = .error .reservedField)
    ∧ (op ∈ opcodes → op ∉ channelLess → rsv = 0 → ch = 3 → decode w = .error .reservedField)
    ∧ (op ∈ opcodes → rsv = 0 → (op ∈ channelLess ∧ ch = 0 ∨ op ∉ channelLess ∧ ch ≠ 3) →
        ∃ i, decode w = .ok i ∧ i.op.toNat = op ∧ i.ch.toNat = ch)

/-! ## The step -/

/-- R203, R70 (the accepted word takes the place of a fetch; log entry 14): when PHASE = EXEC(w), w decodes to i and
the engine has the turn, the step is exec of i; `withFetchWord` sets up exactly that. -/
def Obligations.StepRunsTheDecodedCommand : Prop :=
  ∀ (s : State) (w : Word) (i : Instr), s.cfg.wf = true → decode w = .ok i →
    (s.phase = .exec w → s.schedule = [] → step s = exec i s)
    ∧ (s.phase = .exec w → step s.onEngine = exec i s)
    ∧ step (s.withFetchWord 32 w.toNat) = exec i { s with phase := .exec w, lastCmd := w }

/-- R203 with log entry 5 (DESIGN CHOICE: a turn with no step enabled changes nothing): an engine turn changes nothing
exactly in IDLE and in the two holds that STATUS.WAIT_IN and STATUS.WAIT_OUT expose, where `engineEnabled` is false. -/
def Obligations.EngineHoldsOnlyIdleOrWaiting : Prop :=
  ∀ s : State, s.cfg.wf = true →
    (s.engineEnabled = false ↔ s.phase = .idle ∨ s.waitIn = true ∨ s.waitOut = true)
    ∧ (step s.onEngine = .next s ↔ s.phase = .idle ∨ s.waitIn = true ∨ s.waitOut = true)

/-- R201: what a CMD write does. -/
def Obligations.CommandIssue : Prop :=
  ∀ (s : State) (w : Word), s.cfg.wf = true →
    (s.phase = .reset → step (s.onWrite 0x014 w) = .next { s with resp := some (.write .okay) })
    ∧ (s.phase ≠ .reset → s.phase ≠ .idle ∨ s.flags.err = true →
        step (s.onWrite 0x014 w) =
          .next { s with flags := { s.flags with cmdOvr := true }, resp := some (.write .okay) })
    ∧ (∀ e, s.phase = .idle → s.flags.err = false → decode w = .error e →
        step (s.onWrite 0x014 w) =
          .next { s with
            lastCmd := w
            errInfo := ⟨if e = .illegalOpcode then 0x01 else 0x02, w.extractLsb' 0 8, w.extractLsb' 8 2, 0⟩
            flags := { s.flags with err := true }
            resp := some (.write .okay) })
    ∧ (∀ i, s.phase = .idle → s.flags.err = false → decode w = .ok i →
        step (s.onWrite 0x014 w) =
          .next { s with lastCmd := w, phase := .exec w, resp := some (.write .okay) })

/-- R202, R206: every command but ENT_ENC and ENT_DEC ends, with DONE and without an error, in the one engine step
after its acceptance; its step leaves CTRL, the FIFOs, LASTCMD, ERRINFO and the parameters alone. -/
def Obligations.SingleStepCommandsComplete : Prop :=
  ∀ (i : Instr) (s : State), (∀ c, i ≠ .entEnc c) → (∀ c, i ≠ .entDec c) →
    s.cfg.wf = true → s.phase = .exec (encode i) →
    ∃ t, step s.onEngine = .next t ∧ exec i s = .next t ∧ t.phase = .idle
      ∧ t.flags.done = true ∧ t.flags.err = s.flags.err ∧ t.flags.accErr = s.flags.accErr
      ∧ t.flags.cmdOvr = s.flags.cmdOvr ∧ (s.flags.sat = true → t.flags.sat = true)
      ∧ t.ctrl = s.ctrl ∧ t.tokOut = s.tokOut ∧ t.tokIn = s.tokIn ∧ t.lastCmd = s.lastCmd
      ∧ t.errInfo = s.errInfo ∧ t.cfg = s.cfg ∧ t.schedule = s.schedule

/-- R50 with log entry 9 (DESIGN CHOICE): an access outside the aperture is no access of this hardware, and stops. -/
def Obligations.OutsideTheApertureFaults : Prop :=
  ∀ (s : State) (addr bits : Nat) (v : Word), s.cfg.wf = true →
    (addr < s.cfg.base ∨ s.cfg.base + 0x2000 ≤ addr) →
    step (s.onBus (.read addr bits)) = .fault (.outsideAperture addr)
    ∧ step (s.onBus (.write addr bits v)) = .fault (.outsideAperture addr)

/-- R10, R142, R161 and items I1, I2, I6, I7: which parameter sets are configurations of this hardware; the default is
one, and a set that is none is refused. I1, I2 and I7 say `refuse`; that a BASE which is no multiple of 0x2000 (R10, I6) is
refused too is the model's choice (DESIGN CHOICE, log entry 10). -/
def Obligations.OnlyConfigurationsRun : Prop :=
  defaultParams.wf = true
  ∧ (∀ p : Params, p.wf = true ↔
      p.base % 0x2000 = 0 ∧ 65 ≤ p.tokqDepth ∧ p.tokqDepth ≤ 65535
      ∧ (∀ e : Fin 64, 1 ≤ p.qtabLuma[e] ∧ p.qtabLuma[e] ≤ 255)
      ∧ (∀ e : Fin 64, 1 ≤ p.qtabChroma[e] ∧ p.qtabChroma[e] ≤ 255)
      ∧ Function.Bijective (fun i : Fin 64 => p.zz[i])
      ∧ p.zz[(0 : Fin 64)] = 0
      ∧ ∀ i j : Fin 64, i ≤ j →
          p.zz[i].val / 8 + p.zz[i].val % 8 ≤ p.zz[j].val / 8 + p.zz[j].val % 8)
  ∧ ∀ s : State, s.cfg.wf = false → step s = .refused .badConfiguration

/-! ## Reset -/

/-- R250: the state after power-on, and what the host reads of it. -/
def Obligations.PowerOnState : Prop :=
  let s := State.reset
  s.phase = .reset
  ∧ (∀ e : Fin 64, s.px[e] = ⟨0, 0, 0⟩)
  ∧ (∀ (c : Chan) (e : Fin 64), (s.rb.get c)[e] = 0 ∧ (s.ib.get c)[e] = 0 ∧ (s.zs.get c)[e] = 0)
  ∧ (∀ c : Chan, s.prevDc.get c = 0)
  ∧ s.tokOut = [] ∧ s.tokIn = [] ∧ s.lastCmd = 0
  ∧ targetValue .status s = 0x00000001 ∧ targetValue .status { s with phase := .idle } = 0x00000000
  ∧ targetValue .ctrl s = 0 ∧ targetValue .errInfo s = 0
  ∧ targetValue .id s = 0x4A504547 ∧ targetValue .version s = 0x00000001 ∧ targetValue .cfg s = 0x000E0080
  ∧ s.irq = false

/-- R252: the reset step leaves RESET and writes nothing else; after it STATUS reads 0. -/
def Obligations.ResetStepLeavesReset : Prop :=
  ∀ s : State, s.cfg.wf = true → s.phase = .reset →
    step s.onEngine = .next { s with phase := .idle }
    ∧ (s.Inv → statusWord { s with phase := .idle } = 0)

/-- R251: a soft reset, in every PHASE but RESET. The model's own fields stay (log entry 15). -/
def Obligations.SoftResetClearsEverything : Prop :=
  ∀ (s : State) (v : Word), s.cfg.wf = true → v.getLsbD 8 = true →
    (s.phase = .reset → step (s.onWrite 0x00C v) = .next { s with resp := some (.write .okay) })
    ∧ (s.phase ≠ .reset → ∃ t, step (s.onWrite 0x00C v) = .next t
        ∧ t = { State.powerOn s.cfg with
                  schedule := s.schedule, nanSeq := s.nanSeq, resp := some (.write .okay) }
        ∧ statusWord t = 1
        ∧ ∀ off, inBuffer off → readByte t off = 0)

/-- R60: the accesses made while a reset is in progress. -/
def Obligations.AccessesDuringReset : Prop :=
  (∀ (s : State) (off : Nat) (v : Word), s.Inv → s.phase = .reset → off < 0x2000 → off % 4 = 0 →
    step (s.onWrite off v) = .next { s with resp := some (.write .okay) }
    ∧ (inBuffer off → step (s.onRead off) = .next { s with resp := some (.read 0 .error) })
    ∧ (off = 0x01C → step (s.onRead off) = .next { s with resp := some (.read 0xFFFFFFFF .okay) })
    ∧ (off = 0x010 → step (s.onRead off) = .next { s with resp := some (.read 1 .okay) })
    ∧ (off = 0x000 → step (s.onRead off) = .next { s with resp := some (.read 0x4A504547 .okay) })
    ∧ (off = 0x004 → step (s.onRead off) = .next { s with resp := some (.read 1 .okay) })
    ∧ (off = 0x008 → step (s.onRead off) = .next { s with resp := some (.read (cfgWord s.cfg) .okay) })
    ∧ (off = 0x00C ∨ off = 0x014 ∨ off = 0x018 ∨ off = 0x020 ∨ off = 0x024 ∨ inRange 0x028 12 off ∨ inReserved off →
        step (s.onRead off) = .next { s with resp := some (.read 0 .okay) })
    ∧ (∀ e : Fin 64, off = 0x0200 + 4 * e.val →
        step (s.onRead off) = .next { s with resp := some (.read (BitVec.ofNat 32 s.cfg.qtabLuma[e]) .okay) })
    ∧ (∀ e : Fin 64, off = 0x0300 + 4 * e.val →
        step (s.onRead off) = .next { s with resp := some (.read (BitVec.ofNat 32 s.cfg.qtabChroma[e]) .okay) }))
  ∧ ∀ (s t : State) (a : BusAccess), s.Inv → s.phase = .reset → step (s.onBus a) = .next t → t.flags.accErr = false

/-! ## Host accesses -/

/-- R56: a misaligned or non-32-bit access gets ERROR and data 0, and changes nothing but ACCERR (not in RESET). -/
def Obligations.MisalignedOrNarrowAccessRefused : Prop :=
  ∀ (s : State) (off bits : Nat) (v : Word), s.cfg.wf = true → off < 0x2000 → off % 4 ≠ 0 ∨ bits ≠ 32 →
    let flags := if s.phase = .reset then s.flags else { s.flags with accErr := true }
    step (s.onBus (.read (s.cfg.base + off) bits)) = .next { s with flags := flags, resp := some (.read 0 .error) }
    ∧ step (s.onBus (.write (s.cfg.base + off) bits v)) = .next { s with flags := flags, resp := some (.write .error) }

/-- R57: the buffer regions are refused while PHASE ≠ IDLE (ERROR, data 0, ACCERR unless RESET; a write in RESET is
R60's); every other aligned 32-bit access gets OKAY. -/
def Obligations.BuffersLockedWhileBusy : Prop :=
  ∀ (s : State) (off : Nat) (v : Word), s.cfg.wf = true → off < 0x2000 → off % 4 = 0 →
    (inBuffer off → s.phase ≠ .idle →
      step (s.onRead off) =
        .next { s with
          flags := if s.phase = .reset then s.flags else { s.flags with accErr := true }
          resp := some (.read 0 .error) }
      ∧ (s.phase ≠ .reset →
          step (s.onWrite off v) =
            .next { s with flags := { s.flags with accErr := true }, resp := some (.write .error) }))
    ∧ (¬ inBuffer off ∨ s.phase = .idle →
        (∃ t d, step (s.onRead off) = .next t ∧ t.resp = some (.read d .okay))
        ∧ ∃ t, step (s.onWrite off v) = .next t ∧ t.resp = some (.write .okay))

/-- R61: the pixel words, PHASE = IDLE. -/
def Obligations.PixelElementAccess : Prop :=
  ∀ (s : State) (e : Fin 64) (v : Word), s.cfg.wf = true → s.phase = .idle →
    (∃ p : Pixel, step (s.onWrite (0x0100 + 4 * e.val) v) =
        .next { s with px := s.px.set e p, resp := some (.write .okay) }
      ∧ p.r.toNat = v.toNat % 256 ∧ p.g.toNat = v.toNat / 256 % 256 ∧ p.b.toNat = v.toNat / 65536 % 256)
    ∧ ∃ d : Word, step (s.onRead (0x0100 + 4 * e.val)) = .next { s with resp := some (.read d .okay) }
      ∧ d.toNat = s.px[e].r.toNat + 256 * s.px[e].g.toNat + 65536 * s.px[e].b.toNat

/-- R62: the words of IB and ZS, PHASE = IDLE, and the reads of QT, in every PHASE. -/
def Obligations.IntegerElementAccess : Prop :=
  ∀ (s : State) (c : Chan) (e : Fin 64) (v : Word), s.cfg.wf = true →
    (s.phase = .idle →
      (∃ x : Coef, x.toNat = v.toNat % 65536
        ∧ step (s.onWrite (0x0400 + 0x100 * chanNum c + 4 * e.val) v) =
            .next { s with ib := s.ib.set c ((s.ib.get c).set e x), resp := some (.write .okay) }
        ∧ step (s.onWrite (0x0800 + 0x100 * chanNum c + 4 * e.val) v) =
            .next { s with zs := s.zs.set c ((s.zs.get c).set e x), resp := some (.write .okay) })
      ∧ (∃ d : Word, d.toInt = (s.ib.get c)[e].toInt
        ∧ step (s.onRead (0x0400 + 0x100 * chanNum c + 4 * e.val)) = .next { s with resp := some (.read d .okay) })
      ∧ ∃ d : Word, d.toInt = (s.zs.get c)[e].toInt
        ∧ step (s.onRead (0x0800 + 0x100 * chanNum c + 4 * e.val)) = .next { s with resp := some (.read d .okay) })
    ∧ (∃ d : Word, d.toNat = s.cfg.qtabLuma[e]
        ∧ step (s.onRead (0x0200 + 4 * e.val)) = .next { s with resp := some (.read d .okay) })
    ∧ ∃ d : Word, d.toNat = s.cfg.qtabChroma[e]
        ∧ step (s.onRead (0x0300 + 4 * e.val)) = .next { s with resp := some (.read d .okay) }

/-- R63: the two words of a real element, PHASE = IDLE; each write keeps the other word, and every pattern is stored
as it is. -/
def Obligations.RealElementAccess : Prop :=
  ∀ (s : State) (c : Chan) (e : Fin 64) (v : Word), s.cfg.wf = true → s.phase = .idle →
    let off := 0x1000 + 0x200 * chanNum c + 8 * e.val
    let x := (s.rb.get c)[e]
    (∃ y : F64, y.extractLsb' 0 32 = v ∧ y.extractLsb' 32 32 = x.extractLsb' 32 32
      ∧ step (s.onWrite off v) =
          .next { s with rb := s.rb.set c ((s.rb.get c).set e y), resp := some (.write .okay) })
    ∧ (∃ y : F64, y.extractLsb' 0 32 = x.extractLsb' 0 32 ∧ y.extractLsb' 32 32 = v
      ∧ step (s.onWrite (off + 4) v) =
          .next { s with rb := s.rb.set c ((s.rb.get c).set e y), resp := some (.write .okay) })
    ∧ step (s.onRead off) = .next { s with resp := some (.read (x.extractLsb' 0 32) .okay) }
    ∧ step (s.onRead (off + 4)) = .next { s with resp := some (.read (x.extractLsb' 32 32) .okay) }

/-- R59: reserved offsets, read-only registers and QT, and the reserved fields of the writable registers. -/
def Obligations.ReservedAndReadOnly : Prop :=
  ∀ (s : State) (off : Nat) (v : Word), s.cfg.wf = true → off % 4 = 0 →
    (inReserved off → step (s.onRead off) = .next { s with resp := some (.read 0 .okay) })
    ∧ (inReserved off ∨ off = 0x000 ∨ off = 0x004 ∨ off = 0x008 ∨ off = 0x018 ∨ off = 0x01C ∨ off = 0x024
          ∨ inRange 0x0200 0x200 off →
        step (s.onWrite off v) = .next { s with resp := some (.write .okay) })
    ∧ (∀ n, 3 ≤ n → (targetValue .ctrl s).getLsbD n = false)
    ∧ (∀ n, 8 ≤ n → (targetValue .status s).getLsbD n = false)
    ∧ (∀ n, 25 ≤ n → (targetValue .errInfo s).getLsbD n = false)
    ∧ (∀ n, 20 ≤ n → (targetValue .cfg s).getLsbD n = false)
    ∧ step (s.onWrite 0x00C v) = step (s.onWrite 0x00C (v &&& 0x307))
    ∧ step (s.onWrite 0x010 v) = step (s.onWrite 0x010 (v &&& 0xE6))

/-- R33, R34, R35: ID, VERSION and CFG, in every PHASE, read-only, and CFG of the default parameters. -/
def Obligations.IdentityAndConfigurationRegisters : Prop :=
  (∀ (s : State) (v : Word), s.cfg.wf = true →
    (∀ off, off = 0x000 ∨ off = 0x004 ∨ off = 0x008 →
      step (s.onWrite off v) = .next { s with resp := some (.write .okay) })
    ∧ step (s.onRead 0x000) = .next { s with resp := some (.read 0x4A504547 .okay) }
    ∧ step (s.onRead 0x004) = .next { s with resp := some (.read 0x00000001 .okay) }
    ∧ ∃ d : Word, step (s.onRead 0x008) = .next { s with resp := some (.read d .okay) }
      ∧ d.toNat % 65536 = s.cfg.tokqDepth
      ∧ (d.getLsbD 16 = true ↔ s.cfg.roundTie = .halfEven)
      ∧ (d.getLsbD 17 = true ↔ s.cfg.qtabLuma = defaultLuma ∧ s.cfg.qtabChroma = defaultChroma)
      ∧ (d.getLsbD 18 = true ↔ s.cfg.zz = defaultZigzag)
      ∧ (d.getLsbD 19 = true ↔ s.cfg.dctNumerics = .ref64)
      ∧ d.toNat < 2 ^ 20)
  ∧ cfgWord defaultParams = 0x000E0080

/-- R31: what each bit of STATUS reads as, and the W1C write. -/
def Obligations.StatusRegister : Prop :=
  ∀ (s : State) (v : Word), s.cfg.wf = true → s.tokOut.length ≤ s.cfg.tokqDepth →
    (∃ d : Word, step (s.onRead 0x010) = .next { s with resp := some (.read d .okay) }
      ∧ (d.getLsbD 0 = true ↔ s.phase ≠ .idle)
      ∧ d.getLsbD 1 = s.flags.done ∧ d.getLsbD 2 = s.flags.err
      ∧ (d.getLsbD 3 = true ↔ (∃ c st k dc, s.phase = .dec c st k dc) ∧ s.tokIn = [])
      ∧ (d.getLsbD 4 = true ↔
          (∃ c p ps nd, s.phase = .enc c (p :: ps) nd) ∧ s.tokOut.length = s.cfg.tokqDepth)
      ∧ d.getLsbD 5 = s.flags.sat ∧ d.getLsbD 6 = s.flags.accErr ∧ d.getLsbD 7 = s.flags.cmdOvr
      ∧ d.toNat < 256)
    ∧ (s.phase = .reset → step (s.onWrite 0x010 v) = .next { s with resp := some (.write .okay) })
    ∧ (s.phase ≠ .reset → ∃ f : Flags,
        step (s.onWrite 0x010 v) = .next { s with flags := f, resp := some (.write .okay) }
        ∧ f.done = (if v.getLsbD 1 then false else s.flags.done)
        ∧ f.err = (if v.getLsbD 2 then false else s.flags.err)
        ∧ f.sat = (if v.getLsbD 5 then false else s.flags.sat)
        ∧ f.accErr = (if v.getLsbD 6 then false else s.flags.accErr)
        ∧ f.cmdOvr = (if v.getLsbD 7 then false else s.flags.cmdOvr))

/-- R32: CTRL. A write with bit 8 is the soft reset of `SoftResetClearsEverything`. -/
def Obligations.ControlRegister : Prop :=
  ∀ (s : State) (v : Word), s.cfg.wf = true →
    (∃ d : Word, step (s.onRead 0x00C) = .next { s with resp := some (.read d .okay) }
      ∧ d.getLsbD 0 = s.ctrl.ieDone ∧ d.getLsbD 1 = s.ctrl.ieErr ∧ d.getLsbD 2 = s.ctrl.ieWait ∧ d.toNat < 8)
    ∧ (s.phase = .reset → step (s.onWrite 0x00C v) = .next { s with resp := some (.write .okay) })
    ∧ (s.phase ≠ .reset → v.getLsbD 8 = false →
        let s' := { s with
          ctrl := ⟨v.getLsbD 0, v.getLsbD 1, v.getLsbD 2⟩
          resp := some (.write .okay) }
        (v.getLsbD 9 = false → step (s.onWrite 0x00C v) = .next s')
        ∧ (v.getLsbD 9 = true → s.phase = .idle →
            step (s.onWrite 0x00C v) = .next { s' with tokOut := [], tokIn := [] })
        ∧ (v.getLsbD 9 = true → s.phase ≠ .idle →
            step (s.onWrite 0x00C v) = .next { s' with flags := { s.flags with accErr := true } }))
    ∧ (s.phase ≠ .reset → v.getLsbD 8 = true →
        step (s.onWrite 0x00C v) = .next { softReset s with resp := some (.write .okay) })
    ∧ (softReset s).ctrl = ⟨false, false, false⟩ ∧ State.reset.ctrl = ⟨false, false, false⟩

/-- R38: TOK_OUT. -/
def Obligations.TokenOutPort : Prop :=
  ∀ (s : State) (v : Word), s.cfg.wf = true →
    (s.phase ≠ .reset →
      (∀ w rest, s.tokOut = w :: rest →
        step (s.onRead 0x01C) = .next { s with tokOut := rest, resp := some (.read w .okay) })
      ∧ (s.tokOut = [] →
        step (s.onRead 0x01C) =
          .next { s with flags := { s.flags with accErr := true }, resp := some (.read 0xFFFFFFFF .okay) }))
    ∧ (s.phase = .reset → step (s.onRead 0x01C) = .next { s with resp := some (.read 0xFFFFFFFF .okay) })
    ∧ step (s.onWrite 0x01C v) = .next { s with resp := some (.write .okay) }

/-- R39: TOK_IN. -/
def Obligations.TokenInPort : Prop :=
  ∀ (s : State) (v : Word), s.cfg.wf = true → s.tokIn.length ≤ s.cfg.tokqDepth →
    (s.phase ≠ .reset → s.tokIn.length = s.cfg.tokqDepth →
      step (s.onWrite 0x020 v) =
        .next { s with flags := { s.flags with accErr := true }, resp := some (.write .okay) })
    ∧ (s.phase ≠ .reset → s.tokIn.length ≠ s.cfg.tokqDepth →
      step (s.onWrite 0x020 v) = .next { s with tokIn := s.tokIn ++ [v], resp := some (.write .okay) })
    ∧ (s.phase = .reset → step (s.onWrite 0x020 v) = .next { s with resp := some (.write .okay) })
    ∧ step (s.onRead 0x020) = .next { s with resp := some (.read 0 .okay) }

/-- R40: TOKQ_STAT, in a state whose FIFOs hold at most TOKQ_DEPTH words (`State.Inv`). -/
def Obligations.TokenQueueStatus : Prop :=
  (∀ s : State, s.Inv → ∃ d : Word,
    step (s.onRead 0x024) = .next { s with resp := some (.read d .okay) }
    ∧ d.toNat % 65536 = s.tokOut.length ∧ d.toNat / 65536 = s.tokIn.length)
  ∧ (∀ (s : State) (v : Word), s.cfg.wf = true →
      step (s.onWrite 0x024 v) = .next { s with resp := some (.write .okay) })
  ∧ targetValue .tokqStat State.reset = 0

/-- R41, R60, R66: DC_PRED0..2. -/
def Obligations.DcPredictorAccess : Prop :=
  ∀ (s : State) (c : Chan) (v : Word), s.cfg.wf = true →
    (∃ d : Word, d.toInt = (s.prevDc.get c).toInt
      ∧ step (s.onRead (0x028 + 4 * chanNum c)) = .next { s with resp := some (.read d .okay) })
    ∧ (s.phase = .idle → ∃ x : Coef, x.toNat = v.toNat % 65536
      ∧ step (s.onWrite (0x028 + 4 * chanNum c) v) =
          .next { s with prevDc := s.prevDc.set c x, resp := some (.write .okay) })
    ∧ (s.phase ≠ .idle → s.phase ≠ .reset →
      step (s.onWrite (0x028 + 4 * chanNum c) v) =
        .next { s with flags := { s.flags with accErr := true }, resp := some (.write .okay) })
    ∧ (s.phase = .reset →
      step (s.onWrite (0x028 + 4 * chanNum c) v) = .next { s with resp := some (.write .okay) }
      ∧ (s.Inv → (s.prevDc.get c).toInt = 0))

/-- R37, R36: how ERRINFO and LASTCMD read, and that ERRINFO changes only where a command ends in error or a reset
starts. -/
def Obligations.ErrorInfoRegister : Prop :=
  (∀ s : State, s.cfg.wf = true →
    step (s.onRead 0x014) = .next { s with resp := some (.read s.lastCmd .okay) }
    ∧ ∃ d : Word, step (s.onRead 0x018) = .next { s with resp := some (.read d .okay) }
      ∧ d.toNat = s.errInfo.code.toNat + 2 ^ 8 * s.errInfo.op.toNat + 2 ^ 16 * s.errInfo.ch.toNat
          + 2 ^ 18 * s.errInfo.cursor.toNat)
  ∧ ∀ s t : State, step s = .next t → t.errInfo ≠ s.errInfo →
      (t.flags.err = true ∧ t.phase = .idle ∧ t.flags.done = s.flags.done) ∨ t.phase = .reset

/-- R42: IRQ as a function of the STATUS and CTRL words. -/
def Obligations.InterruptLine : Prop :=
  (∀ s : State,
    let st := targetValue .status s
    let ct := targetValue .ctrl s
    s.irq = ((st.getLsbD 1 && ct.getLsbD 0) || (st.getLsbD 2 && ct.getLsbD 1)
      || ((st.getLsbD 3 || st.getLsbD 4) && ct.getLsbD 2)))
  ∧ State.reset.irq = false

/-- R57, R66, R70, R201, R251: no host access but a soft reset disturbs a running command: the buffers, the
predictors, PHASE, LASTCMD and ERRINFO stay, and the FIFOs change only by one word popped or one word pushed. -/
def Obligations.HostCannotDisturbACommand : Prop :=
  ∀ (s t : State) (a : BusAccess), s.phase ≠ .idle → step (s.onBus a) = .next t →
    (∃ v : Word, a = .write (s.cfg.base + 0x00C) 32 v ∧ v.getLsbD 8 = true ∧ s.phase ≠ .reset
      ∧ t = { softReset s with resp := some (.write .okay) })
    ∨ (t.px = s.px ∧ t.rb = s.rb ∧ t.ib = s.ib ∧ t.zs = s.zs ∧ t.prevDc = s.prevDc ∧ t.phase = s.phase
      ∧ t.lastCmd = s.lastCmd ∧ t.errInfo = s.errInfo ∧ t.cfg = s.cfg ∧ t.schedule = s.schedule
      ∧ (t.tokOut = s.tokOut ∨ t.tokOut = s.tokOut.tail)
      ∧ (t.tokIn = s.tokIn ∨ ∃ v, t.tokIn = s.tokIn ++ [v]))

/-! ## Commands: result, completion and frame -/

/-- R200: NOP. -/
def Obligations.NopOnlyCompletes : Prop :=
  encode .nop = 0x00000000
  ∧ ∀ s : State, exec .nop s = .next { s with phase := .idle, flags := { s.flags with done := true } }

/-- R100: CSC_FWD, with the constants of R101 as encodings. -/
def Obligations.ColorForward : Prop :=
  encode .cscFwd = 0x00000001
  ∧ ∀ s : State, ∃ t, exec .cscFwd s = .next t
    ∧ t = { s with rb := t.rb, phase := .idle, flags := { s.flags with done := true } }
    ∧ ∀ e : Fin 64,
      let r := f64OfInt s.px[e].r.toNat
      let g := f64OfInt s.px[e].g.toNat
      let b := f64OfInt s.px[e].b.toNat
      let ofs : F64 := 0x4060000000000000
      t.rb.y[e] = f64Sub (f64Add (f64Add (f64Mul 0x3FD322D0E5604189 r) (f64Mul 0x3FE2C8B439581062 g))
          (f64Mul 0x3FBD2F1A9FBE76C9 b)) ofs
      ∧ t.rb.cb[e] = f64Sub (f64Add (f64Add (f64Add (f64Mul 0xBFC5992428D434A0 r) (f64Mul 0xBFD5336DEB95E5B0 g))
          (f64Mul 0x3FE0000000000000 b)) ofs) ofs
      ∧ t.rb.cr[e] = f64Sub (f64Add (f64Add (f64Add (f64Mul 0x3FE0000000000000 r) (f64Mul 0xBFDACBC8C0CE91C9 g))
          (f64Mul 0xBFB4D0DCFCC5B8DC b)) ofs) ofs

/-- R103, R104: CSC_INV. A sample of a finite value is `rint` clamped to [0, 255]; +∞ gives 255, −∞ and NaN give 0;
SAT is set exactly when a sample met a NaN, and never cleared. -/
def Obligations.ColorInverse : Prop :=
  encode .cscInv = 0x00000002
  ∧ ∀ s : State, ∃ t, exec .cscInv s = .next t
    ∧ t = { s with px := t.px, phase := .idle, flags := { s.flags with done := true, sat := t.flags.sat } }
    ∧ ∃ v : Fin 64 → F64 × F64 × F64,
      (∀ e : Fin 64,
        let ofs : F64 := 0x4060000000000000
        let y := f64Add s.rb.y[e] ofs
        let cbp := f64Sub (f64Add s.rb.cb[e] ofs) ofs
        let crp := f64Sub (f64Add s.rb.cr[e] ofs) ofs
        v e = (f64Add y (f64Mul 0x3FF66E978D4FDF3B crp),
          f64Sub (f64Sub y (f64Mul 0x3FD6065300581494 cbp)) (f64Mul 0x3FE6DA33BD9CAE21 crp),
          f64Add y (f64Mul 0x3FFC5A1CAC083127 cbp)))
      ∧ (∀ (e : Fin 64) (x : F64) (b : Byte),
          (x, b) ∈ [((v e).1, t.px[e].r), ((v e).2.1, t.px[e].g), ((v e).2.2, t.px[e].b)] →
          (f64IsNaN x = true → b = 0)
          ∧ (f64IsInf x = true → b = if f64Sign x then 0 else 255)
          ∧ (f64IsFinite x = true → (b.toNat : Int) = max 0 (min 255 (f64Rint s.cfg.roundTie x))))
      ∧ (t.flags.sat = true ↔ s.flags.sat = true
          ∨ ∃ e, f64IsNaN (v e).1 = true ∨ f64IsNaN (v e).2.1 = true ∨ f64IsNaN (v e).2.2 = true)

/-- R120, R121, R123, R127, R129, R130: FDCT, with the constants and the two tables as those rules print them. Under
REF64 each output that is no NaN is the accumulation of R123 and each NaN output is some NaN (free pattern, log entry 7); under ABSTRACT the block is `fdct_impl` of the 64 inputs. -/
def Obligations.ForwardTransform : Prop :=
  ∀ (c : Chan) (s : State), ∃ t, exec (.fdct c) s = .next t
    ∧ t = { s with
        rb := s.rb.set c (t.rb.get c)
        nanSeq := t.nanSeq
        phase := .idle
        flags := { s.flags with done := true } }
    ∧ (s.cfg.dctNumerics = .abstract → t.rb.get c = Config.fdctImpl (s.rb.get c))
    ∧ (s.cfg.dctNumerics = .ref64 → ∀ u v : Fin 8,
        let acc := (List.finRange 8).foldl (fun acc x => (List.finRange 8).foldl (fun acc y =>
          f64Add acc (f64Mul (f64Mul (s.rb.get c)[elemIdx x y] (cosPrinted u x)) (cosPrinted v y))) acc) 0
        let out := f64Mul (f64Mul (f64Mul 0x3FD0000000000000 (cuPrinted u)) (cuPrinted v)) acc
        (f64IsNaN out = false → (t.rb.get c)[elemIdx u v] = out)
        ∧ (f64IsNaN out = true → f64IsNaN (t.rb.get c)[elemIdx u v] = true))

/-- R120, R121, R125, R127, R129, R130: IDCT, as FDCT. -/
def Obligations.InverseTransform : Prop :=
  ∀ (c : Chan) (s : State), ∃ t, exec (.idct c) s = .next t
    ∧ t = { s with
        rb := s.rb.set c (t.rb.get c)
        nanSeq := t.nanSeq
        phase := .idle
        flags := { s.flags with done := true } }
    ∧ (s.cfg.dctNumerics = .abstract → t.rb.get c = Config.idctImpl (s.rb.get c))
    ∧ (s.cfg.dctNumerics = .ref64 → ∀ x y : Fin 8,
        let acc := (List.finRange 8).foldl (fun acc u => (List.finRange 8).foldl (fun acc v =>
          f64Add acc (f64Mul (f64Mul (f64Mul (f64Mul (cuPrinted u) (cuPrinted v)) (s.rb.get c)[elemIdx u v])
            (cosPrinted u x)) (cosPrinted v y))) acc) 0
        let out := f64Mul 0x3FD0000000000000 acc
        (f64IsNaN out = false → (t.rb.get c)[elemIdx x y] = out)
        ∧ (f64IsNaN out = true → f64IsNaN (t.rb.get c)[elemIdx x y] = true))

/-- R123, R125, R129, corner cases: under REF64 a block of zeros (either sign) gives +0.0 everywhere, and one NaN
element makes every output a NaN. -/
def Obligations.TransformOfZerosAndNaN : Prop :=
  ∀ (i : Instr) (c : Chan) (s t : State), i = .fdct c ∨ i = .idct c → s.cfg.dctNumerics = .ref64 →
    exec i s = .next t →
    ((∀ e : Fin 64, (s.rb.get c)[e] = 0 ∨ (s.rb.get c)[e] = 0x8000000000000000) →
      ∀ e : Fin 64, (t.rb.get c)[e] = 0)
    ∧ ((∃ e : Fin 64, f64IsNaN (s.rb.get c)[e] = true) → ∀ e : Fin 64, f64IsNaN (t.rb.get c)[e] = true)

/-- R127: under ABSTRACT, with the bound a model may assume as the premise, FDCT of a block of magnitude at most 2^7
is within 2^−30 of the exact transform, and IDCT of one of magnitude at most 2^11 within 2^−26. -/
def Obligations.AbstractTransformsMeetTheBound : Prop :=
  AbstractNumericsBound → ∀ (c : Chan) (s : State), s.cfg.dctNumerics = .abstract →
    (blockBoundedBy (s.rb.get c) (2 ^ 7) → ∃ t, exec (.fdct c) s = .next t
      ∧ blockWithin fdctExact (s.rb.get c) (t.rb.get c) (1 / 2 ^ 30))
    ∧ (blockBoundedBy (s.rb.get c) (2 ^ 11) → ∃ t, exec (.idct c) s = .next t
      ∧ blockWithin idctExact (s.rb.get c) (t.rb.get c) (1 / 2 ^ 26))

/-- R143, R144, R140: QUANT. q is the binary64 quotient by the channel's table entry; a finite q gives `rint` of q
saturated to int16; SAT is set exactly when a lane met a NaN, an infinity or an integer outside int16. -/
def Obligations.Quantize : Prop :=
  (∀ c, encode (.quant c) = BitVec.ofNat 32 (0x20 + 256 * chanNum c))
  ∧ ∀ (c : Chan) (s : State), ∃ t, exec (.quant c) s = .next t
    ∧ t = { s with
        ib := s.ib.set c (t.ib.get c)
        phase := .idle
        flags := { s.flags with done := true, sat := t.flags.sat } }
    ∧ ∃ q : Fin 64 → F64,
      (∀ e : Fin 64, q e = f64Div (s.rb.get c)[e]
        (f64OfInt (if c = .y then s.cfg.qtabLuma[e] else s.cfg.qtabChroma[e] : Nat)))
      ∧ (∀ e : Fin 64,
          (f64IsNaN (q e) = true → (t.ib.get c)[e].toInt = 0)
          ∧ (f64IsInf (q e) = true → (t.ib.get c)[e].toInt = if f64Sign (q e) then -32768 else 32767)
          ∧ (f64IsFinite (q e) = true →
              (t.ib.get c)[e].toInt = max (-32768) (min 32767 (f64Rint s.cfg.roundTie (q e)))))
      ∧ (t.flags.sat = true ↔ s.flags.sat = true ∨ ∃ e, f64IsFinite (q e) = false
          ∨ f64Rint s.cfg.roundTie (q e) < -32768 ∨ 32767 < f64Rint s.cfg.roundTie (q e))

/-- R145: DEQUANT. Each element is finite, its value is exactly the integer product, and a zero is +0.0. -/
def Obligations.DequantizeIsExact : Prop :=
  (∀ c, encode (.dequant c) = BitVec.ofNat 32 (0x21 + 256 * chanNum c))
  ∧ ∀ (c : Chan) (s : State), s.cfg.wf = true → ∃ t, exec (.dequant c) s = .next t
    ∧ t = { s with
        rb := s.rb.set c (t.rb.get c)
        phase := .idle
        flags := { s.flags with done := true } }
    ∧ ∀ e : Fin 64,
      let prod : Int := (s.ib.get c)[e].toInt * (if c = .y then s.cfg.qtabLuma[e] else s.cfg.qtabChroma[e] : Nat)
      f64IsFinite (t.rb.get c)[e] = true ∧ f64Val (t.rb.get c)[e] = prod * 2 ^ 1074
      ∧ (prod = 0 → (t.rb.get c)[e] = 0)

/-- R162: ZZ_FLAT. -/
def Obligations.ZigzagFlatten : Prop :=
  (∀ c, encode (.zzFlat c) = BitVec.ofNat 32 (0x30 + 256 * chanNum c))
  ∧ ∀ (c : Chan) (s : State), ∃ z : Block Coef,
    exec (.zzFlat c) s =
      .next { s with zs := s.zs.set c z, phase := .idle, flags := { s.flags with done := true } }
    ∧ ∀ i : Fin 64, z[i] = (s.ib.get c)[s.cfg.zz[i]]

/-- R163: ZZ_UNFLAT. -/
def Obligations.ZigzagUnflatten : Prop :=
  (∀ c, encode (.zzUnflat c) = BitVec.ofNat 32 (0x31 + 256 * chanNum c))
  ∧ ∀ (c : Chan) (s : State), s.cfg.wf = true → ∃ b : Block Coef,
    exec (.zzUnflat c) s =
      .next { s with ib := s.ib.set c b, phase := .idle, flags := { s.flags with done := true } }
    ∧ ∀ i : Fin 64, b[s.cfg.zz[i]] = (s.zs.get c)[i]

/-- R164: ZZ_FLAT then ZZ_UNFLAT leaves IB[c] unchanged, and ZZ_UNFLAT then ZZ_FLAT leaves ZS[c] unchanged. -/
def Obligations.ZigzagRoundTrips : Prop :=
  ∀ (c : Chan) (s : State), s.cfg.wf = true →
    (∃ t u, exec (.zzFlat c) s = .next t ∧ exec (.zzUnflat c) t = .next u ∧ u.ib = s.ib)
    ∧ ∃ t u, exec (.zzUnflat c) s = .next t ∧ exec (.zzFlat c) t = .next u ∧ u.zs = s.zs

/-- R172, R203: ENT_ENC's start step. -/
def Obligations.EncodeStarts : Prop :=
  (∀ c, encode (.entEnc c) = BitVec.ofNat 32 (0x40 + 256 * chanNum c))
  ∧ ∀ (c : Chan) (s : State),
    exec (.entEnc c) s = .next { s with
      phase := .enc c (encTokens (s.prevDc.get c) (s.zs.get c)) (s.zs.get c)[(0 : Fin 64)] }

/-- R180, R203: ENT_DEC's start step. -/
def Obligations.DecodeStarts : Prop :=
  (∀ c, encode (.entDec c) = BitVec.ofNat 32 (0x41 + 256 * chanNum c))
  ∧ ∀ (c : Chan) (s : State), ∃ z : Block Coef,
    exec (.entDec c) s = .next { s with zs := s.zs.set c z, phase := .dec c .dc 1 0 }
    ∧ ∀ i : Fin 64, z[i] = 0

/-- R188: DC_RESET. -/
def Obligations.DcResetZeroesPredictors : Prop :=
  encode .dcReset = 0x00000042
  ∧ ∀ s : State, ∃ p : PerChan Coef,
    exec .dcReset s = .next { s with prevDc := p, phase := .idle, flags := { s.flags with done := true } }
    ∧ ∀ c, (p.get c).toInt = 0

/-- R207: byte by byte, a command's step changes no byte of the aperture but STATUS's and those of its written
operand. -/
def Obligations.OnlyOperandBytesChange : Prop :=
  ∀ (i : Instr) (s t : State) (off : Nat), exec i s = .next t → off < 0x2000 → ¬ inStatus off →
    ¬ writtenBytes i off → readByte t off = readByte s off

/-- R207: what a command's own step writes depends only on what it reads; DONE and SAT, which it writes or leaves, depend
on that and on their own values before. -/
def Obligations.ResultDependsOnlyOnOperands : Prop :=
  ∀ (i : Instr) (s s' t t' : State), readsAgree i s s' → exec i s = .next t → exec i s' = .next t' →
    writesAgree i t t'
    ∧ (s.flags.sat = s'.flags.sat → t.flags.sat = t'.flags.sat)
    ∧ (s.flags.done = s'.flags.done → t.flags.done = t'.flags.done)

/-- R43: STATUS.SAT is set by QUANT and CSC_INV only. -/
def Obligations.SaturationComesFromQuantOrCscInv : Prop :=
  ∀ s t : State, step s = .next t → s.flags.sat = false → t.flags.sat = true →
    ∃ w, s.phase = .exec w ∧ (w = 0x00000002 ∨ ∃ c, w = encode (.quant c))

/-- R27, R189: the only steps that change a predictor: the last steps of ENT_ENC and ENT_DEC, DC_RESET, a DC_PRED
write while idle, and the start of a reset. -/
def Obligations.PredictorWriters : Prop :=
  ∀ (s t : State) (c : Chan), step s = .next t → t.prevDc.get c ≠ s.prevDc.get c →
    (∃ d, s.phase = .enc c [] d ∧ t.prevDc.get c = d ∧ t.flags.done = true ∧ t.phase = .idle)
    ∨ (∃ k d, s.phase = .dec c .ac k d ∧ t.prevDc.get c = d ∧ t.flags.done = true ∧ t.phase = .idle)
    ∨ (s.phase = .exec 0x00000042 ∧ t.prevDc.get c = 0)
    ∨ (∃ v rest, s.schedule = .host (.write (s.cfg.base + 0x028 + 4 * chanNum c) 32 v) :: rest
        ∧ s.phase = .idle ∧ t.prevDc.get c = v.setWidth 16)
    ∨ (t.phase = .reset ∧ t.prevDc.get c = 0)

/-! ## Arithmetic -/

/-- R16: `rint` is the integer nearest the value; at an exact half the one farther from zero, or the even one. -/
def Obligations.RintIsNearest : Prop :=
  ∀ (tie : RoundTie) (x : F64), f64IsFinite x = true →
    let i := f64Rint tie x
    (∀ j : Int, |i * 2 ^ 1074 - f64Val x| ≤ |j * 2 ^ 1074 - f64Val x|)
    ∧ ∀ j : Int, j ≠ i → |i * 2 ^ 1074 - f64Val x| = |j * 2 ^ 1074 - f64Val x| →
        (tie = .halfAway → |j| < |i|) ∧ (tie = .halfEven → i % 2 = 0)

/-- R13, R129: the four binary64 operations on every pair of operands. On finite ones the result is the exact one rounded
to nearest, ties to an even significand, overflowing to the infinity of its sign, and no NaN (`roundsTo` of
Sys2Proof/Safety.lean says this in integers); an exact zero has the sign IEEE 754 gives it; a finite value over zero,
infinite operands and NaN operands give what IEEE 754 says. -/
def Obligations.ArithmeticRoundsToNearestEven : Prop :=
  ∀ x y : F64,
    let sx := f64Sign x
    let sy := f64Sign y
    -- finite operands, the rounding
    (f64IsFinite x = true → f64IsFinite y = true →
      roundsTo (f64Add x y) 1 (f64Val x + f64Val y)
      ∧ roundsTo (f64Sub x y) 1 (f64Val x - f64Val y)
      ∧ roundsTo (f64Mul x y) (2 ^ 1074) (f64Val x * f64Val y)
      ∧ (f64Val y ≠ 0 → roundsTo (f64Div x y) (f64Val y) (f64Val x * 2 ^ 1074)))
    -- finite operands, an exact zero or a zero divisor
    ∧ (f64IsFinite x = true → f64IsFinite y = true →
      (f64Val x + f64Val y = 0 → f64Add x y = signedZero (sx && sy))
      ∧ (f64Val x - f64Val y = 0 → f64Sub x y = signedZero (sx && !sy))
      ∧ (f64Val x = 0 ∨ f64Val y = 0 → f64Mul x y = signedZero (sx != sy))
      ∧ (f64Val x = 0 → f64Val y ≠ 0 → f64Div x y = signedZero (sx != sy))
      ∧ (f64Val x ≠ 0 → f64Val y = 0 → f64Div x y = signedInf (sx != sy))
      ∧ (f64Val x = 0 → f64Val y = 0 → f64IsNaN (f64Div x y) = true))
    -- infinite operands
    ∧ (f64IsInf x = true → f64IsInf y = true →
      (sx = sy → f64Add x y = signedInf sx ∧ f64IsNaN (f64Sub x y) = true)
      ∧ (sx ≠ sy → f64IsNaN (f64Add x y) = true ∧ f64Sub x y = signedInf sx)
      ∧ f64Mul x y = signedInf (sx != sy) ∧ f64IsNaN (f64Div x y) = true)
    ∧ (f64IsInf x = true → f64IsFinite y = true →
      f64Add x y = signedInf sx ∧ f64Sub x y = signedInf sx
      ∧ (f64Val y = 0 → f64IsNaN (f64Mul x y) = true) ∧ (f64Val y ≠ 0 → f64Mul x y = signedInf (sx != sy))
      ∧ f64Div x y = signedInf (sx != sy))
    ∧ (f64IsFinite x = true → f64IsInf y = true →
      f64Add x y = signedInf sy ∧ f64Sub x y = signedInf (!sy)
      ∧ (f64Val x = 0 → f64IsNaN (f64Mul x y) = true) ∧ (f64Val x ≠ 0 → f64Mul x y = signedInf (sx != sy))
      ∧ f64Div x y = signedZero (sx != sy))
    -- NaN operands
    ∧ (f64IsNaN x = true ∨ f64IsNaN y = true →
      f64IsNaN (f64Add x y) = true ∧ f64IsNaN (f64Sub x y) = true
      ∧ f64IsNaN (f64Mul x y) = true ∧ f64IsNaN (f64Div x y) = true)

/-! ## Token streams -/

/-- R175, R176: the shape of an ENT_ENC stream: 2 to 65 words; a DC token, then at most 63 AC tokens with no reserved
bit set, at most 3 of them ZRL, none (r, 0) with r in 1..14, and after them the EOB, the only one; a ZRL is never the
last before it, so a value token follows every run of ZRLs. -/
def Obligations.EncodedStreamShape : Prop :=
  ∀ (prev : Coef) (z : Block Coef), ∃ (dc : Word) (acs : List Word),
    encTokens prev z = dc :: acs ++ [0x40000000]
    ∧ 2 ≤ (encTokens prev z).length ∧ (encTokens prev z).length ≤ 65
    ∧ dc.toNat < 2 ^ 24 ∧ -65535 ≤ (dc.extractLsb' 0 24).toInt ∧ (dc.extractLsb' 0 24).toInt ≤ 65535
    ∧ acs.length ≤ 63 ∧ (acs.filter fun w => w = 0x400F0000).length ≤ 3
    ∧ ∀ w ∈ acs, w.toNat / 2 ^ 20 = 0x400 ∧ w ≠ 0x40000000
        ∧ (w.toNat % 65536 = 0 → w = 0x400F0000 ∧ acs.getLast? ≠ some w)

/-- R173, R174: the push step, the hold, and the final step of ENT_ENC. R173 says the held engine has no step; that a turn
in the hold is a step which changes nothing is the model's choice (DESIGN CHOICE, log entry 5). -/
def Obligations.EncodePushHoldAndEnd : Prop :=
  ∀ (s : State) (c : Chan) (d : Coef), s.cfg.wf = true → s.tokOut.length ≤ s.cfg.tokqDepth →
    (∀ w rest, s.phase = .enc c (w :: rest) d → s.tokOut.length < s.cfg.tokqDepth →
      step s.onEngine = .next { s with tokOut := s.tokOut ++ [w], phase := .enc c rest d })
    ∧ (∀ w rest, s.phase = .enc c (w :: rest) d → s.tokOut.length = s.cfg.tokqDepth →
      step s.onEngine = .next s ∧ s.waitOut = true)
    ∧ (s.phase = .enc c [] d →
      step s.onEngine = .next { s with
        prevDc := s.prevDc.set c d, phase := .idle, flags := { s.flags with done := true } })

/-- R172 to R174, R206, R262: with room for the stream, an accepted ENT_ENC with its n tokens ends after exactly
1 + n + 1 engine steps (after fewer it is still running): the words in TOKQ_OUT in order, PREV_DC[c] the sequence's DC, DONE, nothing else. -/
def Obligations.EncodeRunsToCompletion : Prop :=
  ∀ (s : State) (c : Chan), s.cfg.wf = true → s.schedule = [] → s.phase = .exec (encode (.entEnc c)) →
    let toks := encTokens (s.prevDc.get c) (s.zs.get c)
    s.tokOut.length + toks.length ≤ s.cfg.tokqDepth →
    Host.Core.run Sys2Proof.core (1 + toks.length + 1) s = .next { s with
      tokOut := s.tokOut ++ toks
      prevDc := s.prevDc.set c (s.zs.get c)[(0 : Fin 64)]
      phase := .idle
      flags := { s.flags with done := true } }
    ∧ ∀ m < 1 + toks.length + 1, ∃ t, Host.Core.run Sys2Proof.core m s = .next t ∧ t.phase ≠ .idle

/-- R181: the token check of ENT_DEC. The failing word is consumed; ERRINFO as R222 and R220 say. -/
def Obligations.DecodeTokenCheck : Prop :=
  ∀ (s : State) (c : Chan) (stage : Stage) (k : Nat) (dc : Coef) (w : Word) (rest : List Word),
    s.cfg.wf = true → s.phase = .dec c stage k dc → k ≤ 64 → s.tokIn = w :: rest →
    let kind := w.toNat / 2 ^ 30
    let failed (code : BitVec 8) (cursor : Nat) : Prop :=
      ∃ i : ErrInfo, i.code = code ∧ i.op = 0x41 ∧ i.ch.toNat = chanNum c ∧ i.cursor.toNat = cursor
        ∧ step s.onEngine = .next { s with
            tokIn := rest, errInfo := i, phase := .idle, flags := { s.flags with err := true } }
    (stage = .dc → kind ≠ 0 → failed 0x10 0)
    ∧ (stage = .dc → kind = 0 → w.toNat / 2 ^ 24 % 64 ≠ 0 → failed 0x13 0)
    ∧ (stage = .ac → kind ≠ 1 → failed 0x10 k)
    ∧ (stage = .ac → kind = 1 → w.toNat / 2 ^ 20 % 1024 ≠ 0 → failed 0x13 k)

/-- R182: the DC stage, for a word that passes R181. -/
def Obligations.DecodeDcStage : Prop :=
  ∀ (s : State) (c : Chan) (k : Nat) (d0 : Coef) (w : Word) (rest : List Word),
    s.cfg.wf = true → s.phase = .dec c .dc k d0 → s.tokIn = w :: rest → w.toNat < 2 ^ 24 →
    let dc := (s.prevDc.get c).toInt + (w.extractLsb' 0 24).toInt
    (-32768 ≤ dc → dc ≤ 32767 → ∃ x : Coef, x.toInt = dc
      ∧ step s.onEngine = .next { s with
          tokIn := rest, zs := s.zs.set c ((s.zs.get c).set 0 x), phase := .dec c .ac 1 x })
    ∧ (dc < -32768 ∨ 32767 < dc → ∃ i : ErrInfo, i.code = 0x12 ∧ i.op = 0x41 ∧ i.ch.toNat = chanNum c ∧ i.cursor = 0
      ∧ step s.onEngine = .next { s with
          tokIn := rest, errInfo := i, phase := .idle, flags := { s.flags with err := true } })

/-- R183, R185: the AC stage, for a word (r, v) that passes R181: EOB, overrun, or r zeros and then v. -/
def Obligations.DecodeAcStage : Prop :=
  ∀ (s : State) (c : Chan) (k : Nat) (dc : Coef) (r : Nat) (v : Coef) (w : Word) (rest : List Word),
    s.cfg.wf = true → s.phase = .dec c .ac k dc → 1 ≤ k → k ≤ 64 → s.tokIn = w :: rest → r ≤ 15 →
    w.toNat = 2 ^ 30 + 2 ^ 16 * r + v.toNat →
    (r = 0 → v = 0 →
      step s.onEngine = .next { s with
        tokIn := rest, prevDc := s.prevDc.set c dc, phase := .idle, flags := { s.flags with done := true } })
    ∧ (¬ (r = 0 ∧ v = 0) → 63 < k + r →
      ∃ i : ErrInfo, i.code = 0x11 ∧ i.op = 0x41 ∧ i.ch.toNat = chanNum c ∧ i.cursor.toNat = k
        ∧ step s.onEngine = .next { s with
            tokIn := rest, errInfo := i, phase := .idle, flags := { s.flags with err := true } })
    ∧ (¬ (r = 0 ∧ v = 0) → k + r ≤ 63 →
      ∃ z : Block Coef,
        step s.onEngine = .next { s with
          tokIn := rest, zs := s.zs.set c z, phase := .dec c .ac (k + r + 1) dc }
        ∧ ∀ j : Fin 64, z[j] =
            if j.val = k + r then v else if k ≤ j.val ∧ j.val < k + r then 0 else (s.zs.get c)[j])

/-- R187: the words one ENT_ENC c pushes into an empty TOKQ_OUT, given to an ENT_DEC c with the same predictor, decode
without error to the same sequence, with PREV_DC[c] = ZS[c][0] after each; the encoder has ended after 1 + n + 1 steps, the decoder after 1 + n. -/
def Obligations.EntropyRoundTrip : Prop :=
  ∀ (s d : State) (c : Chan),
    s.cfg.wf = true → s.schedule = [] → s.phase = .exec (encode (.entEnc c)) → s.tokOut = [] →
    d.cfg.wf = true → d.schedule = [] → d.phase = .exec (encode (.entDec c)) →
    d.prevDc.get c = s.prevDc.get c →
    ∃ (n : Nat) (t : State), Host.Core.run Sys2Proof.core (1 + n + 1) s = .next t
      ∧ t.phase = .idle ∧ t.flags.done = true ∧ t.flags.err = s.flags.err ∧ t.tokOut.length = n
      ∧ t.zs = s.zs ∧ t.prevDc.get c = (s.zs.get c)[(0 : Fin 64)]
      ∧ ∀ rest, d.tokIn = t.tokOut ++ rest →
        Host.Core.run Sys2Proof.core (1 + n) d = .next { d with
          zs := d.zs.set c (s.zs.get c)
          prevDc := d.prevDc.set c (s.zs.get c)[(0 : Fin 64)]
          tokIn := rest
          phase := .idle
          flags := { d.flags with done := true } }

/-! ## The invariant -/

/-- `State.Inv` holds after power-on (R250). -/
def Obligations.PowerOnMeetsTheInvariant : Prop := State.reset.Inv

/-- Every step keeps `State.Inv` (R28, R29, R57, R201, R220, R222, R250). -/
def Obligations.EveryStepKeepsTheInvariant : Prop := ∀ s t : State, s.Inv → step s = .next t → t.Inv

/-- No step changes the parameters (R20: configuration, not state; log entry 2). -/
def Obligations.ParametersNeverChange : Prop := ∀ s t : State, step s = .next t → t.cfg = s.cfg
end

