-- ==== Sys2Proof/Laws/State.lean ====
section
/-! SUPPORT. What each named update does to each field of State, true by rfl and tagged @[simp] (one theorem an update;
simp reads it as one rewrite rule a field), and the laws of `PerChan`, `tabulate` and the flag setters. -/

namespace Sys2Proof.Machine

@[simp] theorem complete_fields (s : State) :
    (complete s).cfg = s.cfg ∧
    (complete s).px = s.px ∧
    (complete s).rb = s.rb ∧
    (complete s).ib = s.ib ∧
    (complete s).zs = s.zs ∧
    (complete s).prevDc = s.prevDc ∧
    (complete s).tokOut = s.tokOut ∧
    (complete s).tokIn = s.tokIn ∧
    (complete s).ctrl = s.ctrl ∧
    (complete s).flags = s.flags.setDone ∧
    (complete s).lastCmd = s.lastCmd ∧
    (complete s).errInfo = s.errInfo ∧
    (complete s).phase = .idle ∧
    (complete s).schedule = s.schedule ∧
    (complete s).resp = s.resp ∧
    (complete s).nanSeq = s.nanSeq := by
  refine ⟨rfl, rfl, rfl, rfl, rfl, rfl, rfl, rfl, rfl, rfl, rfl, rfl, rfl, rfl, rfl, rfl⟩

@[simp] theorem raiseError_fields (e : CmdError) (w : Word) (k : Nat) (s : State) :
    (raiseError e w k s).cfg = s.cfg ∧
    (raiseError e w k s).px = s.px ∧
    (raiseError e w k s).rb = s.rb ∧
    (raiseError e w k s).ib = s.ib ∧
    (raiseError e w k s).zs = s.zs ∧
    (raiseError e w k s).prevDc = s.prevDc ∧
    (raiseError e w k s).tokOut = s.tokOut ∧
    (raiseError e w k s).tokIn = s.tokIn ∧
    (raiseError e w k s).ctrl = s.ctrl ∧
    (raiseError e w k s).flags = s.flags.setErr ∧
    (raiseError e w k s).lastCmd = s.lastCmd ∧
    (raiseError e w k s).errInfo = ⟨e.code, opField w, chField w, BitVec.ofNat 7 k⟩ ∧
    (raiseError e w k s).phase = .idle ∧
    (raiseError e w k s).schedule = s.schedule ∧
    (raiseError e w k s).resp = s.resp ∧
    (raiseError e w k s).nanSeq = s.nanSeq := by
  refine ⟨rfl, rfl, rfl, rfl, rfl, rfl, rfl, rfl, rfl, rfl, rfl, rfl, rfl, rfl, rfl, rfl⟩

@[simp] theorem setAccErr_fields (s : State) :
    (setAccErr s).cfg = s.cfg ∧
    (setAccErr s).px = s.px ∧
    (setAccErr s).rb = s.rb ∧
    (setAccErr s).ib = s.ib ∧
    (setAccErr s).zs = s.zs ∧
    (setAccErr s).prevDc = s.prevDc ∧
    (setAccErr s).tokOut = s.tokOut ∧
    (setAccErr s).tokIn = s.tokIn ∧
    (setAccErr s).ctrl = s.ctrl ∧
    (setAccErr s).flags = s.flags.setAccErr ∧
    (setAccErr s).lastCmd = s.lastCmd ∧
    (setAccErr s).errInfo = s.errInfo ∧
    (setAccErr s).phase = s.phase ∧
    (setAccErr s).schedule = s.schedule ∧
    (setAccErr s).resp = s.resp ∧
    (setAccErr s).nanSeq = s.nanSeq := by
  refine ⟨rfl, rfl, rfl, rfl, rfl, rfl, rfl, rfl, rfl, rfl, rfl, rfl, rfl, rfl, rfl, rfl⟩

@[simp] theorem clearStatus_fields (v : Word) (s : State) :
    (clearStatus v s).cfg = s.cfg ∧
    (clearStatus v s).px = s.px ∧
    (clearStatus v s).rb = s.rb ∧
    (clearStatus v s).ib = s.ib ∧
    (clearStatus v s).zs = s.zs ∧
    (clearStatus v s).prevDc = s.prevDc ∧
    (clearStatus v s).tokOut = s.tokOut ∧
    (clearStatus v s).tokIn = s.tokIn ∧
    (clearStatus v s).ctrl = s.ctrl ∧
    (clearStatus v s).flags = s.flags.w1c v ∧
    (clearStatus v s).lastCmd = s.lastCmd ∧
    (clearStatus v s).errInfo = s.errInfo ∧
    (clearStatus v s).phase = s.phase ∧
    (clearStatus v s).schedule = s.schedule ∧
    (clearStatus v s).resp = s.resp ∧
    (clearStatus v s).nanSeq = s.nanSeq := by
  refine ⟨rfl, rfl, rfl, rfl, rfl, rfl, rfl, rfl, rfl, rfl, rfl, rfl, rfl, rfl, rfl, rfl⟩

@[simp] theorem resetStep_fields (s : State) :
    (resetStep s).cfg = s.cfg ∧
    (resetStep s).px = s.px ∧
    (resetStep s).rb = s.rb ∧
    (resetStep s).ib = s.ib ∧
    (resetStep s).zs = s.zs ∧
    (resetStep s).prevDc = s.prevDc ∧
    (resetStep s).tokOut = s.tokOut ∧
    (resetStep s).tokIn = s.tokIn ∧
    (resetStep s).ctrl = s.ctrl ∧
    (resetStep s).flags = s.flags ∧
    (resetStep s).lastCmd = s.lastCmd ∧
    (resetStep s).errInfo = s.errInfo ∧
    (resetStep s).phase = .idle ∧
    (resetStep s).schedule = s.schedule ∧
    (resetStep s).resp = s.resp ∧
    (resetStep s).nanSeq = s.nanSeq := by
  refine ⟨rfl, rfl, rfl, rfl, rfl, rfl, rfl, rfl, rfl, rfl, rfl, rfl, rfl, rfl, rfl, rfl⟩

@[simp] theorem softReset_fields (s : State) :
    (softReset s).cfg = s.cfg ∧
    (softReset s).px = (State.powerOn s.cfg).px ∧
    (softReset s).rb = (State.powerOn s.cfg).rb ∧
    (softReset s).ib = (State.powerOn s.cfg).ib ∧
    (softReset s).zs = (State.powerOn s.cfg).zs ∧
    (softReset s).prevDc = (State.powerOn s.cfg).prevDc ∧
    (softReset s).tokOut = (State.powerOn s.cfg).tokOut ∧
    (softReset s).tokIn = (State.powerOn s.cfg).tokIn ∧
    (softReset s).ctrl = (State.powerOn s.cfg).ctrl ∧
    (softReset s).flags = (State.powerOn s.cfg).flags ∧
    (softReset s).lastCmd = (State.powerOn s.cfg).lastCmd ∧
    (softReset s).errInfo = (State.powerOn s.cfg).errInfo ∧
    (softReset s).phase = .reset ∧
    (softReset s).schedule = s.schedule ∧
    (softReset s).resp = s.resp ∧
    (softReset s).nanSeq = s.nanSeq := by
  refine ⟨rfl, rfl, rfl, rfl, rfl, rfl, rfl, rfl, rfl, rfl, rfl, rfl, rfl, rfl, rfl, rfl⟩

@[simp] theorem Flags.setDone_fields (f : Flags) :
    f.setDone.done = true ∧ f.setDone.err = f.err ∧ f.setDone.sat = f.sat ∧
      f.setDone.accErr = f.accErr ∧ f.setDone.cmdOvr = f.cmdOvr := ⟨rfl, rfl, rfl, rfl, rfl⟩

@[simp] theorem Flags.setErr_fields (f : Flags) :
    f.setErr.done = f.done ∧ f.setErr.err = true ∧ f.setErr.sat = f.sat ∧
      f.setErr.accErr = f.accErr ∧ f.setErr.cmdOvr = f.cmdOvr := ⟨rfl, rfl, rfl, rfl, rfl⟩

@[simp] theorem Flags.setAccErr_fields (f : Flags) :
    f.setAccErr.done = f.done ∧ f.setAccErr.err = f.err ∧ f.setAccErr.sat = f.sat ∧
      f.setAccErr.accErr = true ∧ f.setAccErr.cmdOvr = f.cmdOvr := ⟨rfl, rfl, rfl, rfl, rfl⟩

@[simp] theorem Flags.setCmdOvr_fields (f : Flags) :
    f.setCmdOvr.done = f.done ∧ f.setCmdOvr.err = f.err ∧ f.setCmdOvr.sat = f.sat ∧
      f.setCmdOvr.accErr = f.accErr ∧ f.setCmdOvr.cmdOvr = true := ⟨rfl, rfl, rfl, rfl, rfl⟩

@[simp] theorem Flags.orSat_fields (f : Flags) (b : Bool) :
    (f.orSat b).done = f.done ∧ (f.orSat b).err = f.err ∧ (f.orSat b).sat = (f.sat || b) ∧
      (f.orSat b).accErr = f.accErr ∧ (f.orSat b).cmdOvr = f.cmdOvr := ⟨rfl, rfl, rfl, rfl, rfl⟩

@[simp] theorem PerChan.get_set_self {α : Type} (p : PerChan α) (c : Chan) (v : α) : (p.set c v).get c = v := by
  cases c <;> rfl

theorem PerChan.get_set_ne {α : Type} (p : PerChan α) {c d : Chan} (v : α) (h : d ≠ c) :
    (p.set c v).get d = p.get d := by
  cases c <;> cases d <;> first | rfl | exact absurd rfl h

theorem PerChan.get_set {α : Type} (p : PerChan α) (c d : Chan) (v : α) :
    (p.set c v).get d = if d = c then v else p.get d := by
  cases c <;> cases d <;> rfl

@[simp] theorem PerChan.set_get {α : Type} (p : PerChan α) (c : Chan) : p.set c (p.get c) = p := by
  cases c <;> rfl

@[simp] theorem PerChan.set_set {α : Type} (p : PerChan α) (c : Chan) (v w : α) : (p.set c v).set c w = p.set c w := by
  cases c <;> rfl

theorem PerChan.ext_get {α : Type} {p q : PerChan α} (h : ∀ c, p.get c = q.get c) : p = q := by
  have hy := h .y
  have hb := h .cb
  have hr := h .cr
  cases p
  cases q
  simp_all [PerChan.get]

@[simp] theorem getElem_tabulate {α : Type} {n : Nat} (f : Fin n → α) (i : Nat) (h : i < n) :
    (tabulate f)[i] = f ⟨i, h⟩ := by
  simp [tabulate]

@[simp] theorem fin_getElem_tabulate {α : Type} {n : Nat} (f : Fin n → α) (e : Fin n) : (tabulate f)[e] = f e := by
  simp [tabulate]

/-- Two blocks that agree at every element are equal. -/
theorem block_ext {α : Type} {a b : Block α} (h : ∀ e : Fin 64, a[e] = b[e]) : a = b := by
  apply Vector.ext
  intro i hi
  exact h ⟨i, hi⟩

theorem getElem_powerOn_rb (p : Params) (c : Chan) (e : Fin 64) : ((State.powerOn p).rb.get c)[e] = 0 := by
  cases c <;> simp [State.powerOn, PerChan.get]

theorem getElem_powerOn_ib (p : Params) (c : Chan) (e : Fin 64) : ((State.powerOn p).ib.get c)[e] = 0 := by
  cases c <;> simp [State.powerOn, PerChan.get]

theorem getElem_powerOn_zs (p : Params) (c : Chan) (e : Fin 64) : ((State.powerOn p).zs.get c)[e] = 0 := by
  cases c <;> simp [State.powerOn, PerChan.get]

theorem getElem_powerOn_px (p : Params) (e : Fin 64) : (State.powerOn p).px[e] = ⟨0, 0, 0⟩ := by
  simp [State.powerOn]

end Sys2Proof.Machine
end

