-- ==== Sys2Proof/Laws/Decode.lean ====
section
/-! SUPPORT. The fields of a command word, of an encoded command, and what decoding to a command says about them. -/

namespace Sys2Proof.Machine

theorem word_toNat_fields (w : Word) :
    w.toNat = (opField w).toNat + 2 ^ 8 * (chField w).toNat + 2 ^ 10 * (rsvField w).toNat := by
  simp only [opField, chField, rsvField, BitVec.extractLsb'_toNat, Nat.shiftRight_eq_div_pow]
  have := w.isLt
  omega

theorem word_ext_fields {a b : Word} (h1 : opField a = opField b) (h2 : chField a = chField b)
    (h3 : rsvField a = rsvField b) : a = b := by
  apply BitVec.eq_of_toNat_eq
  rw [word_toNat_fields a, word_toNat_fields b, h1, h2, h3]

@[simp] theorem opField_encode (i : Instr) : opField (encode i) = i.op := by
  apply BitVec.eq_of_toNat_eq
  have := i.op.isLt; have := i.ch.isLt
  simp only [opField, encode, BitVec.extractLsb'_toNat, BitVec.toNat_ofNat, Nat.shiftRight_eq_div_pow]
  omega

@[simp] theorem chField_encode (i : Instr) : chField (encode i) = i.ch := by
  apply BitVec.eq_of_toNat_eq
  have := i.op.isLt; have := i.ch.isLt
  simp only [chField, encode, BitVec.extractLsb'_toNat, BitVec.toNat_ofNat, Nat.shiftRight_eq_div_pow]
  omega

@[simp] theorem rsvField_encode (i : Instr) : rsvField (encode i) = 0 := by
  apply BitVec.eq_of_toNat_eq
  rw [show (0 : BitVec 22).toNat = 0 from rfl]
  have := i.op.isLt; have := i.ch.isLt
  simp only [rsvField, encode, BitVec.extractLsb'_toNat, BitVec.toNat_ofNat, Nat.shiftRight_eq_div_pow]
  omega

theorem chan_ofBits_eq_some (b : BitVec 2) (c : Chan) : Chan.ofBits b = some c ↔ b = c.bits := by
  cases c <;> revert b <;> decide

theorem opRow_some {op : BitVec 8} {row : OpRow} (h : opRow op = some row) :
    match row with
    | .noChannel i => i.op = op ∧ i.ch = 0
    | .channel f => ∀ c, (f c).op = op ∧ (f c).ch = c.bits := by
  unfold opRow at h
  split at h <;> first | (cases h; done) | skip
  all_goals
    rename_i e
    cases h
    have : op = BitVec.ofNat 8 op.toNat := by simp
    rw [e] at this; subst this
    simp [Instr.op, Instr.ch]

theorem fields_of_decode_ok {w : Word} {i : Instr} (h : decode w = .ok i) :
    opField w = i.op ∧ chField w = i.ch ∧ rsvField w = 0 := by
  unfold decode at h
  split at h
  · cases h
  · rename_i row hr
    have := opRow_some hr
    split at h
    · cases h
    · rename_i hz
      simp only [ne_eq, not_not] at hz
      split at h
      · rename_i j
        split at h
        · cases h
        · rename_i hc; simp only [ne_eq, not_not] at hc; cases h; simp_all
      · rename_i f
        split at h
        · cases h
        · rename_i c hc; cases h; rw [chan_ofBits_eq_some] at hc; simp_all

end Sys2Proof.Machine
end

