-- ==== Sys2Proof/Laws/Operands.lean ====
section
/-! SUPPORT. The aperture map read backwards (R52): the word index at which each target stands. -/

namespace Sys2Proof.Machine

/-- The word index of a target, offset / 4 (R30, R52); the reserved words have none, and get 0 here. -/
def Target.word : Target → Nat
  | .id => 0
  | .version => 1
  | .cfg => 2
  | .ctrl => 3
  | .status => 4
  | .cmd => 5
  | .errInfo => 6
  | .tokOut => 7
  | .tokIn => 8
  | .tokqStat => 9
  | .dcPred c => 10 + chanNum c
  | .px e => 64 + e.val
  | .qtLuma e => 128 + e.val
  | .qtChroma e => 192 + e.val
  | .ib c e => 256 + 64 * chanNum c + e.val
  | .zs c e => 512 + 64 * chanNum c + e.val
  | .rb c e upper => 1024 + 128 * chanNum c + 2 * e.val + upper.toNat
  | .reserved => 0

theorem chanNum_lt (c : Chan) : chanNum c < 3 := by cases c <;> decide

theorem chanNum_eq_bits (c : Chan) : c.bits.toNat = chanNum c := by cases c <;> rfl

theorem regTarget_word {w : Nat} (h : regTarget w ≠ .reserved) : w = (regTarget w).word := by
  unfold regTarget at *
  split at h <;> first | rfl | exact absurd rfl h

/-- What stands at an offset stands at that word only. -/
theorem targetOf_word {off : Nat} (h : targetOf off ≠ .reserved) : off / 4 = (targetOf off).word := by
  unfold targetOf at *
  split at h
  case h_1 => exact regTarget_word h
  all_goals first | exact absurd rfl h | skip
  all_goals
    simp only [Target.word, chanNum]
    first
    | omega
    | (by_cases hu : off / 4 % 2 = 1
       · simp only [hu, beq_self_eq_true, Bool.toNat_true]
         omega
       · have h0 : off / 4 % 2 = 0 := by omega
         simp [h0]
         omega)

theorem targetOf_reg {off : Nat} (h : off < 0x100) : targetOf off = regTarget (off / 4) := by
  have hp : off / 0x100 = 0 := by omega
  simp only [targetOf, hp]

/-- The target whose word an offset lies in. -/
theorem targetOf_eq {off : Nat} {t : Target} (ht : t ≠ .reserved) (h : off / 4 = t.word) : targetOf off = t := by
  cases t with
  | reserved => exact absurd rfl ht
  | id | version | cfg | ctrl | status | cmd | errInfo | tokOut | tokIn | tokqStat =>
    simp only [Target.word] at h
    rw [targetOf_reg (by omega), h]
    rfl
  | dcPred c =>
    cases c <;> simp only [Target.word, chanNum] at h <;> rw [targetOf_reg (by omega), h] <;> rfl
  | px e | qtLuma e | qtChroma e =>
    simp only [Target.word] at h
    have he := e.isLt
    first
    | have hp : off / 0x100 = 1 := by omega
    | have hp : off / 0x100 = 2 := by omega
    | have hp : off / 0x100 = 3 := by omega
    simp only [targetOf, hp]
    congr 1
    apply Fin.ext
    simp only
    omega
  | ib c e | zs c e =>
    have he := e.isLt
    cases c <;> simp only [Target.word, chanNum] at h <;>
    · first
      | have hp : off / 0x100 = 4 := by omega
      | have hp : off / 0x100 = 5 := by omega
      | have hp : off / 0x100 = 6 := by omega
      | have hp : off / 0x100 = 8 := by omega
      | have hp : off / 0x100 = 9 := by omega
      | have hp : off / 0x100 = 10 := by omega
      simp only [targetOf, hp]
      congr 1
      apply Fin.ext
      simp only
      omega
  | rb c e u =>
    have he := e.isLt
    have hu2 : u.toNat = off / 4 % 2 := by
      cases u <;> cases c <;> simp only [Target.word, chanNum, Bool.toNat_true, Bool.toNat_false] at h ⊢ <;> omega
    have hu : u = (off / 4 % 2 == 1) := by
      cases u <;> simp [← hu2]
    simp only [Target.word] at h
    have hp : off / 0x100 = 16 + 2 * chanNum c + e.val / 32 := by
      have := chanNum_lt c
      omega
    rcases (by omega : e.val / 32 = 0 ∨ e.val / 32 = 1) with h32 | h32 <;> cases c <;>
      simp only [chanNum, h32, Nat.mul_zero, Nat.mul_one, Nat.add_zero, Nat.reduceAdd, Nat.reduceMul] at hp h <;>
      simp only [targetOf, hp, ← hu] <;> congr 1 <;> apply Fin.ext <;> simp only <;> omega

end Sys2Proof.Machine
end

