-- ==== Sys2Proof/Laws/WellFormed.lean ====
section
/-! SUPPORT. What a well-formed parameter set promises, in the form the other laws use (R10, R142, R161). -/

namespace Sys2Proof.Machine

theorem qtabInRange_bounds {t : Block Nat} (h : qtabInRange t = true) (e : Fin 64) : 1 ≤ t[e] ∧ t[e] ≤ 255 := by
  simp only [qtabInRange, List.all_eq_true, Bool.and_eq_true, decide_eq_true_eq] at h
  exact h t[e] (by simp [Fin.getElem_fin])

theorem wf_luma {p : Params} (h : p.wf = true) (e : Fin 64) : 1 ≤ p.qtabLuma[e] ∧ p.qtabLuma[e] ≤ 255 := by
  simp only [Params.wf, Bool.and_eq_true] at h
  exact qtabInRange_bounds h.1.1.1.1.2 e

theorem wf_chroma {p : Params} (h : p.wf = true) (e : Fin 64) : 1 ≤ p.qtabChroma[e] ∧ p.qtabChroma[e] ≤ 255 := by
  simp only [Params.wf, Bool.and_eq_true] at h
  exact qtabInRange_bounds h.1.1.1.2 e

/-- Every entry of the table a channel selects lies in [1, 255] (R142). -/
theorem wf_qtabOf {p : Params} (h : p.wf = true) (c : Chan) (e : Fin 64) :
    1 ≤ (qtabOf p c)[e] ∧ (qtabOf p c)[e] ≤ 255 := by
  cases c <;> simp only [qtabOf] <;> first | exact wf_luma h e | exact wf_chroma h e

theorem wf_depth {p : Params} (h : p.wf = true) : 65 ≤ p.tokqDepth ∧ p.tokqDepth ≤ 65535 := by
  simp only [Params.wf, Bool.and_eq_true, Params.depthInRange, decide_eq_true_eq] at h
  exact h.1.1.1.1.1.2

theorem zzBijective_surjective {zz : Block (Fin 64)} (h : zzBijective zz = true) (e : Fin 64) :
    ∃ i : Fin 64, zz[i] = e := by
  simp only [zzBijective, List.all_eq_true, List.mem_range, List.any_eq_true, beq_iff_eq] at h
  obtain ⟨z, hz, hv⟩ := h e.val e.isLt
  obtain ⟨i, hi, rfl⟩ := Vector.mem_iff_getElem.1 (Vector.mem_toList_iff.1 hz)
  exact ⟨⟨i, hi⟩, Fin.ext hv⟩

/-- ZZ is a bijection on 0..63 (R161). -/
theorem wf_zz_bijective {p : Params} (h : p.wf = true) : Function.Bijective (fun i : Fin 64 => p.zz[i]) := by
  simp only [Params.wf, Bool.and_eq_true] at h
  have hs : Function.Surjective (fun i : Fin 64 => p.zz[i]) := zzBijective_surjective h.1.1.2
  exact ⟨Finite.injective_iff_surjective.2 hs, hs⟩

end Sys2Proof.Machine
end

