-- ==== Sys2Proof/Laws/Bus.lean ====
section
/-! SUPPORT. The host's side of a step: what a turn of the schedule does (R67), which offsets are buffers or reserved
(R52), and what an aligned 32-bit access at a known target answers (R55, R57 to R60). -/

namespace Sys2Proof.Machine

theorem apertureOffset_add {base off : Nat} (h : off < 0x2000) : apertureOffset base (base + off) = some off := by
  unfold apertureOffset
  rw [if_pos (by omega)]
  congr 1
  omega

theorem apertureOffset_none {base addr : Nat} (h : addr < base ∨ base + 0x2000 ≤ addr) :
    apertureOffset base addr = none := by
  unfold apertureOffset
  rw [if_neg (by omega)]

theorem apertureOffset_some {base addr off : Nat} (h : apertureOffset base addr = some off) :
    addr = base + off ∧ off < 0x2000 := by
  unfold apertureOffset at h
  split at h
  · simp only [Option.some.injEq] at h
    omega
  · cases h

/-! ## Turns of the schedule -/

theorem step_onBus {s : State} (hw : s.cfg.wf = true) (a : BusAccess) : step (s.onBus a) = hostAccess a s := by
  simp only [step, State.onBus, hw, if_true]

theorem step_onEngine {s : State} (hw : s.cfg.wf = true) : step s.onEngine = engineStep s := by
  simp only [step, State.onEngine, hw, if_true]

theorem step_silent {s : State} (hw : s.cfg.wf = true) (h : s.schedule = []) : step s = engineStep s := by
  simp only [step, hw, h, if_true]

theorem step_onBus_read {s : State} (hw : s.cfg.wf = true) {off : Nat} (h : off < 0x2000) (bits : Nat) :
    step (s.onBus (.read (s.cfg.base + off) bits)) =
      .next { (memRead off bits s).1 with resp := some (.read (memRead off bits s).2.1 (memRead off bits s).2.2) } := by
  rw [step_onBus hw]
  simp only [hostAccess, apertureOffset_add h]

theorem step_onBus_write {s : State} (hw : s.cfg.wf = true) {off : Nat} (h : off < 0x2000) (bits : Nat) (v : Word) :
    step (s.onBus (.write (s.cfg.base + off) bits v)) =
      .next { (memWrite off bits v s).1 with resp := some (.write (memWrite off bits v s).2) } := by
  rw [step_onBus hw]
  simp only [hostAccess, apertureOffset_add h]

/-- Every step that answers next is a host access or an engine turn, on the state with its event taken off. -/
theorem step_cases {s t : State} (h : step s = .next t) :
    s.cfg.wf = true ∧
    ((s.schedule = [] ∧ engineStep s = .next t)
      ∨ (∃ rest, s.schedule = .engine :: rest ∧ engineStep { s with schedule := rest } = .next t)
      ∨ ∃ a rest, s.schedule = .host a :: rest ∧ hostAccess a { s with schedule := rest } = .next t) := by
  unfold step at h
  split at h
  · rename_i hw
    refine ⟨hw, ?_⟩
    split at h
    · rename_i e
      exact .inl ⟨e, h⟩
    · rename_i rest e
      exact .inr (.inl ⟨rest, e, h⟩)
    · rename_i a rest e
      exact .inr (.inr ⟨a, rest, e, h⟩)
  · cases h

/-- Every host access that answers next is a `memRead` or a `memWrite` at an offset of the aperture. -/
theorem hostAccess_cases {s t : State} {a : BusAccess} (h : hostAccess a s = .next t) :
    (∃ off bits, a = .read (s.cfg.base + off) bits ∧ off < 0x2000 ∧
      t = { (memRead off bits s).1 with resp := some (.read (memRead off bits s).2.1 (memRead off bits s).2.2) })
    ∨ ∃ off bits v, a = .write (s.cfg.base + off) bits v ∧ off < 0x2000 ∧
      t = { (memWrite off bits v s).1 with resp := some (.write (memWrite off bits v s).2) } := by
  unfold hostAccess at h
  split at h
  · split at h
    · cases h
    · rename_i addr bits _ off e
      obtain ⟨rfl, hlt⟩ := apertureOffset_some e
      cases h
      exact .inl ⟨off, bits, rfl, hlt, rfl⟩
  · split at h
    · cases h
    · rename_i addr bits v _ off e
      obtain ⟨rfl, hlt⟩ := apertureOffset_some e
      cases h
      exact .inr ⟨off, bits, v, rfl, hlt, rfl⟩

/-! ## Which offsets are buffers, which are reserved -/

/-- The buffer regions of R52 by page. -/
theorem inBuffer_iff (off : Nat) : inBuffer off ↔
    inRange 0x0100 0x100 off ∨ inRange 0x0400 0x300 off ∨ inRange 0x0800 0x300 off ∨ inRange 0x1000 0x600 off := by
  constructor
  · rintro (h | ⟨c, h⟩)
    · simp only [inPx, inRange] at *
      omega
    · have := chanNum_lt c
      simp only [inIb, inZs, inRb, inRange] at *
      omega
  · intro h
    have hy : chanNum .y = 0 := rfl
    have hb : chanNum .cb = 1 := rfl
    have hr : chanNum .cr = 2 := rfl
    by_cases hp : inRange 0x0100 0x100 off
    · exact .inl hp
    · right
      simp only [inIb, inZs, inRb, inRange] at *
      by_cases h0 : (1024 ≤ off ∧ off < 1280) ∨ (2048 ≤ off ∧ off < 2304) ∨ (4096 ≤ off ∧ off < 4608)
      · exact ⟨.y, by rw [hy]; omega⟩
      · by_cases h1 : (1280 ≤ off ∧ off < 1536) ∨ (2304 ≤ off ∧ off < 2560) ∨ (4608 ≤ off ∧ off < 5120)
        · exact ⟨.cb, by rw [hb]; omega⟩
        · exact ⟨.cr, by rw [hr]; omega⟩

theorem regTarget_not_buffer (w : Nat) : (regTarget w).isBuffer = false := by
  unfold regTarget
  split <;> rfl

theorem targetOf_isBuffer_iff (off : Nat) : (targetOf off).isBuffer = true ↔ inBuffer off := by
  rw [inBuffer_iff]
  simp only [inRange]
  unfold targetOf
  split
  · rw [regTarget_not_buffer]
    simp only [Bool.false_eq_true, false_iff]
    omega
  all_goals simp only [Target.isBuffer, Bool.false_eq_true, false_iff, true_iff]
  all_goals first | omega | (simp only [imp_false] at *; omega)

theorem regTarget_reserved_iff (w : Nat) : regTarget w = .reserved ↔ 13 ≤ w := by
  constructor
  · intro h
    by_contra hlt
    have : w ≤ 12 := by omega
    interval_cases w <;> cases h
  · intro h
    unfold regTarget
    split <;> first | omega | rfl

theorem targetOf_reserved_iff {off : Nat} (h : off < 0x2000) : targetOf off = .reserved ↔ inReserved off := by
  simp only [inReserved, inRange]
  unfold targetOf
  split
  · rw [regTarget_reserved_iff]
    omega
  all_goals simp only [reduceCtorEq, false_iff, true_iff]
  all_goals first | omega | (simp only [imp_false] at *; omega)

/-- The word index of a target fits the aperture. -/
theorem Target.word_lt (t : Target) : t.word < 2048 := by
  cases t with
  | dcPred c | ib c e | zs c e | rb c e u =>
    have := chanNum_lt c
    simp only [Target.word]
    first | omega | (cases u <;> simp <;> omega)
  | px e | qtLuma e | qtChroma e => simp only [Target.word]; omega
  | _ => simp only [Target.word]; omega

/-! ## Aligned 32-bit accesses at a known target -/

theorem memRead_refused {off bits : Nat} (h : off % 4 ≠ 0 ∨ bits ≠ 32) (s : State) :
    memRead off bits s = (refuseAccess s, 0, .error) := by
  unfold memRead
  rw [if_pos h]

theorem memWrite_refused {off bits : Nat} (h : off % 4 ≠ 0 ∨ bits ≠ 32) (v : Word) (s : State) :
    memWrite off bits v s = (refuseAccess s, .error) := by
  unfold memWrite
  rw [if_pos h]

theorem memRead_locked {off : Nat} {s : State} (h4 : off % 4 = 0) (hb : (targetOf off).isBuffer = true)
    (hp : s.phase ≠ .idle) : memRead off 32 s = (refuseAccess s, 0, .error) := by
  unfold memRead
  rw [if_neg (by omega)]
  exact if_pos ⟨hb, hp⟩

theorem memRead_okay {off : Nat} {s : State} (h4 : off % 4 = 0)
    (hb : (targetOf off).isBuffer = false ∨ s.phase = .idle) (hr : s.phase ≠ .reset ∨ targetOf off ≠ .tokOut) :
    memRead off 32 s = (readEffect (targetOf off) s, targetValue (targetOf off) s, .okay) := by
  unfold memRead
  rw [if_neg (by omega)]
  dsimp only
  rw [if_neg (by rintro ⟨h1, h2⟩; rcases hb with hb | hb <;> simp_all),
    if_neg (by rintro ⟨h1, h2⟩; rcases hr with hr | hr <;> exact hr ‹_›)]

theorem memRead_reset_tokOut {off : Nat} {s : State} (h4 : off % 4 = 0) (ht : targetOf off = .tokOut)
    (hr : s.phase = .reset) : memRead off 32 s = (s, 0xFFFFFFFF, .okay) := by
  unfold memRead
  rw [if_neg (by omega)]
  simp [ht, hr, Target.isBuffer]

theorem memWrite_reset {off : Nat} {s : State} (h4 : off % 4 = 0) (hr : s.phase = .reset) (v : Word) :
    memWrite off 32 v s = (s, .okay) := by
  unfold memWrite
  rw [if_neg (by omega), if_pos hr]

theorem memWrite_locked {off : Nat} {s : State} (h4 : off % 4 = 0) (hb : (targetOf off).isBuffer = true)
    (hp : s.phase ≠ .idle) (hr : s.phase ≠ .reset) (v : Word) : memWrite off 32 v s = (refuseAccess s, .error) := by
  unfold memWrite
  rw [if_neg (by omega), if_neg hr]
  exact if_pos ⟨hb, hp⟩

theorem memWrite_okay {off : Nat} {s : State} (h4 : off % 4 = 0)
    (hb : (targetOf off).isBuffer = false ∨ s.phase = .idle) (hr : s.phase ≠ .reset) (v : Word) :
    memWrite off 32 v s = (writeTarget (targetOf off) v s, .okay) := by
  unfold memWrite
  rw [if_neg (by omega), if_neg hr]
  dsimp only
  rw [if_neg (by rintro ⟨h1, h2⟩; rcases hb with hb | hb <;> simp_all)]

/-- A read of the word of a target that no rule refuses. -/
theorem step_onRead_target {s : State} (hw : s.cfg.wf = true) {off : Nat} {t : Target} (ht : t ≠ .reserved)
    (ho : off = 4 * t.word) (hb : t.isBuffer = false ∨ s.phase = .idle) (hr : s.phase ≠ .reset ∨ t ≠ .tokOut) :
    step (s.onRead off) =
      .next { readEffect t s with resp := some (.read (targetValue t s) .okay) } := by
  have hlt := t.word_lt
  have e : targetOf off = t := targetOf_eq ht (by omega)
  rw [State.onRead, step_onBus_read hw (by omega), memRead_okay (by omega) (by rw [e]; exact hb) (by rw [e]; exact hr), e]

/-- A write of the word of a target that no rule refuses, outside RESET. -/
theorem step_onWrite_target {s : State} (hw : s.cfg.wf = true) {off : Nat} {t : Target} (ht : t ≠ .reserved)
    (ho : off = 4 * t.word) (hb : t.isBuffer = false ∨ s.phase = .idle) (hr : s.phase ≠ .reset) (v : Word) :
    step (s.onWrite off v) = .next { writeTarget t v s with resp := some (.write .okay) } := by
  have hlt := t.word_lt
  have e : targetOf off = t := targetOf_eq ht (by omega)
  rw [State.onWrite, step_onBus_write hw (by omega), memWrite_okay (by omega) (by rw [e]; exact hb) hr, e]

/-- A write in RESET at an aligned offset of the aperture (R60). -/
theorem step_onWrite_reset {s : State} (hw : s.cfg.wf = true) {off : Nat} (h4 : off % 4 = 0) (hlt : off < 0x2000)
    (hr : s.phase = .reset) (v : Word) :
    step (s.onWrite off v) = .next { s with resp := some (.write .okay) } := by
  rw [State.onWrite, step_onBus_write hw hlt, memWrite_reset h4 hr]

/-! ## Halves of a real element -/

theorem setRealHalf_lower (x : F64) (v : Word) (u : Bool) :
    (setRealHalf x u v).extractLsb' 0 32 = if u then x.extractLsb' 0 32 else v := by
  have := v.isLt
  have h2 := (x.extractLsb' 0 32).isLt
  have h3 := (x.extractLsb' 32 32).isLt
  apply BitVec.eq_of_toNat_eq
  cases u <;> simp only [setRealHalf, Bool.false_eq_true, if_false, if_true, BitVec.extractLsb'_toNat,
    BitVec.toNat_ofNat, Nat.shiftRight_eq_div_pow] at * <;> omega

theorem setRealHalf_upper (x : F64) (v : Word) (u : Bool) :
    (setRealHalf x u v).extractLsb' 32 32 = if u then v else x.extractLsb' 32 32 := by
  have := v.isLt
  have h2 := (x.extractLsb' 0 32).isLt
  have h3 := (x.extractLsb' 32 32).isLt
  apply BitVec.eq_of_toNat_eq
  cases u <;> simp only [setRealHalf, Bool.false_eq_true, if_false, if_true, BitVec.extractLsb'_toNat,
    BitVec.toNat_ofNat, Nat.shiftRight_eq_div_pow] at * <;> omega

end Sys2Proof.Machine
end

