-- ==== Sys2Proof/Laws/Float64.lean ====
section
/-! SUPPORT. The laws of the binary64 functions (R13, R16): what an encoding of sign and magnitude reads back as, that
magnitudes grow with their encodings, and that `f64RoundMag` is rounding to nearest, ties to even. -/

namespace Sys2Proof.Machine

/-- The magnitude, in units of 2^−1074, of the encoding with bits 62:0 equal to `k` (`k` past the last finite one
goes on as if the exponent range were unbounded). -/
def magVal (k : Nat) : Nat := if k / 2 ^ 52 = 0 then k % 2 ^ 52 else (2 ^ 52 + k % 2 ^ 52) * 2 ^ (k / 2 ^ 52 - 1)

/-! ## Fields of an encoding -/

theorem f64Exp_eq (x : F64) : f64Exp x = x.toNat % 2 ^ 63 / 2 ^ 52 := by
  simp only [f64Exp, BitVec.extractLsb'_toNat, Nat.shiftRight_eq_div_pow]
  omega

theorem f64Frac_eq (x : F64) : f64Frac x = x.toNat % 2 ^ 63 % 2 ^ 52 := by
  simp only [f64Frac, BitVec.extractLsb'_toNat, Nat.shiftRight_eq_div_pow]
  omega

theorem f64Mag_eq (x : F64) : f64Mag x = magVal (x.toNat % 2 ^ 63) := by
  simp only [f64Mag, magVal, f64Exp_eq, f64Frac_eq]

theorem f64Sign_eq (x : F64) : f64Sign x = decide (2 ^ 63 ≤ x.toNat) := by
  simp only [f64Sign, BitVec.msb_eq_decide]

theorem f64Pack_toNat {k : Nat} (h : k < 2 ^ 63) (neg : Bool) :
    (f64Pack neg k).toNat = k + if neg then 2 ^ 63 else 0 := by
  cases neg <;> simp only [f64Pack, BitVec.toNat_ofNat, Bool.false_eq_true, if_false, if_true] <;> omega

theorem f64Pack_mod {k : Nat} (h : k < 2 ^ 63) (neg : Bool) : (f64Pack neg k).toNat % 2 ^ 63 = k := by
  rw [f64Pack_toNat h]
  cases neg <;> simp only [Bool.false_eq_true, if_false, if_true] <;> omega

theorem f64Sign_pack {k : Nat} (h : k < 2 ^ 63) (neg : Bool) : f64Sign (f64Pack neg k) = neg := by
  rw [f64Sign_eq, f64Pack_toNat h]
  cases neg <;> simp only [Bool.false_eq_true, if_false, if_true, decide_eq_true_eq, decide_eq_false_iff_not] <;> omega

theorem f64IsFinite_iff (x : F64) : f64IsFinite x = true ↔ x.toNat % 2 ^ 63 < f64InfMag := by
  simp only [f64IsFinite, bne_iff_ne, f64Exp_eq, f64InfMag]
  omega

theorem f64IsInf_iff (x : F64) : f64IsInf x = true ↔ x.toNat % 2 ^ 63 = f64InfMag := by
  simp only [f64IsInf, Bool.and_eq_true, beq_iff_eq, f64Exp_eq, f64Frac_eq, f64InfMag]
  omega

theorem f64IsNaN_iff (x : F64) : f64IsNaN x = true ↔ f64InfMag < x.toNat % 2 ^ 63 := by
  simp only [f64IsNaN, Bool.and_eq_true, beq_iff_eq, bne_iff_ne, f64Exp_eq, f64Frac_eq, f64InfMag]
  omega

theorem f64IsFinite_not {x : F64} (h : f64IsFinite x = true) : f64IsNaN x = false ∧ f64IsInf x = false := by
  rw [f64IsFinite_iff] at h
  constructor
  · rw [← Bool.not_eq_true, f64IsNaN_iff]
    omega
  · rw [← Bool.not_eq_true, f64IsInf_iff]
    omega

theorem f64_kinds (x : F64) :
    f64IsFinite x = (!f64IsNaN x && !f64IsInf x) := by
  rw [Bool.eq_iff_iff, f64IsFinite_iff, Bool.and_eq_true, Bool.not_eq_true', Bool.not_eq_true', ← Bool.not_eq_true,
    ← Bool.not_eq_true, f64IsNaN_iff, f64IsInf_iff]
  omega

/-! ## Negation -/

theorem f64Neg_fields (x : F64) :
    f64Sign (f64Neg x) = !f64Sign x ∧ f64Exp (f64Neg x) = f64Exp x ∧ f64Frac (f64Neg x) = f64Frac x := by
  refine ⟨?_, ?_, ?_⟩
  · rw [f64Sign, f64Neg, BitVec.msb_xor, show (0x8000000000000000 : F64).msb = true from rfl, Bool.xor_true, f64Sign]
  · rw [f64Exp, f64Neg, BitVec.extractLsb'_xor, show (0x8000000000000000 : F64).extractLsb' 52 11 = 0#11 from rfl,
      BitVec.xor_zero, f64Exp]
  · rw [f64Frac, f64Neg, BitVec.extractLsb'_xor, show (0x8000000000000000 : F64).extractLsb' 0 52 = 0#52 from rfl,
      BitVec.xor_zero, f64Frac]

theorem f64Neg_finite {x : F64} (h : f64IsFinite x = true) :
    f64IsFinite (f64Neg x) = true ∧ f64Val (f64Neg x) = -f64Val x := by
  obtain ⟨hs, he, hf⟩ := f64Neg_fields x
  refine ⟨by simpa only [f64IsFinite, he] using h, ?_⟩
  simp only [f64Val, f64Mag, hs, he, hf]
  cases f64Sign x <;> simp

/-! ## Magnitudes grow with their encodings -/

theorem magVal_split {sh m : Nat} (h1 : m ≤ 2 ^ 53) (h2 : sh = 0 ∨ 2 ^ 52 ≤ m) :
    magVal (sh * 2 ^ 52 + m) = m * 2 ^ sh := by
  unfold magVal
  by_cases hm : m < 2 ^ 52
  · have : sh = 0 := by omega
    subst this
    rw [if_pos (by omega)]
    simp only [Nat.zero_mul, Nat.zero_add, Nat.pow_zero, Nat.mul_one]
    omega
  · by_cases h53 : m = 2 ^ 53
    · have hd : (sh * 2 ^ 52 + m) / 2 ^ 52 = sh + 2 := by omega
      have hr : (sh * 2 ^ 52 + m) % 2 ^ 52 = 0 := by omega
      rw [hd, hr, if_neg (by omega), h53, show sh + 2 - 1 = sh + 1 from by omega, Nat.pow_succ]
      ring
    · have hd : (sh * 2 ^ 52 + m) / 2 ^ 52 = sh + 1 := by omega
      have hr : 2 ^ 52 + (sh * 2 ^ 52 + m) % 2 ^ 52 = m := by omega
      rw [hd, hr, if_neg (by omega), Nat.add_sub_cancel]

/-- Every encoding is a shift and a significand. -/
theorem exists_split (k : Nat) : ∃ sh m, k = sh * 2 ^ 52 + m ∧ m < 2 ^ 53 ∧ (sh = 0 ∨ 2 ^ 52 ≤ m) :=
  ⟨k / 2 ^ 52 - 1, k - (k / 2 ^ 52 - 1) * 2 ^ 52, by omega, by omega, by omega⟩

theorem magVal_lt_succ (k : Nat) : magVal k < magVal (k + 1) := by
  obtain ⟨sh, m, rfl, h1, h2⟩ := exists_split k
  rw [magVal_split (by omega) h2, Nat.add_assoc, magVal_split (by omega) (by omega)]
  exact Nat.mul_lt_mul_of_pos_right (by omega) (Nat.two_pow_pos sh)

theorem magVal_strictMono : StrictMono magVal := strictMono_nat_of_lt_succ magVal_lt_succ

@[simp] theorem magVal_zero : magVal 0 = 0 := by decide

theorem magVal_inj {a b : Nat} : magVal a = magVal b ↔ a = b := magVal_strictMono.injective.eq_iff

/-! ## Rounding a magnitude -/

/-- The parts of `f64RoundMag`: the significand cut off below, its remainder, and the step up. -/
theorem f64RoundMag_parts (num : Nat) {den : Nat} (hd : 0 < den) :
    ∃ k : Nat, magVal k * den ≤ num ∧ num < magVal (k + 1) * den
      ∧ f64RoundMag num den = min (k + if (magVal (k + 1) * den < num + num - magVal k * den)
          ∨ (num + num - magVal k * den = magVal (k + 1) * den ∧ k % 2 = 1) then 1 else 0) f64InfMag := by
  have hq : num / den < 2 ^ ((num / den).log2 + 1) := Nat.lt_log2_self
  generalize hsh : (num / den).log2 - 52 = sh
  have hm : num / (den * 2 ^ sh) = num / den / 2 ^ sh := (Nat.div_div_eq_div_mul num den (2 ^ sh)).symm
  have hbounds : num / (den * 2 ^ sh) < 2 ^ 53 ∧ (sh = 0 ∨ 2 ^ 52 ≤ num / (den * 2 ^ sh)) := by
    rw [hm]
    constructor
    · rw [Nat.div_lt_iff_lt_mul (Nat.two_pow_pos sh), ← Nat.pow_add]
      exact lt_of_lt_of_le hq (Nat.pow_le_pow_right (by decide) (by omega))
    · by_cases h0 : sh = 0
      · exact .inl h0
      · right
        have hne : num / den ≠ 0 := by
          intro e
          rw [e] at hsh
          simp at hsh
          omega
        rw [Nat.le_div_iff_mul_le (Nat.two_pow_pos sh), ← Nat.pow_add]
        exact le_trans (Nat.pow_le_pow_right (by decide) (by omega)) (Nat.log2_self_le hne)
  obtain ⟨h53, h52⟩ := hbounds
  have hstep : 0 < den * 2 ^ sh := Nat.mul_pos hd (Nat.two_pow_pos sh)
  have hdm := Nat.div_add_mod num (den * 2 ^ sh)
  have hr := Nat.mod_lt num hstep
  refine ⟨sh * 2 ^ 52 + num / (den * 2 ^ sh), ?_⟩
  have e0 : magVal (sh * 2 ^ 52 + num / (den * 2 ^ sh)) * den = den * 2 ^ sh * (num / (den * 2 ^ sh)) := by
    rw [magVal_split (by omega) h52]
    ring
  have e1 : magVal (sh * 2 ^ 52 + num / (den * 2 ^ sh) + 1) * den
      = den * 2 ^ sh * (num / (den * 2 ^ sh)) + den * 2 ^ sh := by
    rw [Nat.add_assoc, magVal_split (by omega) (by omega)]
    ring
  rw [e0, e1]
  unfold f64RoundMag
  simp only [hsh]
  generalize den * 2 ^ sh = step at *
  generalize num / step = m at *
  generalize num % step = r at *
  generalize step * m = p at *
  refine ⟨by omega, by omega, ?_⟩
  congr 2
  simp only [Bool.or_eq_true, Bool.and_eq_true, decide_eq_true_eq, beq_iff_eq]
  congr 1
  apply propext
  omega

/-- The encoding `f64RoundMag` gives is the nearest one, and even where another is as near. -/
theorem f64RoundMag_nearest (num : Nat) {den : Nat} (hd : 0 < den) (hfin : f64RoundMag num den < f64InfMag) (j : Nat) :
    |(magVal (f64RoundMag num den) * den : Int) - num| ≤ |(magVal j * den : Int) - num|
    ∧ (j ≠ f64RoundMag num den →
        |(magVal (f64RoundMag num den) * den : Int) - num| = |(magVal j * den : Int) - num| →
        f64RoundMag num den % 2 = 0) := by
  obtain ⟨k, hlo, hhi, e⟩ := f64RoundMag_parts num hd
  have hj : magVal j * den ≤ magVal k * den ∨ magVal (k + 1) * den ≤ magVal j * den := by
    rcases Nat.lt_or_ge k j with h | h
    · exact .inr (Nat.mul_le_mul_right den (magVal_strictMono.monotone h))
    · exact .inl (Nat.mul_le_mul_right den (magVal_strictMono.monotone h))
  have hjk : j ≠ k → magVal j * den ≠ magVal k * den := fun h he =>
    h (magVal_inj.1 (Nat.eq_of_mul_eq_mul_right hd he))
  have hjk1 : j ≠ k + 1 → magVal j * den ≠ magVal (k + 1) * den := fun h he =>
    h (magVal_inj.1 (Nat.eq_of_mul_eq_mul_right hd he))
  have hlt : magVal k * den < magVal (k + 1) * den := Nat.mul_lt_mul_of_pos_right (magVal_lt_succ k) hd
  rw [e] at hfin ⊢
  rw [min_eq_left (by omega)] at hfin ⊢
  simp only [← Nat.cast_mul]
  by_cases hup : (magVal (k + 1) * den < num + num - magVal k * den)
      ∨ (num + num - magVal k * den = magVal (k + 1) * den ∧ k % 2 = 1)
  · simp only [if_pos hup]
    generalize magVal k * den = a at *
    generalize magVal (k + 1) * den = b at *
    generalize magVal j * den = c at *
    clear e hfin hjk
    rw [abs_eq_max_neg, abs_eq_max_neg]
    constructor
    · omega
    · intro h1 h2
      have := hjk1 h1
      omega
  · simp only [if_neg hup, Nat.add_zero]
    generalize magVal k * den = a at *
    generalize magVal (k + 1) * den = b at *
    generalize magVal j * den = c at *
    clear e hfin hjk1
    rw [abs_eq_max_neg, abs_eq_max_neg]
    constructor
    · omega
    · intro h1 h2
      have := hjk h1
      omega

theorem magVal_lastFinite_add_inf : magVal (f64InfMag - 1) + magVal f64InfMag = (2 ^ 54 - 1) * 2 ^ 2045 := by
  have e1 : f64InfMag - 1 = 2045 * 2 ^ 52 + (2 ^ 53 - 1) := by decide
  have e2 : f64InfMag = 2045 * 2 ^ 52 + 2 ^ 53 := by decide
  rw [e1, e2, magVal_split (by decide) (by decide), magVal_split (by decide) (by decide), ← Nat.add_mul]
  congr 1

/-- Overflow: from the midpoint above the largest finite value on (a tie goes up: the largest finite one is odd). -/
theorem f64RoundMag_inf_iff (num : Nat) {den : Nat} (hd : 0 < den) :
    f64RoundMag num den = f64InfMag ↔ (2 ^ 54 - 1) * 2 ^ 2045 * den ≤ 2 * num := by
  obtain ⟨k, hlo, hhi, e⟩ := f64RoundMag_parts num hd
  rw [← magVal_lastFinite_add_inf, Nat.add_mul]
  have hodd : (f64InfMag - 1) % 2 = 1 := by decide
  have hpos : 0 < f64InfMag := by decide
  have mono : ∀ {a b : Nat}, a ≤ b → magVal a * den ≤ magVal b * den := fun h =>
    Nat.mul_le_mul_right den (magVal_strictMono.monotone h)
  have hlt : magVal k * den < magVal (k + 1) * den := Nat.mul_lt_mul_of_pos_right (magVal_lt_succ k) hd
  rw [e]
  generalize f64InfMag = N at *
  rcases Nat.lt_trichotomy (k + 1) N with h | h | h
  · have h1 := mono (show k + 1 ≤ N - 1 by omega)
    have h2 := Nat.mul_lt_mul_of_pos_right (magVal_strictMono (show N - 1 < N by omega)) hd
    have hne : ¬ min (k + if magVal (k + 1) * den < num + num - magVal k * den
          ∨ (num + num - magVal k * den = magVal (k + 1) * den ∧ k % 2 = 1) then 1 else 0) N = N := by
      split <;> omega
    simp only [hne, false_iff]
    omega
  · have hk : k = N - 1 := by omega
    rw [← h, show k + 1 - 1 = k from rfl]
    have hk1 : k % 2 = 1 := by rw [hk]; exact hodd
    split <;> omega
  · have h1 := mono (show N ≤ k by omega)
    have h2 := mono (show N - 1 ≤ k by omega)
    have : min (k + if magVal (k + 1) * den < num + num - magVal k * den
          ∨ (num + num - magVal k * den = magVal (k + 1) * den ∧ k % 2 = 1) then 1 else 0) N = N := by
      split <;> omega
    simp only [this, true_iff]
    omega

theorem f64RoundMag_le (num den : Nat) : f64RoundMag num den ≤ f64InfMag := Nat.min_le_right _ _

theorem f64InfMag_lt : f64InfMag < 2 ^ 63 := by decide

/-- A value that a 53-bit significand holds is rounded to itself. -/
theorem f64RoundMag_exact {i e : Nat} (hi : i < 2 ^ 53) (he : e ≤ 1074) :
    magVal (f64RoundMag (i * 2 ^ e) 1) = i * 2 ^ e ∧ f64RoundMag (i * 2 ^ e) 1 < f64InfMag := by
  obtain ⟨k, hlo, hhi, eq⟩ := f64RoundMag_parts (i * 2 ^ e) (den := 1) (by decide)
  simp only [Nat.mul_one] at hlo hhi eq
  -- the value is some encoding's
  have hrep : ∃ j, magVal j = i * 2 ^ e ∧ j < f64InfMag := by
    by_cases hz : i = 0
    · exact ⟨0, by simp [hz], by decide⟩
    · have hl1 := Nat.log2_self_le hz
      have hl2 : i < 2 ^ (i.log2 + 1) := Nat.lt_log2_self
      have hl : i.log2 ≤ 52 := by
        by_contra hc
        have := Nat.pow_le_pow_right (n := 2) (by decide) (show 53 ≤ i.log2 by omega)
        omega
      have hinf : f64InfMag = 2047 * 2 ^ 52 := rfl
      by_cases hle : 52 - i.log2 ≤ e
      · refine ⟨(e - (52 - i.log2)) * 2 ^ 52 + i * 2 ^ (52 - i.log2), ?_, ?_⟩
        · rw [magVal_split]
          · rw [Nat.mul_assoc, ← Nat.pow_add]
            congr 2
            omega
          · have := Nat.mul_lt_mul_of_pos_right hl2 (Nat.two_pow_pos (52 - i.log2))
            rw [← Nat.pow_add] at this
            exact le_trans (Nat.le_of_lt this) (Nat.pow_le_pow_right (by decide) (by omega))
          · right
            have := Nat.mul_le_mul_right (2 ^ (52 - i.log2)) hl1
            rw [← Nat.pow_add] at this
            exact le_trans (Nat.pow_le_pow_right (by decide) (by omega)) this
        · have := Nat.mul_lt_mul_of_pos_right hl2 (Nat.two_pow_pos (52 - i.log2))
          rw [← Nat.pow_add, show i.log2 + 1 + (52 - i.log2) = 53 from by omega] at this
          omega
      · refine ⟨i * 2 ^ e, ?_, ?_⟩
        · have := magVal_split (sh := 0) (m := i * 2 ^ e) ?_ (.inl rfl)
          · simpa using this
          · have := Nat.mul_lt_mul_of_pos_right hl2 (Nat.two_pow_pos e)
            rw [← Nat.pow_add] at this
            exact le_trans (Nat.le_of_lt this) (Nat.pow_le_pow_right (by decide) (by omega))
        · have := Nat.mul_lt_mul_of_pos_right hl2 (Nat.two_pow_pos e)
          rw [← Nat.pow_add] at this
          have h2 := Nat.pow_le_pow_right (n := 2) (by decide) (show i.log2 + 1 + e ≤ 53 by omega)
          omega
  obtain ⟨j, hj, hjlt⟩ := hrep
  have hkj : j = k := by
    have h1 : k ≤ j := magVal_strictMono.le_iff_le.1 (by omega)
    have h2 : j < k + 1 := magVal_strictMono.lt_iff_lt.1 (by omega)
    omega
  subst hkj
  have hlt := magVal_lt_succ j
  have hup : ¬((magVal (j + 1) < i * 2 ^ e + i * 2 ^ e - magVal j)
      ∨ (i * 2 ^ e + i * 2 ^ e - magVal j = magVal (j + 1) ∧ j % 2 = 1)) := by omega
  rw [if_neg hup, Nat.add_zero, min_eq_left (by omega)] at eq
  rw [eq]
  exact ⟨hj, hjlt⟩

/-! ## Signed values -/

/-- The signed value of an encoding. -/
theorem f64Val_eq (x : F64) :
    f64Val x = if f64Sign x then -(magVal (x.toNat % 2 ^ 63) : Int) else (magVal (x.toNat % 2 ^ 63) : Int) := by
  simp only [f64Val, f64Mag_eq]

theorem f64Val_pack {k : Nat} (h : k < 2 ^ 63) (neg : Bool) :
    f64Val (f64Pack neg k) = if neg then -(magVal k : Int) else (magVal k : Int) := by
  rw [f64Val_eq, f64Sign_pack h, f64Pack_mod h]

/-- `f64(i)` is exact for |i| < 2^53, finite, and +0 for 0. -/
theorem f64OfInt_exact {i : Int} (h : i.natAbs < 2 ^ 53) :
    f64IsFinite (f64OfInt i) = true ∧ f64Val (f64OfInt i) = i * 2 ^ 1074 ∧ (i = 0 → f64OfInt i = 0) := by
  obtain ⟨h1, h2⟩ := f64RoundMag_exact (e := 1074) h (le_refl _)
  have hlt : f64RoundMag (i.natAbs * 2 ^ 1074) 1 < 2 ^ 63 := lt_trans h2 f64InfMag_lt
  unfold f64OfInt f64Round f64Unit
  refine ⟨?_, ?_, ?_⟩
  · rw [f64IsFinite_iff, f64Pack_mod hlt]
    exact h2
  · rw [f64Val_pack hlt, h1]
    rw [Nat.cast_mul, show ((2 ^ 1074 : Nat) : Int) = 2 ^ 1074 from Nat.cast_pow 2 1074]
    generalize (2 : Int) ^ 1074 = U
    by_cases hn : i < 0
    · rw [if_pos (by simpa using hn), ← neg_mul]
      congr 1
      omega
    · rw [if_neg (by simpa using hn)]
      congr 1
      omega
  · intro h0
    have hz : f64RoundMag (i.natAbs * 2 ^ 1074) 1 = 0 := by
      rw [h0] at h1 ⊢
      simp only [Int.natAbs_zero, Nat.zero_mul] at h1 ⊢
      exact magVal_inj.1 (h1.trans magVal_zero.symm)
    rw [hz, h0]
    rfl

theorem midpoint_cast (U d n : Nat) :
    (2 ^ 54 - 1) * (U * 2) * d ≤ 2 * n ↔ ((2 : Int) ^ 54 - 1) * (U : Int) * d ≤ n := by
  have h2 : ((2 : Int) ^ 54 - 1) * (U : Int) * d = (((2 ^ 54 - 1) * U * d : Nat) : Int) := by
    rw [Nat.cast_mul, Nat.cast_mul]
    norm_num
  have h1 : (2 ^ 54 - 1) * (U * 2) * d = 2 * ((2 ^ 54 - 1) * U * d) := by ring
  rw [h2, Nat.cast_le, h1]
  generalize (2 ^ 54 - 1) * U * d = z
  omega

/-- `f64RoundMag_inf_iff` with the midpoint as `roundsTo` writes it. -/
theorem f64RoundMag_inf_iff_midpoint (n : Nat) {d : Nat} (hd : 0 < d) :
    f64RoundMag n d = f64InfMag ↔ ((2 : Int) ^ 54 - 1) * 2 ^ 2044 * d ≤ n := by
  rw [f64RoundMag_inf_iff n hd, Nat.pow_succ 2 2044, midpoint_cast, Nat.cast_pow 2 2044, Nat.cast_ofNat]

/-- The distance of a signed multiple from a signed target is that of the magnitudes, or their sum if signs differ. -/
theorem signed_distance (b neg : Bool) (P n : Nat) {scale num z : Int} (hz : z = (if b then -(P : Int) else P))
    (hn : (0 ≤ scale → num = if neg then -(n : Int) else n) ∧ (scale < 0 → num = if neg then (n : Int) else -n)) :
    |(if 0 ≤ scale then z else -z) - num| = if b = neg then |(P : Int) - n| else (P : Int) + n := by
  subst hz
  simp only [abs_eq_max_neg]
  by_cases hs : 0 ≤ scale
  · rw [hn.1 hs, if_pos hs]
    cases b <;> cases neg <;> simp only [Bool.false_eq_true, if_false, if_true, reduceCtorEq] <;> omega
  · rw [hn.2 (by omega), if_neg hs]
    cases b <;> cases neg <;> simp only [Bool.false_eq_true, if_false, if_true, reduceCtorEq] <;> omega

theorem f64Sign_round (neg : Bool) (n d : Nat) : f64Sign (f64Round neg n d) = neg :=
  f64Sign_pack (lt_of_le_of_lt (f64RoundMag_le n d) f64InfMag_lt) neg

/-- The sign of a nonzero quotient of integers is the sign its magnitude is rounded with. -/
theorem sign_of_quotient {neg : Bool} {n d : Nat} (hd : 0 < d) {scale num : Int} (hs : scale.natAbs = d)
    (hn : (0 ≤ scale → num = if neg then -(n : Int) else n) ∧ (scale < 0 → num = if neg then (n : Int) else -n))
    (h0 : num ≠ 0) : neg = true ↔ num * scale < 0 := by
  rcases lt_or_ge scale 0 with h | h
  · have e := hn.2 h
    rw [mul_neg_iff]
    cases neg <;> simp only [Bool.false_eq_true, if_false, if_true, true_iff, false_iff] at e ⊢ <;> omega
  · have e := hn.1 h
    rw [mul_neg_iff]
    cases neg <;> simp only [Bool.false_eq_true, if_false, if_true, true_iff, false_iff] at e ⊢ <;> omega

/-- `f64Round` is rounding to nearest, ties to even, of a quotient of integers in units of 2^−1074. -/
theorem f64Round_roundsTo {neg : Bool} {n d : Nat} (hd : 0 < d) {scale num : Int} (hs : scale.natAbs = d)
    (hn : (0 ≤ scale → num = if neg then -(n : Int) else n) ∧ (scale < 0 → num = if neg then (n : Int) else -n)) :
    roundsTo (f64Round neg n d) scale num := by
  have hle := f64RoundMag_le n d
  have hlt : f64RoundMag n d < 2 ^ 63 := lt_of_le_of_lt hle f64InfMag_lt
  have hdist : ∀ (b : Bool) (m : Nat),
      |(if b then -(m : Int) else m) * scale - num| =
        if b = neg then |(m : Int) * d - n| else (m : Int) * d + n := by
    intro b m
    have h := signed_distance b neg (m * d) n rfl hn
    rw [Nat.cast_mul] at h
    rw [← h]
    have hsc : scale = if 0 ≤ scale then (d : Int) else -d := by split <;> omega
    congr 2
    conv_lhs => rw [hsc]
    split <;> cases b <;> simp
  refine ⟨?_, ?_, fun h0 => ?_, ?_⟩
  · rw [← Bool.not_eq_true, f64IsNaN_iff, f64Round, f64Pack_mod hlt]
    exact not_lt.2 hle
  · rw [f64IsInf_iff, f64Round, f64Pack_mod hlt, f64RoundMag_inf_iff_midpoint n hd]
    have h1 : |scale| = (d : Int) := by rw [← hs, Int.natCast_natAbs]
    have h2 : |num| = (n : Int) := by
      rcases lt_or_ge scale 0 with h | h
      · rw [hn.2 h]
        cases neg <;> simp
      · rw [hn.1 h]
        cases neg <;> simp
    rw [h1, h2]
  · rw [f64Sign_round]
    exact sign_of_quotient hd hs hn h0
  · intro hfin w hw
    rw [f64IsFinite_iff, f64Round, f64Pack_mod hlt] at hfin
    have h0 := f64RoundMag_nearest n hd hfin 0
    have hj := f64RoundMag_nearest n hd hfin (w.toNat % 2 ^ 63)
    have hbit : (f64Round neg n d).getLsbD 0 = decide (f64RoundMag n d % 2 = 1) := by
      rw [Bool.eq_iff_iff, decide_eq_true_iff, BitVec.getLsbD, f64Round, f64Pack_toNat hlt, Nat.testBit_zero,
        decide_eq_true_iff]
      cases neg <;> simp only [Bool.false_eq_true, if_false, if_true] <;> omega
    have hv : f64Val (f64Round neg n d) =
        if neg then -(magVal (f64RoundMag n d) : Int) else (magVal (f64RoundMag n d) : Int) := f64Val_pack hlt neg
    have hwv := f64Val_eq w
    rw [hbit, decide_eq_false_iff_not, hwv, hv, hdist, hdist, if_pos rfl]
    simp only [magVal_zero, Nat.cast_zero, zero_mul, zero_sub, abs_neg, Nat.abs_cast] at h0
    have hwd : (0 : Int) ≤ magVal (w.toNat % 2 ^ 63) * d := by positivity
    have hodd : ∀ {e : Nat}, e % 2 = 0 → ¬ e % 2 = 1 := by omega
    clear hdist hle hlt hbit hv hwv hw hfin
    by_cases hsg : f64Sign w = neg
    · rw [if_pos hsg]
      refine ⟨hj.1, fun hne heq => hodd (hj.2 (fun e => hne (by rw [hsg, e])) heq)⟩
    · rw [if_neg hsg]
      constructor
      · refine le_trans h0.1 ?_
        generalize (magVal (w.toNat % 2 ^ 63) : Int) * d = P at *
        omega
      · intro hne heq
        have h00 := h0.1
        have hz : (magVal (w.toNat % 2 ^ 63) : Int) * d = 0 := by
          generalize (magVal (w.toNat % 2 ^ 63) : Int) * d = P at *
          rw [heq] at h00
          omega
        have hm : magVal (w.toNat % 2 ^ 63) = 0 := by
          rcases Int.mul_eq_zero.1 hz with h | h
          · exact_mod_cast h
          · exact absurd (by exact_mod_cast h) (Nat.pos_iff_ne_zero.1 hd)
        refine hodd (h0.2 (fun e => hne ?_) ?_)
        · rw [hm, ← e]
          simp
        · rw [heq, hz, zero_add]

/-! ## Zeros, infinities and NaNs -/

theorem f64Inf_eq_signedInf (neg : Bool) : f64Inf neg = signedInf neg := by cases neg <;> decide

theorem f64Pack_zero (neg : Bool) : f64Pack neg 0 = signedZero neg := by cases neg <;> decide

theorem f64IsNaN_f64NaN : f64IsNaN f64NaN = true := by decide

theorem eq_signedInf {x : F64} (h : f64IsInf x = true) : x = signedInf (f64Sign x) := by
  rw [f64IsInf_iff, f64InfMag] at h
  apply BitVec.eq_of_toNat_eq
  rw [f64Sign_eq]
  have := x.isLt
  by_cases hs : 2 ^ 63 ≤ x.toNat
  · rw [decide_eq_true hs]
    change x.toNat = 0xFFF0000000000000
    omega
  · rw [decide_eq_false hs]
    change x.toNat = 0x7FF0000000000000
    omega

theorem f64IsInf_not {x : F64} (h : f64IsInf x = true) : f64IsNaN x = false := by
  rw [f64IsInf_iff] at h
  rw [← Bool.not_eq_true, f64IsNaN_iff]
  omega

theorem f64Val_eq_zero_iff (x : F64) : f64Val x = 0 ↔ f64Mag x = 0 := by
  unfold f64Val
  split <;> omega

theorem f64Mag_ne_zero_of_isInf {x : F64} (h : f64IsInf x = true) : f64Mag x ≠ 0 := by
  rw [f64IsInf_iff] at h
  rw [f64Mag_eq, h, Ne, ← magVal_zero, magVal_inj]
  decide

theorem f64Round_zero (neg : Bool) {d : Nat} (hd : 0 < d) : f64Round neg 0 d = signedZero neg := by
  have h0 := f64RoundMag_parts 0 hd
  obtain ⟨k, hlo, -, e⟩ := h0
  have hk : magVal k = magVal 0 := by
    rw [magVal_zero]
    exact (Nat.mul_eq_zero.1 (Nat.le_zero.1 hlo)).resolve_right (Nat.pos_iff_ne_zero.1 hd)
  rw [magVal_inj] at hk
  subst hk
  rw [f64Round, e, ← f64Pack_zero, if_neg (by simp), Nat.zero_add, Nat.zero_min]

/-- −x keeps the kind of x and flips its sign. -/
theorem f64Neg_kind (x : F64) :
    f64IsNaN (f64Neg x) = f64IsNaN x ∧ f64IsInf (f64Neg x) = f64IsInf x ∧ f64Sign (f64Neg x) = !f64Sign x := by
  obtain ⟨hs, he, hf⟩ := f64Neg_fields x
  exact ⟨by simp only [f64IsNaN, he, hf], by simp only [f64IsInf, he, hf], hs⟩

/-! ## Rounding to an integer -/

/-- Of the integers, the one f64RintMag takes (below or above the value, as the remainder says) is nearest. -/
theorem nearest_multiple {U q r p : Int} (h0 : 0 ≤ r) (hr : r < U) (hp : (p = q ∧ 2 * r ≤ U) ∨ (p = q + 1 ∧ U ≤ 2 * r))
    (j : Int) :
    |p * U - (q * U + r)| ≤ |j * U - (q * U + r)|
    ∧ (j ≠ p → |p * U - (q * U + r)| = |j * U - (q * U + r)| →
        2 * r = U ∧ ((p = q ∧ j = q + 1) ∨ (p = q + 1 ∧ j = q))) := by
  have hj : j * U ≤ q * U - U ∨ j = q ∨ j = q + 1 ∨ q * U + 2 * U ≤ j * U := by
    rcases lt_trichotomy j q with h | h | h
    · left
      nlinarith
    · exact .inr (.inl h)
    · by_cases h1 : j = q + 1
      · exact .inr (.inr (.inl h1))
      · right
        right
        right
        nlinarith [show q + 2 ≤ j by omega]
  have e : (q + 1) * U = q * U + U := by ring
  simp only [abs_eq_max_neg]
  have hpU : p * U = q * U ∧ p = q ∨ p * U = q * U + U ∧ p = q + 1 := by
    rcases hp with ⟨h, -⟩ | ⟨h, -⟩
    · exact .inl ⟨by rw [h], h⟩
    · exact .inr ⟨by rw [h, e], h⟩
  have hjU : j * U ≤ q * U - U ∨ (j = q ∧ j * U = q * U) ∨ (j = q + 1 ∧ j * U = q * U + U)
      ∨ q * U + 2 * U ≤ j * U := by
    rcases hj with h | h | h | h
    · exact .inl h
    · exact .inr (.inl ⟨h, by rw [h]⟩)
    · exact .inr (.inr (.inl ⟨h, by rw [h, e]⟩))
    · exact .inr (.inr (.inr h))
  clear hj e
  generalize j * U = J at *
  generalize q * U = Q at *
  generalize p * U = P at *
  omega

end Sys2Proof.Machine
end

