-- ==== Sys2Proof/Laws/Commands.lean ====
section
/-! SUPPORT. One law for each arithmetic helper of the single-step commands: what it gives, said once (R17, R104, R122,
R129, R143, R144, R163). -/

namespace Sys2Proof.Machine

theorem satInt_eq {i lo hi : Int} (h : lo ≤ hi) : satInt i lo hi = max lo (min hi i) := by
  unfold satInt
  split_ifs <;> omega

theorem clamp8_toNat (i : Int) : ((clamp8 i).toNat : Int) = max 0 (min 255 i) := by
  rw [clamp8, BitVec.toNat_ofInt, satInt_eq (by decide)]
  omega

theorem sat16_toInt (i : Int) : (sat16 i).toInt = max (-32768) (min 32767 i) := by
  rw [sat16, BitVec.toInt_ofInt, satInt_eq (by decide)]
  generalize hm : max (-32768) (min 32767 i) = m
  have : -32768 ≤ m ∧ m ≤ 32767 := by omega
  rw [Int.bmod_def]
  split <;> omega

/-- `to8` (R104). -/
theorem to8_cases (tie : RoundTie) (x : F64) :
    (f64IsNaN x = true → (to8 tie x).1 = 0)
    ∧ (f64IsInf x = true → (to8 tie x).1 = if f64Sign x then 0 else 255)
    ∧ (f64IsFinite x = true → ((to8 tie x).1.toNat : Int) = max 0 (min 255 (f64Rint tie x)))
    ∧ (to8 tie x).2 = f64IsNaN x := by
  refine ⟨fun h => by simp [to8, h], fun h => by simp [to8, f64IsInf_not h, h], fun h => ?_, ?_⟩
  · obtain ⟨h1, h2⟩ := f64IsFinite_not h
    simp only [to8, h1, h2, Bool.false_eq_true, if_false, clamp8_toNat]
  · unfold to8
    by_cases h : f64IsNaN x = true
    · simp [h]
    · rw [if_neg h]
      split <;> simpa using h

/-- `qelem` (R144). -/
theorem qelem_cases (tie : RoundTie) (q : F64) :
    (f64IsNaN q = true → (qelem tie q).1.toInt = 0)
    ∧ (f64IsInf q = true → (qelem tie q).1.toInt = if f64Sign q then -32768 else 32767)
    ∧ (f64IsFinite q = true → (qelem tie q).1.toInt = max (-32768) (min 32767 (f64Rint tie q))) := by
  refine ⟨fun h => by simp [qelem, h], fun h => ?_, fun h => ?_⟩
  · simp only [qelem, f64IsInf_not h, h, Bool.false_eq_true, if_false, if_true]
    split <;> simp [sat16_toInt]
  · obtain ⟨h1, h2⟩ := f64IsFinite_not h
    simp only [qelem, h1, h2, Bool.false_eq_true, if_false, sat16_toInt]

theorem qelem_sat_iff (tie : RoundTie) (q : F64) :
    (qelem tie q).2 = true ↔ f64IsFinite q = false ∨ f64Rint tie q < -32768 ∨ 32767 < f64Rint tie q := by
  have hk := f64_kinds q
  unfold qelem
  cases hn : f64IsNaN q <;> cases hi : f64IsInf q <;> simp [hk, hn, hi, or_comm]

@[simp] theorem rowOf_elemIdx (x y : Fin 8) : rowOf (elemIdx x y) = x := by
  apply Fin.ext
  simp only [rowOf, elemIdx]
  omega

@[simp] theorem colOf_elemIdx (x y : Fin 8) : colOf (elemIdx x y) = y := by
  apply Fin.ext
  simp only [colOf, elemIdx]
  omega

@[simp] theorem elemIdx_rowOf_colOf (e : Fin 64) : elemIdx (rowOf e) (colOf e) = e := by
  apply Fin.ext
  simp only [rowOf, colOf, elemIdx]
  omega

/-- Every pattern `nanOfRaw` makes is a NaN. -/
theorem f64IsNaN_nanOfRaw (r : F64) : f64IsNaN (nanOfRaw r) = true := by
  rw [f64IsNaN_iff]
  have hf : f64Frac r < 2 ^ 52 := by
    rw [f64Frac_eq]
    omega
  have hI : f64InfMag = 2047 * 2 ^ 52 := rfl
  unfold nanOfRaw
  split
  · rw [f64Pack_mod (by omega)]
    omega
  · rw [f64Pack_mod (by omega)]
    omega

/-- A REF64 result as it is written (R129): a NaN stays some NaN, any other value stays itself. -/
theorem withFreeNaN_cases (seq : Nat) (e : Fin 64) (x : F64) :
    (f64IsNaN x = false → withFreeNaN seq e x = x) ∧ (f64IsNaN x = true → f64IsNaN (withFreeNaN seq e x) = true) := by
  constructor
  · intro h
    simp [withFreeNaN, h]
  · intro h
    simp only [withFreeNaN, h, if_true]
    exact f64IsNaN_nanOfRaw _

theorem unflattenFold_ne (zz : Block (Fin 64)) (z : Block Coef) (l : List (Fin 64)) (t : Block Coef) (e : Fin 64)
    (h : ∀ i ∈ l, zz[i] ≠ e) :
    (l.foldl (fun tmp i => tmp.set (zz[i] : Fin 64).val z[i] (zz[i] : Fin 64).isLt) t)[e] = t[e] := by
  induction l generalizing t with
  | nil => rfl
  | cons a l ih =>
    rw [List.foldl_cons, ih _ (fun i hi => h i (List.mem_cons_of_mem a hi))]
    have := h a List.mem_cons_self
    simp only [Fin.getElem_fin] at *
    rw [Vector.getElem_set_ne]
    exact fun he => this (Fin.ext he)

theorem unflattenFold_eq {zz : Block (Fin 64)} (hz : Function.Injective (fun i : Fin 64 => zz[i])) (z : Block Coef)
    {l : List (Fin 64)} (hl : l.Nodup) (t : Block Coef) {i : Fin 64} (h : i ∈ l) :
    (l.foldl (fun tmp i => tmp.set (zz[i] : Fin 64).val z[i] (zz[i] : Fin 64).isLt) t)[zz[i]] = z[i] := by
  induction l generalizing t with
  | nil => cases h
  | cons a l ih =>
    rw [List.foldl_cons]
    rw [List.nodup_cons] at hl
    by_cases hi : i ∈ l
    · exact ih hl.2 _ hi
    · have ha : i = a := by simpa [hi] using h
      subst ha
      rw [unflattenFold_ne _ _ _ _ _ (fun j hj he => hi (by
        have : j = i := hz he
        rw [← this]
        exact hj))]
      simp

/-- The block of a sequence holds, at ZZ[i], element i of the sequence (R163). -/
theorem zzUnflatten_at {zz : Block (Fin 64)} (hz : Function.Injective (fun i : Fin 64 => zz[i])) (z : Block Coef)
    (i : Fin 64) : (zzUnflatten zz z)[zz[i]] = z[i] :=
  unflattenFold_eq hz z (List.nodup_finRange 64) _ (List.mem_finRange i)

/-! ## The transform tables -/

/-- R120's general rule gives the table that R120 prints. -/
theorem cosTab_eq_printed (k n : Fin 8) : cosTab k n = cosPrinted k n := by
  revert k n
  decide +kernel

theorem cu_eq_printed (k : Fin 8) : cu k = cuPrinted k := by
  revert k
  decide +kernel

end Sys2Proof.Machine
end

