-- ==== Sys2Proof/Laws/Flags.lean ====
section
/-! SUPPORT. The bits of the register words (R31, R32, R37), read back. -/

namespace Sys2Proof.Machine

/-- The bits of a word written as a sum of eight weighted bits. -/
theorem eightBits (a0 a1 a2 a3 a4 a5 a6 a7 : Bool) :
    let d := BitVec.ofNat 32 (a0.toNat + 2 * a1.toNat + 4 * a2.toNat + 8 * a3.toNat + 16 * a4.toNat + 32 * a5.toNat
      + 64 * a6.toNat + 128 * a7.toNat)
    d.getLsbD 0 = a0 ∧ d.getLsbD 1 = a1 ∧ d.getLsbD 2 = a2 ∧ d.getLsbD 3 = a3 ∧ d.getLsbD 4 = a4 ∧ d.getLsbD 5 = a5
      ∧ d.getLsbD 6 = a6 ∧ d.getLsbD 7 = a7 ∧ d.toNat < 256 := by
  revert a0 a1 a2 a3 a4 a5 a6 a7
  decide +kernel

theorem statusWord_bits (s : State) :
    (statusWord s).getLsbD 0 = s.busy ∧ (statusWord s).getLsbD 1 = s.flags.done ∧ (statusWord s).getLsbD 2 = s.flags.err
      ∧ (statusWord s).getLsbD 3 = s.waitIn ∧ (statusWord s).getLsbD 4 = s.waitOut
      ∧ (statusWord s).getLsbD 5 = s.flags.sat ∧ (statusWord s).getLsbD 6 = s.flags.accErr
      ∧ (statusWord s).getLsbD 7 = s.flags.cmdOvr ∧ (statusWord s).toNat < 256 :=
  eightBits s.busy s.flags.done s.flags.err s.waitIn s.waitOut s.flags.sat s.flags.accErr s.flags.cmdOvr

theorem ctrlWord_bits (c : Ctrl) :
    (ctrlWord c).getLsbD 0 = c.ieDone ∧ (ctrlWord c).getLsbD 1 = c.ieErr ∧ (ctrlWord c).getLsbD 2 = c.ieWait
      ∧ (ctrlWord c).toNat < 8 := by
  obtain ⟨a, b, d⟩ := c
  revert a b d
  decide

theorem errInfoWord_toNat (i : ErrInfo) :
    (errInfoWord i).toNat = i.code.toNat + 2 ^ 8 * i.op.toNat + 2 ^ 16 * i.ch.toNat + 2 ^ 18 * i.cursor.toNat := by
  have := i.code.isLt
  have := i.op.isLt
  have := i.ch.isLt
  have := i.cursor.isLt
  simp only [errInfoWord, BitVec.toNat_ofNat]
  omega

theorem cfgWord_lt (p : Params) : (cfgWord p).toNat < 2 ^ 20 := by
  have := Bool.toNat_le (p.roundTie == .halfEven)
  have := Bool.toNat_le (p.qtabLuma == defaultLuma && p.qtabChroma == defaultChroma)
  have := Bool.toNat_le (p.zz == defaultZigzag)
  have := Bool.toNat_le (p.dctNumerics == .ref64)
  simp only [cfgWord, BitVec.toNat_ofNat]
  omega

/-- The bits of a word above its value are 0. -/
theorem getLsbD_of_toNat_lt {d : Word} {m n : Nat} (h : d.toNat < 2 ^ m) (hn : m ≤ n) : d.getLsbD n = false := by
  rw [BitVec.getLsbD]
  exact Nat.testBit_lt_two_pow (lt_of_lt_of_le h (Nat.pow_le_pow_right (by decide) hn))

end Sys2Proof.Machine
end

