-- ==== Sys2Proof/Laws/Step.lean ====
section
/-! SUPPORT. What a step can do, said once: the effects of a host access (`HostEffect`) and of an engine turn
(`EngineEffect`), and that every step that answers next is one of them. Proofs about all steps go by these cases. -/

namespace Sys2Proof.Machine

/-- The effects of a host access `a` at `s`, its response aside. -/
inductive HostEffect (a : BusAccess) (s : State) : State → Prop where
  /-- Nothing: most reads, every write in RESET, writes of read-only and reserved words. -/
  | same : HostEffect a s s
  /-- ACCERR set (never in RESET). -/
  | accErr (hr : s.phase ≠ .reset) : HostEffect a s (setAccErr s)
  /-- A TOK_OUT read pops (R38). -/
  | pop (w : Word) (rest : List Word) (hr : s.phase ≠ .reset) (h : s.tokOut = w :: rest) :
      HostEffect a s { s with tokOut := rest }
  /-- A CTRL write with SOFT_RESET (R251). -/
  | softReset (v : Word) (ha : a = .write (s.cfg.base + 0x00C) 32 v) (h8 : v.getLsbD 8 = true)
      (hr : s.phase ≠ .reset) : HostEffect a s (softReset s)
  /-- A CTRL write that stores the enables. -/
  | ctrl (c : Ctrl) (hr : s.phase ≠ .reset) : HostEffect a s { s with ctrl := c }
  /-- A CTRL write with TOKQ_FLUSH while idle (R32). -/
  | flush (c : Ctrl) (hi : s.phase = .idle) : HostEffect a s { s with ctrl := c, tokOut := [], tokIn := [] }
  /-- A CTRL write with TOKQ_FLUSH while busy (R66). -/
  | flushRefused (c : Ctrl) (hi : s.phase ≠ .idle) (hr : s.phase ≠ .reset) :
      HostEffect a s (setAccErr { s with ctrl := c })
  /-- A STATUS write (R31). -/
  | clear (v : Word) (hr : s.phase ≠ .reset) : HostEffect a s (clearStatus v s)
  /-- A dropped CMD write (R201). -/
  | cmdDropped (hr : s.phase ≠ .reset) : HostEffect a s { s with flags := s.flags.setCmdOvr }
  /-- A CMD write that ends in a decoding error (R83, R222). -/
  | cmdError (w : Word) (e : DecodeError) (hi : s.phase = .idle) (he : s.flags.err = false) (hd : decode w = .error e) :
      HostEffect a s (raiseError (CmdError.ofDecode e) w 0 { s with lastCmd := w })
  /-- An accepted CMD write (R201). -/
  | cmdAccepted (w : Word) (i : Instr) (hi : s.phase = .idle) (he : s.flags.err = false) (hd : decode w = .ok i) :
      HostEffect a s { s with lastCmd := w, phase := .exec w }
  /-- A TOK_IN write (R39). -/
  | push (v : Word) (hr : s.phase ≠ .reset) (h : s.tokIn.length < s.cfg.tokqDepth) :
      HostEffect a s { s with tokIn := s.tokIn ++ [v] }
  /-- A DC_PRED write while idle (R41). -/
  | dcPred (c : Chan) (v : Word) (ha : a = .write (s.cfg.base + 0x028 + 4 * chanNum c) 32 v) (hi : s.phase = .idle) :
      HostEffect a s { s with prevDc := s.prevDc.set c (v.setWidth 16) }
  /-- A buffer write while idle (R57, R61 to R63). -/
  | buffer (px : Block Pixel) (rb : PerChan (Block F64)) (ib zs : PerChan (Block Coef)) (hi : s.phase = .idle) :
      HostEffect a s { s with px := px, rb := rb, ib := ib, zs := zs }

theorem refuseAccess_effect (a : BusAccess) (s : State) : HostEffect a s (refuseAccess s) := by
  unfold refuseAccess
  split
  · exact .same
  · exact .accErr ‹_›

theorem memRead_effect (a : BusAccess) (off bits : Nat) (s : State) : HostEffect a s (memRead off bits s).1 := by
  unfold memRead
  split
  · exact refuseAccess_effect a s
  · dsimp only
    split
    · exact refuseAccess_effect a s
    · split
      · exact .same
      · rename_i hr
        dsimp only
        generalize targetOf off = t at hr
        cases t with
        | tokOut =>
          have hr' : s.phase ≠ .reset := fun e => hr ⟨e, rfl⟩
          simp only [readEffect, popTokOut]
          split
          · exact .pop _ _ hr' ‹_›
          · exact .accErr hr'
        | _ => exact .same

theorem writeCtrl_effect {s : State} (hr : s.phase ≠ .reset) (v : Word) :
    HostEffect (.write (s.cfg.base + 0x00C) 32 v) s (writeCtrl v s) := by
  unfold writeCtrl
  split
  · exact .softReset v rfl ‹_› hr
  · dsimp only
    split
    · split
      · exact .flush _ ‹_›
      · exact .flushRefused _ ‹_› hr
    · exact .ctrl _ hr

theorem issueCommand_effect (a : BusAccess) {s : State} (hr : s.phase ≠ .reset) (w : Word) :
    HostEffect a s (issueCommand w s) := by
  unfold issueCommand
  split
  · exact .cmdDropped hr
  · rename_i h
    simp only [not_or, ne_eq, not_not, Bool.not_eq_true] at h
    split
    · exact .cmdError w _ h.1 h.2 ‹_›
    · exact .cmdAccepted w _ h.1 h.2 ‹_›

theorem memWrite_effect (off bits : Nat) (v : Word) (s : State) :
    HostEffect (.write (s.cfg.base + off) bits v) s (memWrite off bits v s).1 := by
  unfold memWrite
  split
  · exact refuseAccess_effect _ s
  · rename_i h4
    have hb : bits = 32 := by omega
    have ho : off = 4 * (off / 4) := by omega
    subst hb
    split
    · exact .same
    · rename_i hr
      dsimp only
      split
      · exact refuseAccess_effect _ s
      · rename_i hl
        dsimp only
        have hw := @targetOf_word off
        cases e : targetOf off with
        | id | version | cfg | errInfo | tokOut | tokqStat | qtLuma _ | qtChroma _ | reserved => exact .same
        | ctrl =>
          rw [e] at hw
          rw [hw (by simp)] at ho
          rw [ho]
          exact writeCtrl_effect hr v
        | status => exact .clear v hr
        | cmd => exact issueCommand_effect _ hr v
        | tokIn =>
          simp only [writeTarget, pushTokIn]
          split
          · exact .accErr hr
          · rename_i hf
            exact .push v hr (by simpa [State.tokInFull] using hf)
        | dcPred c =>
          simp only [writeTarget, writeDcPred]
          split
          · rename_i hi
            rw [e] at hw
            rw [hw (by simp)] at ho
            refine .dcPred c v ?_ hi
            rw [ho]
            congr 1
            simp only [Target.word]
            omega
          · exact .accErr hr
        | px x | ib c x | zs c x | rb c x u =>
          have hi : s.phase = .idle := by
            by_contra hn
            exact hl ⟨by rw [e]; rfl, hn⟩
          exact .buffer _ _ _ _ hi

/-- Every host access that answers next has one of the effects, and then its response is recorded. -/
theorem hostAccess_effect {s t : State} {a : BusAccess} (h : hostAccess a s = .next t) :
    ∃ u r, HostEffect a s u ∧ t = { u with resp := some r } := by
  rcases hostAccess_cases h with ⟨off, bits, rfl, -, rfl⟩ | ⟨off, bits, v, rfl, -, rfl⟩
  · exact ⟨_, _, memRead_effect _ off bits s, rfl⟩
  · exact ⟨_, _, memWrite_effect off bits v s, rfl⟩

/-- The effects of an engine turn at `s`. -/
inductive EngineEffect (s : State) : State → Prop where
  /-- No step enabled: IDLE, or a hold. -/
  | none (h : s.engineEnabled = false) : EngineEffect s s
  /-- The only step of a command other than ENT_ENC and ENT_DEC: new operands, SAT perhaps set, complete. -/
  | single (w : Word) (i : Instr) (u : State) (hp : s.phase = .exec w) (hd : decode w = .ok i)
      (hs : ∀ c, i ≠ .entEnc c ∧ i ≠ .entDec c) (hx : exec i s = .next (complete u))
      (hu : ∃ px rb ib zs b n, u = { s with
        px := px, rb := rb, ib := ib, zs := zs, nanSeq := n
        prevDc := if i = .dcReset then ⟨0, 0, 0⟩ else s.prevDc
        flags := s.flags.orSat b } ∧ (b = true → i = .cscInv ∨ ∃ c, i = .quant c)) : EngineEffect s (complete u)
  /-- EXEC(w) of a word that does not decode (reached by no run). -/
  | undecodable (w : Word) (e : DecodeError) (hp : s.phase = .exec w) (hd : decode w = .error e) :
      EngineEffect s (raiseError (CmdError.ofDecode e) w 0 s)
  /-- ENT_ENC's start step (R172). -/
  | encStart (w : Word) (c : Chan) (hp : s.phase = .exec w) (hd : decode w = .ok (.entEnc c)) :
      EngineEffect s { s with
        phase := .enc c (encTokens (s.prevDc.get c) (s.zs.get c)) (s.zs.get c)[(0 : Fin 64)] }
  /-- A push step (R173). -/
  | encPush (c : Chan) (w : Word) (rest : List Word) (d : Coef) (hp : s.phase = .enc c (w :: rest) d)
      (hf : s.tokOut.length < s.cfg.tokqDepth) : EngineEffect s { s with tokOut := s.tokOut ++ [w], phase := .enc c rest d }
  /-- The final step of ENT_ENC (R174). -/
  | encEnd (c : Chan) (d : Coef) (hp : s.phase = .enc c [] d) :
      EngineEffect s (complete { s with prevDc := s.prevDc.set c d })
  /-- ENT_DEC's start step (R180). -/
  | decStart (w : Word) (c : Chan) (hp : s.phase = .exec w) (hd : decode w = .ok (.entDec c)) :
      EngineEffect s { s with zs := s.zs.set c (Vector.replicate 64 0), phase := .dec c .dc 1 0 }
  /-- A token step that ends in an error (R181 to R183). -/
  | decError (c : Chan) (st : Stage) (k : Nat) (dc : Coef) (w : Word) (rest : List Word) (e : CmdError) (cur : Nat)
      (hp : s.phase = .dec c st k dc) (ht : s.tokIn = w :: rest) :
      EngineEffect s (raiseError e (encode (.entDec c)) cur { s with tokIn := rest })
  /-- The DC token (R182). -/
  | decDc (c : Chan) (k : Nat) (d0 x : Coef) (w : Word) (rest : List Word) (hp : s.phase = .dec c .dc k d0)
      (ht : s.tokIn = w :: rest) :
      EngineEffect s { s with tokIn := rest, zs := s.zs.set c ((s.zs.get c).set 0 x), phase := .dec c .ac 1 x }
  /-- An AC token that places a value (R183). -/
  | decAc (c : Chan) (k : Nat) (dc : Coef) (w : Word) (rest : List Word) (hp : s.phase = .dec c .ac k dc)
      (ht : s.tokIn = w :: rest) (hk : k + acRun w ≤ 63) :
      EngineEffect s { s with
        tokIn := rest, zs := s.zs.set c (placeRun k (acRun w) (acValue w) (s.zs.get c))
        phase := .dec c .ac (k + acRun w + 1) dc }
  /-- The EOB token (R183). -/
  | decEnd (c : Chan) (k : Nat) (dc : Coef) (w : Word) (rest : List Word) (hp : s.phase = .dec c .ac k dc)
      (ht : s.tokIn = w :: rest) : EngineEffect s (complete { s with tokIn := rest, prevDc := s.prevDc.set c dc })
  /-- The reset step (R252). -/
  | reset (hp : s.phase = .reset) : EngineEffect s (resetStep s)

theorem Flags.orSat_false (f : Flags) : f.orSat false = f := by simp [Flags.orSat]

theorem exec_effect {s t : State} {w : Word} {i : Instr} (hp : s.phase = .exec w) (hd : decode w = .ok i)
    (h : exec i s = .next t) : EngineEffect s t := by
  cases i with
  | entEnc c => cases h; exact .encStart w c hp hd
  | entDec c => cases h; exact .decStart w c hp hd
  | cscInv =>
    have h' := h
    cases h
    exact .single w _ _ hp hd (by simp) h' ⟨_, s.rb, s.ib, s.zs, _, s.nanSeq, rfl, fun _ => .inl rfl⟩
  | quant c =>
    have h' := h
    cases h
    exact .single w _ _ hp hd (by simp) h' ⟨s.px, s.rb, _, s.zs, _, s.nanSeq, rfl, fun _ => .inr ⟨c, rfl⟩⟩
  | nop =>
    have h' := h
    cases h
    exact .single w _ _ hp hd (by simp) h'
      ⟨s.px, s.rb, s.ib, s.zs, false, s.nanSeq, by rw [Flags.orSat_false]; rfl, by simp⟩
  | dcReset =>
    have h' := h
    cases h
    exact .single w _ _ hp hd (by simp) h'
      ⟨s.px, s.rb, s.ib, s.zs, false, s.nanSeq, by rw [Flags.orSat_false]; rfl, by simp⟩
  | cscFwd | dequant c =>
    have h' := h
    cases h
    exact .single w _ _ hp hd (by simp) h'
      ⟨s.px, _, s.ib, s.zs, false, s.nanSeq, by rw [Flags.orSat_false]; rfl, by simp⟩
  | fdct c | idct c =>
    have h' := h
    cases h
    exact .single w _ _ hp hd (by simp) h'
      ⟨s.px, _, s.ib, s.zs, false, _, by rw [Flags.orSat_false]; rfl, by simp⟩
  | zzFlat c =>
    have h' := h
    cases h
    exact .single w _ _ hp hd (by simp) h'
      ⟨s.px, s.rb, s.ib, _, false, s.nanSeq, by rw [Flags.orSat_false]; rfl, by simp⟩
  | zzUnflat c =>
    have h' := h
    cases h
    exact .single w _ _ hp hd (by simp) h'
      ⟨s.px, s.rb, _, s.zs, false, s.nanSeq, by rw [Flags.orSat_false]; rfl, by simp⟩

theorem encStep_effect {s : State} {c : Chan} {p : List Word} {d : Coef} (hp : s.phase = .enc c p d) :
    EngineEffect s (encStep c p d s) := by
  cases p with
  | nil => exact .encEnd c d hp
  | cons w rest =>
    simp only [encStep]
    split
    · rename_i hf
      exact .none (by simp [State.engineEnabled, hp, hf])
    · rename_i hf
      exact .encPush c w rest d hp (by simpa [State.tokOutFull] using hf)

theorem decDcToken_effect {s : State} {c : Chan} {k : Nat} {d0 : Coef} {w : Word} {rest : List Word}
    (hp : s.phase = .dec c .dc k d0) (ht : s.tokIn = w :: rest) :
    EngineEffect s (decDcToken c w { s with tokIn := rest }) := by
  unfold decDcToken
  split
  · exact .decError c .dc k d0 w rest _ _ hp ht
  · split
    · exact .decError c .dc k d0 w rest _ _ hp ht
    · dsimp only
      split
      · exact .decError c .dc k d0 w rest _ _ hp ht
      · exact .decDc c k d0 _ w rest hp ht

theorem decAcToken_effect {s : State} {c : Chan} {k : Nat} {dc : Coef} {w : Word} {rest : List Word}
    (hp : s.phase = .dec c .ac k dc) (ht : s.tokIn = w :: rest) :
    EngineEffect s (decAcToken c k dc w { s with tokIn := rest }) := by
  unfold decAcToken
  split
  · exact .decError c .ac k dc w rest _ _ hp ht
  · split
    · exact .decError c .ac k dc w rest _ _ hp ht
    · split
      · exact .decEnd c k dc w rest hp ht
      · split
        · exact .decError c .ac k dc w rest _ _ hp ht
        · exact .decAc c k dc w rest hp ht (by omega)

theorem decStep_effect {s : State} {c : Chan} {st : Stage} {k : Nat} {dc : Coef} (hp : s.phase = .dec c st k dc) :
    EngineEffect s (decStep c st k dc s) := by
  unfold decStep
  split
  · rename_i he
    exact .none (by simp [State.engineEnabled, hp, he])
  · rename_i w rest ht
    cases st with
    | dc => exact decDcToken_effect hp ht
    | ac => exact decAcToken_effect hp ht

/-- Every engine turn that answers next is one of the effects. -/
theorem engineStep_effect {s t : State} (h : engineStep s = .next t) : EngineEffect s t := by
  unfold engineStep at h
  split at h
  · rename_i hp
    cases h
    exact .none (by simp [State.engineEnabled, hp])
  · rename_i w hp
    split at h
    · exact exec_effect hp ‹_› h
    · cases h
      exact .undecodable w _ hp ‹_›
  · cases h
    exact encStep_effect ‹_›
  · cases h
    exact decStep_effect ‹_›
  · cases h
    exact .reset ‹_›

/-- Every step that answers next takes one event off the schedule (none, if it is empty) and then has one of the
effects of that event. -/
theorem step_effect {s t : State} (h : step s = .next t) :
    s.cfg.wf = true ∧ ∃ rest, (rest = s.schedule.tail) ∧
      (EngineEffect { s with schedule := rest } t
      ∨ ∃ a u r, s.schedule = .host a :: rest ∧ HostEffect a { s with schedule := rest } u ∧ t = { u with resp := some r }) := by
  obtain ⟨hw, h⟩ := step_cases h
  refine ⟨hw, s.schedule.tail, rfl, ?_⟩
  rcases h with ⟨e, h⟩ | ⟨rest, e, h⟩ | ⟨a, rest, e, h⟩
  · left
    have hs : { s with schedule := s.schedule.tail } = s := by
      cases s
      simp only at e
      subst e
      rfl
    rw [hs]
    exact engineStep_effect h
  · left
    rw [e]
    exact engineStep_effect h
  · right
    rw [e]
    obtain ⟨u, r, hu, ht⟩ := hostAccess_effect h
    exact ⟨a, u, r, rfl, hu, ht⟩

end Sys2Proof.Machine
end

