-- ==== Sys2Proof/Laws/Entropy.lean ====
section
/-! SUPPORT. Token words read back (R85 to R87), the length of a token stream (R175), `Host.Core.run` in parts, the push steps, and what
ENT_DEC does with the AC tokens of a sequence (R172, R183). -/

namespace Sys2Proof.Machine

theorem acTok_fields (r : Nat) (v : Coef) :
    tokKind (acTok r v) = 1 ∧ acReserved (acTok r v) = 0 ∧ acRun (acTok r v) = r % 16 ∧ acValue (acTok r v) = v := by
  have := v.isLt
  refine ⟨?_, ?_, ?_, ?_⟩
  · apply BitVec.eq_of_toNat_eq
    rw [show (1 : BitVec 2).toNat = 1 from rfl]
    simp only [tokKind, acTok, BitVec.extractLsb'_toNat, BitVec.toNat_ofNat, Nat.shiftRight_eq_div_pow]
    omega
  · apply BitVec.eq_of_toNat_eq
    rw [show (0 : BitVec 10).toNat = 0 from rfl]
    simp only [acReserved, acTok, BitVec.extractLsb'_toNat, BitVec.toNat_ofNat, Nat.shiftRight_eq_div_pow]
    omega
  · simp only [acRun, acTok, BitVec.extractLsb'_toNat, BitVec.toNat_ofNat, Nat.shiftRight_eq_div_pow]
    omega
  · apply BitVec.eq_of_toNat_eq
    simp only [acValue, acTok, BitVec.extractLsb'_toNat, BitVec.toNat_ofNat, Nat.shiftRight_eq_div_pow]
    omega

theorem dcTok_fields {d : Int} (h1 : -8388608 ≤ d) (h2 : d < 8388608) :
    tokKind (dcTok d) = 0 ∧ dcReserved (dcTok d) = 0 ∧ dcDiff (dcTok d) = d := by
  have hlt := (BitVec.ofInt 24 d).isLt
  have hn : (dcTok d).toNat = (BitVec.ofInt 24 d).toNat := by
    simp only [dcTok, BitVec.toNat_setWidth]
    omega
  refine ⟨?_, ?_, ?_⟩
  · apply BitVec.eq_of_toNat_eq
    rw [show (0 : BitVec 2).toNat = 0 from rfl]
    simp only [tokKind, BitVec.extractLsb'_toNat, hn, Nat.shiftRight_eq_div_pow]
    omega
  · apply BitVec.eq_of_toNat_eq
    rw [show (0 : BitVec 6).toNat = 0 from rfl]
    simp only [dcReserved, BitVec.extractLsb'_toNat, hn, Nat.shiftRight_eq_div_pow]
    omega
  · have e : (dcTok d).extractLsb' 0 24 = BitVec.ofInt 24 d := by
      apply BitVec.eq_of_toNat_eq
      simp only [BitVec.extractLsb'_toNat, hn, Nat.shiftRight_eq_div_pow]
      omega
    rw [dcDiff, e, BitVec.toInt_ofInt, Int.bmod_def]
    split <;> omega

/-- At most one word for each coefficient, one for each zero of the run before them, and the EOB. -/
theorem acTokens_length_le (run : Nat) (l : List Coef) : (acTokens run l).length ≤ run + l.length + 1 := by
  induction l generalizing run with
  | nil => simp [acTokens]
  | cons v l ih =>
    simp only [acTokens]
    split
    · have := ih (run + 1)
      simp only [List.length_cons]
      omega
    · have := ih 0
      simp only [List.length_append, List.length_replicate, List.length_cons]
      omega

theorem acTokens_length_pos (run : Nat) (l : List Coef) : 1 ≤ (acTokens run l).length := by
  induction l generalizing run with
  | nil => simp [acTokens]
  | cons v l ih =>
    simp only [acTokens]
    split
    · exact ih (run + 1)
    · simp only [List.length_append, List.length_cons]
      omega

/-- The stream of a block has 2 to 65 words (R175). -/
theorem encTokens_length (prev : Coef) (z : Block Coef) :
    2 ≤ (encTokens prev z).length ∧ (encTokens prev z).length ≤ 65 := by
  have h1 := acTokens_length_le 0 z.toList.tail
  have h2 := acTokens_length_pos 0 z.toList.tail
  simp only [List.length_tail, Vector.length_toList] at h1
  simp only [encTokens, List.length_cons]
  omega

/-! ## Several steps -/

theorem run_add (M : Host.Core) (a b : Nat) (s : M.State) :
    M.run (a + b) s = match M.run a s with
      | .next t => M.run b t
      | .fault r => .fault r
      | .refused r => .refused r := by
  induction a generalizing s with
  | zero => simp [Host.Core.run]
  | succ a ih =>
    rw [Nat.succ_add]
    simp only [Host.Core.run]
    cases M.step s with
    | next t => exact ih t
    | fault r => rfl
    | refused r => rfl

theorem run_next {M : Host.Core} {a b : Nat} {s t u : M.State} (h1 : M.run a s = .next t) (h2 : M.run b t = .next u) :
    M.run (a + b) s = .next u := by
  rw [run_add, h1]
  exact h2

theorem run_one {s t : State} (h : step s = .next t) : Sys2Proof.core.run 1 s = .next t := by
  simp only [Host.Core.run, Sys2Proof.core, h]

/-! ## Words pushed -/

/-- The push steps of a silent host, as far as TOKQ_OUT has room: the first pending words end up there in order. -/
theorem run_pushes (pushed rest : List Word) {s : State} (hw : s.cfg.wf = true) (hs : s.schedule = []) {c : Chan}
    {d : Coef} (hp : s.phase = .enc c (pushed ++ rest) d) (hf : s.tokOut.length + pushed.length ≤ s.cfg.tokqDepth) :
    Sys2Proof.core.run pushed.length s = .next { s with tokOut := s.tokOut ++ pushed, phase := .enc c rest d } := by
  induction pushed generalizing s with
  | nil =>
    cases s
    subst hp
    simp only [List.append_nil, List.nil_append]
    rfl
  | cons w l ih =>
    simp only [List.length_cons] at hf ⊢
    have hroom : s.tokOutFull = false := decide_eq_false (by omega)
    have hstep : step s = .next { s with tokOut := s.tokOut ++ [w], phase := .enc c (l ++ rest) d } := by
      rw [step_silent hw hs]
      simp only [engineStep, hp, List.cons_append, encStep, hroom]
      rfl
    rw [Nat.add_comm]
    refine run_next (run_one hstep) ?_
    rw [ih (s := { s with tokOut := s.tokOut ++ [w], phase := .enc c (l ++ rest) d }) hw hs rfl
      (by simp only [List.length_append, List.length_singleton]; omega)]
    simp only [List.append_assoc, List.singleton_append]

/-! ## The AC tokens of a sequence, decoded -/

/-- One AC token step of a silent host, for a token that places a value. -/
theorem step_acToken {s : State} (hw : s.cfg.wf = true) (hs : s.schedule = []) {c : Chan} {k r : Nat} {v dc : Coef}
    {rest : List Word} (hp : s.phase = .dec c .ac k dc) (ht : s.tokIn = acTok r v :: rest) (hr : r < 16)
    (hn : ¬ (r = 0 ∧ v = 0)) (hk : k + r ≤ 63) :
    step s = .next { s with
      tokIn := rest, zs := s.zs.set c (placeRun k r v (s.zs.get c)), phase := .dec c .ac (k + r + 1) dc } := by
  obtain ⟨f1, f2, f3, f4⟩ := acTok_fields r v
  rw [Nat.mod_eq_of_lt hr] at f3
  rw [step_silent hw hs]
  simp only [engineStep, hp, decStep, ht, decAcToken, f1, f2, f3, f4]
  rw [if_neg (by decide), if_neg (by decide), if_neg hn, if_neg (by omega)]

theorem step_eobToken {s : State} (hw : s.cfg.wf = true) (hs : s.schedule = []) {c : Chan} {k : Nat} {dc : Coef}
    {rest : List Word} (hp : s.phase = .dec c .ac k dc) (ht : s.tokIn = eobTok :: rest) :
    step s = .next (complete { s with tokIn := rest, prevDc := s.prevDc.set c dc }) := by
  obtain ⟨f1, f2, f3, f4⟩ := acTok_fields 0 0
  rw [step_silent hw hs]
  simp only [engineStep, hp, decStep, ht, decAcToken, eobTok, f1, f2, f3, f4]
  rw [if_neg (by decide), if_neg (by decide), if_pos (by decide)]

/-- ZRL tokens over zeros move the cursor and nothing else. -/
theorem run_zrls (a : Nat) {s : State} (hw : s.cfg.wf = true) (hs : s.schedule = []) {c : Chan} {k : Nat} {dc : Coef}
    {rest : List Word} (hp : s.phase = .dec c .ac k dc) (ht : s.tokIn = List.replicate a zrlTok ++ rest)
    (hz : ∀ j : Fin 64, k ≤ j.val → (s.zs.get c)[j] = 0) (hk : k + 16 * a ≤ 63) :
    Sys2Proof.core.run a s = .next { s with tokIn := rest, phase := .dec c .ac (k + 16 * a) dc } := by
  induction a generalizing s k with
  | zero =>
    cases s
    simp only [List.replicate_zero, List.nil_append] at ht hp
    subst ht
    subst hp
    rfl
  | succ a ih =>
    rw [List.replicate_succ, List.cons_append] at ht
    have hstep := step_acToken hw hs hp (r := 15) (v := 0) ht (by decide) (by decide) (by omega)
    have hsame : placeRun k 15 0 (s.zs.get c) = s.zs.get c := by
      apply block_ext
      intro j
      simp only [placeRun, fin_getElem_tabulate]
      split
      · exact (hz j (by omega)).symm
      · split
        · exact (hz j (by omega)).symm
        · rfl
    rw [hsame, PerChan.set_get] at hstep
    rw [Nat.add_comm a 1]
    refine run_next (run_one hstep) ?_
    have h := ih (s := { s with tokIn := List.replicate a zrlTok ++ rest, phase := .dec c .ac (k + 15 + 1) dc }) hw hs
      rfl rfl (fun j hj => hz j (by omega)) (by omega)
    rw [show k + 16 * (1 + a) = k + 15 + 1 + 16 * a from by omega]
    exact h

/-- The AC tokens of the rest `l` of a sequence `z`, decoded from cursor `k`, `run` zeros of `z` before `l` still
unplaced: the buffer ends up as `z`, and the command completes. -/
theorem run_acTokens (l : List Coef) (z : Block Coef) {s : State} (hw : s.cfg.wf = true) (hs : s.schedule = [])
    {c : Chan} {k run : Nat} {dc : Coef} {rest : List Word} (hp : s.phase = .dec c .ac k dc)
    (ht : s.tokIn = acTokens run l ++ rest) (hlen : k + run + l.length = 64)
    (hlo : ∀ j : Fin 64, j.val < k → (s.zs.get c)[j] = z[j]) (hhi : ∀ j : Fin 64, k ≤ j.val → (s.zs.get c)[j] = 0)
    (hrun : ∀ j : Fin 64, k ≤ j.val → j.val < k + run → z[j] = 0)
    (hl : ∀ (i : Nat) (hi : i < l.length) (hj : k + run + i < 64), l[i] = z[(⟨k + run + i, hj⟩ : Fin 64)]) :
    Sys2Proof.core.run (acTokens run l).length s = .next (complete { s with
      tokIn := rest, zs := s.zs.set c z, prevDc := s.prevDc.set c dc }) := by
  induction l generalizing s k run with
  | nil =>
    simp only [List.length_nil, Nat.add_zero] at hlen
    have hz : s.zs.get c = z := by
      apply block_ext
      intro j
      by_cases h : j.val < k
      · exact hlo j h
      · rw [hhi j (by omega), hrun j (by omega) (by omega)]
    simp only [acTokens, List.cons_append, List.nil_append] at ht
    simp only [acTokens, List.length_cons, List.length_nil]
    rw [run_one (step_eobToken hw hs hp ht), ← hz, PerChan.set_get]
  | cons v l ih =>
    simp only [List.length_cons] at hlen
    have hv : v = z[(⟨k + run, by omega⟩ : Fin 64)] := hl 0 (by simp) (by omega)
    by_cases h0 : v = 0
    · simp only [acTokens, h0, if_true] at ht ⊢
      refine ih hw hs hp ht (by omega) hlo hhi (fun j h1 h2 => ?_) (fun i hi hj => ?_)
      · by_cases hjr : j.val < k + run
        · exact hrun j h1 hjr
        · have : j = ⟨k + run, by omega⟩ := Fin.ext (by simp only; omega)
          rw [this, ← hv, h0]
      · have := hl (i + 1) (by simpa using hi) (by omega)
        simp only [List.getElem_cons_succ] at this
        rw [this]
        congr 2
        omega
    · simp only [acTokens, h0, if_false] at ht ⊢
      rw [List.append_assoc, List.cons_append] at ht
      rw [List.length_append, List.length_replicate, List.length_cons, Nat.add_comm _ 1]
      refine run_next (run_zrls (run / 16) hw hs hp ht hhi (by omega)) ?_
      have hstep := step_acToken (s := { s with
          tokIn := acTok (run % 16) v :: (acTokens 0 l ++ rest), phase := .dec c .ac (k + 16 * (run / 16)) dc })
        hw hs rfl rfl (by omega) (fun h => h0 h.2) (by omega)
      refine run_next (run_one hstep) ?_
      have hk : k + 16 * (run / 16) + run % 16 = k + run := by omega
      have hget : ∀ j : Fin 64, (placeRun (k + 16 * (run / 16)) (run % 16) v (s.zs.get c))[j] =
          if j.val = k + run then v else if j.val < k then (s.zs.get c)[j] else 0 := by
        intro j
        simp only [placeRun, fin_getElem_tabulate, hk]
        split
        · rfl
        · split
          · rw [if_neg (by omega)]
          · split
            · rfl
            · exact hhi j (by omega)
      have hfin := ih (s := { s with
          tokIn := acTokens 0 l ++ rest
          zs := s.zs.set c (placeRun (k + 16 * (run / 16)) (run % 16) v (s.zs.get c))
          phase := .dec c .ac (k + 16 * (run / 16) + run % 16 + 1) dc }) (run := 0) hw hs rfl rfl (by omega)
        (fun j hj => by
          simp only [PerChan.get_set_self]
          rw [hget]
          split
          · rename_i e
            rw [hv]
            congr 1
            exact Fin.ext e.symm
          · split
            · exact hlo j ‹_›
            · exact (hrun j (by omega) (by omega)).symm)
        (fun j hj => by
          simp only [PerChan.get_set_self]
          rw [hget, if_neg (by omega), if_neg (by omega)])
        (fun j h1 h2 => absurd h2 (by omega))
        (fun i hi hj => by
          have := hl (i + 1) (by simpa using hi) (by omega)
          simp only [List.getElem_cons_succ] at this
          rw [this]
          congr 2
          omega)
      simp only [PerChan.set_set] at hfin
      exact hfin

end Sys2Proof.Machine
end

