-- ==== Sys2Proof/Laws/PerInstr.lean ====
section
/-! SUPPORT. Families of statements made instruction by instruction: about the command as syntax (R80 to R82).

`EncodeFields`: a command's word is below 2^10 (RSV = 0), its low byte is an OP of the opcode map whose row is the
command's own, and its CH field is the channel, never 3. -/

namespace Sys2Proof.Laws.EncodeFields

open Sys2Proof Sys2Proof.Machine

/-- The command is the entry of its own row of the opcode map. -/
def ownRow (i : Instr) : Prop :=
  match opRow i.op with
  | none => False
  | some (.noChannel j) => i = j ∧ i.ch = 0
  | some (.channel f) => ∃ c, i = f c ∧ i.ch = c.bits

def Statement (i : Instr) : Prop :=
  (encode i).toNat = i.op.toNat + 256 * i.ch.toNat ∧ (encode i).toNat < 1024 ∧ i.ch ≠ 3 ∧ ownRow i

theorem nop : Statement .nop := ⟨rfl, by decide, by decide, rfl, rfl⟩

theorem cscFwd : Statement .cscFwd := ⟨rfl, by decide, by decide, rfl, rfl⟩

theorem cscInv : Statement .cscInv := ⟨rfl, by decide, by decide, rfl, rfl⟩

theorem fdct (c : Chan) : Statement (.fdct c) := by
  cases c <;> exact ⟨rfl, by decide, by decide, _, rfl, rfl⟩

theorem idct (c : Chan) : Statement (.idct c) := by
  cases c <;> exact ⟨rfl, by decide, by decide, _, rfl, rfl⟩

theorem quant (c : Chan) : Statement (.quant c) := by
  cases c <;> exact ⟨rfl, by decide, by decide, _, rfl, rfl⟩

theorem dequant (c : Chan) : Statement (.dequant c) := by
  cases c <;> exact ⟨rfl, by decide, by decide, _, rfl, rfl⟩

theorem zzFlat (c : Chan) : Statement (.zzFlat c) := by
  cases c <;> exact ⟨rfl, by decide, by decide, _, rfl, rfl⟩

theorem zzUnflat (c : Chan) : Statement (.zzUnflat c) := by
  cases c <;> exact ⟨rfl, by decide, by decide, _, rfl, rfl⟩

theorem entEnc (c : Chan) : Statement (.entEnc c) := by
  cases c <;> exact ⟨rfl, by decide, by decide, _, rfl, rfl⟩

theorem entDec (c : Chan) : Statement (.entDec c) := by
  cases c <;> exact ⟨rfl, by decide, by decide, _, rfl, rfl⟩

theorem dcReset : Statement .dcReset := ⟨rfl, by decide, by decide, rfl, rfl⟩

end Sys2Proof.Laws.EncodeFields
end

