-- ==== Sys2Proof/Tests/Slice0.lean ====
section
/-! SUPPORT. The model's own tests. Expected values are the vectors of spec/95_test_vectors.md (their ids stand in
the comments), the tables and the examples of the rules, or read from the rules by hand. The last part shows, for every
statement with hypotheses, a state and operands that meet them. -/

namespace Sys2Proof.Tests

open Sys2Proof Sys2Proof.Machine

set_option Elab.async false

/-! ## Small states -/

/-- After power-on and the reset step (S2). -/
def idle : State := { State.reset with phase := .idle }

/-- A block with one element `x`, at `e`, and `d` elsewhere. -/
def single {α : Type} (d : α) (e : Fin 64) (x : α) : Block α := tabulate fun j => if j = e then x else d

/-- `idle` with RB[c]. -/
def withRb (c : Chan) (b : Block F64) : State := { idle with rb := idle.rb.set c b }

/-- `idle` with IB[c]. -/
def withIb (c : Chan) (b : Block Coef) : State := { idle with ib := idle.ib.set c b }

/-- `idle` with ZS[c]. -/
def withZs (c : Chan) (b : Block Coef) : State := { idle with zs := idle.zs.set c b }

/-- `P` holds of the next state. -/
def nextHas (o : Host.Outcome State Fault Refusal) (P : State → Bool) : Bool :=
  match o with
  | .next t => P t
  | .fault _ => false
  | .refused _ => false

/-- The command word `w` accepted in `s`. -/
def accepted (s : State) (w : Word) : State := { s with phase := .exec w, lastCmd := w }

/-- ENT_DEC Y in its AC stage, PREV_DC[0] = 0, DC value `dc`, cursor `k`. -/
def decoding (k : Nat) (dc : Coef) (toks : List Word) : State :=
  { idle with phase := .dec .y .ac k dc, lastCmd := 0x41, tokIn := toks }

/-- A second configuration: the smallest FIFO depth and the other tie rule. -/
def smallParams : Params := { defaultParams with tokqDepth := 65, roundTie := .halfEven, base := 0x2000 }

/-! ## WellFormed: each check refuses an ill-formed set -/

theorem test_default_params_wf : defaultParams.wf = true ∧ smallParams.wf = true := by decide +kernel

theorem test_wf_refuses_base : ({ defaultParams with base := 0x1000 } : Params).baseAligned = false
    ∧ ({ defaultParams with base := 0x1000 } : Params).wf = false := by decide +kernel

theorem test_wf_refuses_depth : ({ defaultParams with tokqDepth := 64 } : Params).depthInRange = false
    ∧ ({ defaultParams with tokqDepth := 64 } : Params).wf = false
    ∧ ({ defaultParams with tokqDepth := 65536 } : Params).wf = false := by decide +kernel

theorem test_wf_refuses_luma_entry : qtabInRange (single 16 63 0) = false
    ∧ ({ defaultParams with qtabLuma := single 16 63 0 } : Params).wf = false := by decide +kernel

theorem test_wf_refuses_chroma_entry : qtabInRange (single 17 0 256) = false
    ∧ ({ defaultParams with qtabChroma := single 17 0 256 } : Params).wf = false := by decide +kernel

theorem test_wf_refuses_zz_repeat : zzBijective (defaultZigzag.set 63 62) = false
    ∧ ({ defaultParams with zz := defaultZigzag.set 63 62 } : Params).wf = false := by decide +kernel

theorem test_wf_refuses_zz_start : zzStartsAtDc ((defaultZigzag.set 0 1).set 1 0) = false
    ∧ ({ defaultParams with zz := (defaultZigzag.set 0 1).set 1 0 } : Params).wf = false := by decide +kernel

/-- ZZ with its entries 1 and 3 (elements 1 and 16) exchanged leaves the anti-diagonal order. -/
theorem test_wf_refuses_zz_order : zzAntiDiagonal ((defaultZigzag.set 1 16).set 3 1) = false
    ∧ ({ defaultParams with zz := (defaultZigzag.set 1 16).set 3 1 } : Params).wf = false := by decide +kernel

/-! ## Decoding: words of R82, R93 and C2 to C8, written out from the fields OP = 7:0, CH = 9:8 -/

theorem test_decode_nop : decode 0b00000000000000000000000000000000 = .ok .nop := by decide

theorem test_decode_csc_fwd : decode 0b00000000000000000000000000000001 = .ok .cscFwd := by decide

theorem test_decode_csc_inv : decode 0b00000000000000000000000000000010 = .ok .cscInv := by decide

theorem test_decode_fdct : decode 0b00000000000000000000000000010000 = .ok (.fdct .y)
    ∧ decode 0b00000000000000000000000100010000 = .ok (.fdct .cb)
    ∧ decode 0b00000000000000000000001000010000 = .ok (.fdct .cr) := by decide

theorem test_decode_idct : decode 0b00000000000000000000000100010001 = .ok (.idct .cb) := by decide

theorem test_decode_quant : decode 0b00000000000000000000000100100000 = .ok (.quant .cb) := by decide

theorem test_decode_dequant : decode 0b00000000000000000000001000100001 = .ok (.dequant .cr) := by decide

theorem test_decode_zz_flat : decode 0b00000000000000000000000000110000 = .ok (.zzFlat .y) := by decide

theorem test_decode_zz_unflat : decode 0b00000000000000000000001000110001 = .ok (.zzUnflat .cr) := by decide

theorem test_decode_ent_enc : decode 0b00000000000000000000000101000000 = .ok (.entEnc .cb) := by decide

theorem test_decode_ent_dec : decode 0b00000000000000000000001001000001 = .ok (.entDec .cr) := by decide

theorem test_decode_dc_reset : decode 0b00000000000000000000000001000010 = .ok .dcReset := by decide

/-- C2 to C8. -/
theorem test_decode_rejects : decode 0x00000003 = .error .illegalOpcode ∧ decode 0x000003FF = .error .illegalOpcode
    ∧ decode 0x00000101 = .error .reservedField ∧ decode 0x00000310 = .error .reservedField
    ∧ decode 0x00000410 = .error .reservedField ∧ decode 0x80000000 = .error .reservedField
    ∧ decode 0x00000142 = .error .reservedField := by decide

/-- The `match` words of spec/opcode_table.json, one a row. -/
def tableWords : List (Nat × Instr) :=
  [(0x00, .nop), (0x01, .cscFwd), (0x02, .cscInv), (0x10, .fdct .y), (0x11, .idct .y), (0x20, .quant .y)] ++
  [(0x21, .dequant .y), (0x30, .zzFlat .y), (0x31, .zzUnflat .y), (0x40, .entEnc .y), (0x41, .entDec .y), (0x42, .dcReset)]

theorem test_table_words_decode :
    (tableWords.all fun p => decide (decodeTableWord 32 p.1 = some p.2)) = true := by decide +kernel

/-- Every row of the table runs as the first instruction after power-on. -/
theorem test_table_words_run :
    (tableWords.all fun p => nextHas (step (State.reset.withFetchWord 32 p.1)) fun _ => true) = true := by
  decide +kernel

theorem test_encode_words : encode (.fdct .cr) = 0x210 ∧ encode (.entEnc .cb) = 0x140 ∧ encode .dcReset = 0x42 := by
  decide

/-! ## Tables -/

/-- R120: T[m] for m = 0..7, and signs of row 3 of COS. -/
theorem test_cosine_table :
    (cosTab 0 0 = 0x3FF0000000000000 ∧ cosTab 1 0 = 0x3FEF6297CFF75CB0 ∧ cosTab 2 0 = 0x3FED906BCF328D46
      ∧ cosTab 3 0 = 0x3FEA9B66290EA1A3 ∧ cosTab 4 0 = 0x3FE6A09E667F3BCD ∧ cosTab 5 0 = 0x3FE1C73B39AE68C8
      ∧ cosTab 6 0 = 0x3FD87DE2A6AEA963 ∧ cosTab 7 0 = 0x3FC8F8B83C69A60B)
    ∧ (cosTab 3 1 = f64Neg (cosTab 7 0) ∧ cosTab 3 2 = f64Neg (cosTab 1 0) ∧ cosTab 3 3 = f64Neg (cosTab 5 0)
      ∧ cosTab 3 4 = cosTab 5 0 ∧ cosTab 3 5 = cosTab 1 0 ∧ cosTab 3 6 = cosTab 7 0
      ∧ cosTab 3 7 = f64Neg (cosTab 3 0)) := by decide +kernel

/-- The table reads of 95_test_vectors.md §2.3, and M6's CFG. -/
theorem test_constant_reads : targetValue (targetOf 0x200) idle = 16 ∧ targetValue (targetOf 0x2FC) idle = 99
    ∧ targetValue (targetOf 0x300) idle = 17 ∧ targetValue (targetOf 0x314) idle = 99
    ∧ targetValue (targetOf 0x008) idle = 0x000E0080 := by decide +kernel

/-! ## Commands -/

/-- R200's example, C1. -/
theorem test_nop : nextHas (step (accepted idle 0x00000000)) (fun t => statusWord t == 0x00000002) = true := by
  decide +kernel

/-- K3. -/
theorem test_csc_fwd_red : nextHas (exec .cscFwd { idle with px := single ⟨0, 0, 0⟩ 5 ⟨255, 0, 0⟩ }) (fun t =>
    t.rb.y[5] == 0xC049E0A3D70A3D72 && t.rb.cb[5] == 0xC045838B04AB606C && t.rb.cr[5] == 0x405FE00000000000)
    = true := by decide +kernel

/-- K7: the two roundings of the chroma offset. -/
theorem test_csc_fwd_two_roundings : nextHas (exec .cscFwd { idle with px := single ⟨0, 0, 0⟩ 0 ⟨1, 2, 3⟩ }) (fun t =>
    t.rb.y[0] == 0xC05F8BD70A3D70A4 && t.rb.cb[0] == 0x3FE566490A350D00 && t.rb.cr[0] == 0xBFE29A1B9F98B700)
    = true := by decide +kernel

/-- K14: RB[2][e] = 100.0 gives (255, 57, 128). -/
theorem test_csc_inv_clamps : nextHas (exec .cscInv (withRb .cr (single 0 9 0x4059000000000000))) (fun t =>
    t.px[9] == ⟨255, 57, 128⟩ && t.flags.done) = true := by decide +kernel

/-- K18: a NaN gives 0 and sets SAT. -/
theorem test_csc_inv_nan : nextHas (exec .cscInv (withRb .y (single 0 0 0x7FF8000000000000))) (fun t =>
    t.px[0] == ⟨0, 0, 0⟩ && t.flags.sat) = true := by decide +kernel

/-- T5: the impulse. -/
theorem test_fdct_impulse : nextHas (exec (.fdct .cb) (withRb .cb (single 0 0 0x3FF0000000000000))) (fun t =>
    t.rb.cb[0] == 0x3FC0000000000001 && t.rb.cb[1] == 0x3FC63150B15E8536 && t.rb.cb[9] == 0x3FCEC835E79946A3
      && t.rb.cb[63] == 0x3F837CA1866B95CF) = true := by decide +kernel

/-- T1: the order of the additions and the scale of the DC term. -/
theorem test_fdct_flat : nextHas (exec (.fdct .y) (withRb .y (Vector.replicate 64 0x3FF0000000000000))) (fun t =>
    t.rb.y[0] == 0x4020000000000001) = true := by decide +kernel

/-- T6: RB[c][0] = 8.0 gives 1.0000000000000002. -/
theorem test_idct_dc : nextHas (exec (.idct .cr) (withRb .cr (single 0 0 0x4020000000000000))) (fun t =>
    t.rb.cr[0] == 0x3FF0000000000001 && t.rb.cr[63] == 0x3FF0000000000001) = true := by decide +kernel

/-- T8: RB[c][1] = 10.0: element [0][0] positive, [0][7] its negative, [7][0] the same as [0][0]. -/
theorem test_idct_orientation : nextHas (exec (.idct .y) (withRb .y (single 0 1 0x4024000000000000))) (fun t =>
    t.rb.y[0] == 0x3FFBBDA4DDB62683 && t.rb.y[7] == 0xBFFBBDA4DDB62683 && t.rb.y[56] == 0x3FFBBDA4DDB62683)
    = true := by decide +kernel

/-- Q4: 40.0 / 16 = 2.5 is 3 away from zero, 2 to even. -/
theorem test_quant_tie : nextHas (exec (.quant .y) (withRb .y (single 0 0 0x4044000000000000))) (fun t =>
      t.ib.y[0] == 3 && !t.flags.sat) = true
    ∧ nextHas (exec (.quant .y) { withRb .y (single 0 0 0x4044000000000000) with cfg := smallParams }) (fun t =>
      t.ib.y[0] == 2 && !t.flags.sat) = true := by decide +kernel

/-- Q6 and Q8: saturation and infinity. -/
theorem test_quant_saturates : nextHas (exec (.quant .y) (withRb .y (single 0 0 0xC12E848000000000))) (fun t =>
      t.ib.y[0] == 0x8000 && t.flags.sat) = true
    ∧ nextHas (exec (.quant .cb) (withRb .cb (single 0 5 0x7FF0000000000000))) (fun t =>
      t.ib.cb[5] == 32767 && t.flags.sat) = true := by decide +kernel

/-- Q20: −32768 times 17. -/
theorem test_dequant_chroma : nextHas (exec (.dequant .cb) (withIb .cb (single 0 0 0x8000))) (fun t =>
    t.rb.cb[0] == 0xC121000000000000 && t.rb.cb[1] == 0) = true := by decide +kernel

/-- Q22: −3 times 11 is −33.0. -/
theorem test_dequant_luma : nextHas (exec (.dequant .y) (withIb .y (single 0 1 0xFFFD))) (fun t =>
    t.rb.y[1] == 0xC040800000000000) = true := by decide +kernel

/-- Z3 and Z5: element [1][0] is at position 2, element [3][0] at position 9. -/
theorem test_zz_flat : nextHas (exec (.zzFlat .cr) (withIb .cr (single 0 8 3))) (fun t => t.zs.cr[2] == 3) = true
    ∧ nextHas (exec (.zzFlat .cr) (withIb .cr (single 0 24 1))) (fun t => t.zs.cr[9] == 1) = true := by decide +kernel

/-- Z2: ZS[c][i] = i gives ZZINV; row 0 ends in 28, row 7 starts with 35. -/
theorem test_zz_unflat : nextHas (exec (.zzUnflat .y) (withZs .y (tabulate fun i => BitVec.ofNat 16 i.val))) (fun t =>
    t.ib.y[1] == 1 && t.ib.y[2] == 5 && t.ib.y[7] == 28 && t.ib.y[8] == 2 && t.ib.y[56] == 35 && t.ib.y[63] == 63)
    = true := by decide +kernel

/-- E9: PREV_DC = 100, ZS[33] = −5, ZS[50] = 9. -/
theorem test_ent_enc_runs : nextHas (exec (.entEnc .cb)
      { withZs .cb ((single 0 33 0xFFFB).set 50 9) with prevDc := ⟨0, 100, 0⟩ }) (fun t =>
    t.phase == .enc .cb ([0x00FFFF9C, 0x400F0000, 0x400F0000, 0x4000FFFB, 0x400F0000, 0x40000009, 0x40000000]) 0
      && t.prevDc == ⟨0, 100, 0⟩) = true := by decide +kernel

/-- E7: the most negative difference. -/
theorem test_ent_enc_difference : nextHas (exec (.entEnc .y)
      { withZs .y (((single 0 0 0x8000).set 1 0x8000).set 2 0x7FFF) with prevDc := ⟨0x7FFF, 0, 0⟩ }) (fun t =>
    t.phase == .enc .y ([0x00FF0001, 0x40008000, 0x40007FFF, 0x40000000]) 0x8000) = true := by decide +kernel

/-- D1: the token (3, 0) moves the cursor by 4 and writes nothing but zeros; then (0, 5) lands at 5. -/
theorem test_ent_dec_zero_run :
    nextHas (step (decoding 1 0 ([0x40030000, 0x40000005]))) (fun t => t.phase == .dec .y .ac 5 0 && t.zs.y[1] == 0)
      = true
    ∧ nextHas (step (decoding 5 0 ([0x40000005]))) (fun t => t.phase == .dec .y .ac 6 0 && t.zs.y[5] == 5) = true := by
  decide +kernel

/-- D4 and R183: the DC range error at 32768, and the overrun at cursor 64. -/
theorem test_ent_dec_errors :
    nextHas (step { idle with
        phase := .dec .y .dc 1 0, lastCmd := 0x41, tokIn := [0x00000001], prevDc := ⟨0x7FFF, 0, 0⟩ }) (fun t =>
      errInfoWord t.errInfo == 0x00004112 && statusWord t == 0x4 && t.prevDc.y == 0x7FFF && t.tokIn == []) = true
    ∧ nextHas (step (decoding 64 0 ([0x40000001]))) (fun t =>
      errInfoWord t.errInfo == 0x01004111 && t.phase == .idle) = true := by decide +kernel

/-- R188's example. -/
theorem test_dc_reset : nextHas (exec .dcReset { idle with prevDc := ⟨5, 0xFFFD, 7⟩ }) (fun t =>
    t.prevDc == ⟨0, 0, 0⟩ && t.flags.done) = true := by decide +kernel

/-! ## Host accesses -/

/-- C3: ERRINFO 0x0003FF01. -/
theorem test_cmd_illegal : nextHas (step (idle.onWrite 0x014 0x000003FF)) (fun t =>
    statusWord t == 0x4 && errInfoWord t.errInfo == 0x0003FF01 && t.lastCmd == 0x000003FF && t.phase == .idle)
    = true := by decide +kernel

/-- C10: any word while ERR = 1 is dropped, STATUS 0x84. -/
theorem test_cmd_dropped : nextHas (step (({ idle with flags := idle.flags.setErr } : State).onWrite 0x014 0)) (fun t =>
    statusWord t == 0x84 && t.lastCmd == 0) = true := by decide +kernel

/-- M1b, M2, M9. -/
theorem test_writes : nextHas (step (idle.onWrite 0x404 0x0000FFFF)) (fun t =>
      targetValue (targetOf 0x404) t == 0xFFFFFFFF) = true
    ∧ nextHas (step (idle.onWrite 0x100 0xFF332211)) (fun t =>
      t.px[0] == ⟨0x11, 0x22, 0x33⟩ && targetValue (targetOf 0x100) t == 0x00332211) = true
    ∧ nextHas (step (idle.onWrite 0x02C 0x0001FFFF)) (fun t =>
      t.prevDc.cb == 0xFFFF && targetValue (targetOf 0x02C) t == 0xFFFFFFFF) = true := by decide +kernel

/-- M3b: a signalling NaN is stored word by word. -/
theorem test_real_words : nextHas (step ((withRb .cb (single 0 1 0x0000000000000001)).onWrite 0x120C 0x7FF00000)) (fun t =>
    t.rb.cb[1] == 0x7FF0000000000001 && targetValue (targetOf 0x1208) t == 1) = true := by decide +kernel

/-- M4 and M7. -/
theorem test_refused_and_empty : nextHas (step (idle.onRead 0x102)) (fun t =>
      t.flags.accErr && t.resp == some (.read 0 .error)) = true
    ∧ nextHas (step (idle.onRead 0x01C)) (fun t => t.flags.accErr && t.resp == some (.read 0xFFFFFFFF .okay)) = true := by
  decide +kernel

/-- M12 and M13. -/
theorem test_ctrl_and_status_writes :
    nextHas (step ((decoding 1 0 ([])).onWrite 0x00C 0x205)) (fun t =>
      t.flags.accErr && ctrlWord t.ctrl == 0x5 && t.phase == .dec .y .ac 1 0) = true
    ∧ nextHas (step (({ idle with flags := ⟨true, true, true, true, true⟩ } : State).onWrite 0x010 0xFF)) (fun t =>
      statusWord t == 0) = true := by decide +kernel

/-- S1 and S3. -/
theorem test_reset_behaviour : nextHas (step (State.reset.onRead 0x100)) (fun t =>
      t.resp == some (.read 0 .error) && !t.flags.accErr && statusWord t == 1) = true
    ∧ nextHas (step ((decoding 3 0 ([])).onWrite 0x00C 0x100)) (fun t =>
      statusWord t == 1 && t.phase == .reset && t.lastCmd == 0) = true := by decide +kernel

/-- R53: the bytes of a real element, in increasing offset, are its little-endian encoding. -/
theorem test_byte_order : readByte (withRb .cb (single 0 1 0x1122334455667788)) 0x1208 = 0x88
    ∧ readByte (withRb .cb (single 0 1 0x1122334455667788)) 0x120F = 0x11 := by decide +kernel

/-! ## Witnesses: the hypotheses of each statement are met -/

theorem idle_wf : idle.cfg.wf = true := by decide +kernel

/-- StepRunsTheDecodedCommand: all of its premises at once. -/
theorem witness_StepRunsTheDecodedCommand :
    (accepted idle 0x241).cfg.wf = true ∧ decode 0x241 = .ok (.entDec .cr)
    ∧ (accepted idle 0x241).phase = .exec 0x241 ∧ (accepted idle 0x241).schedule = [] := by decide +kernel

/-- EngineHoldsOnlyIdleOrWaiting: idle, held in DEC, held in ENC, and not held. -/
theorem witness_EngineHoldsOnlyIdleOrWaiting : idle.cfg.wf = true ∧ idle.engineEnabled = false
    ∧ (decoding 1 0 ([])).engineEnabled = false ∧ (decoding 1 0 ([])).waitIn = true
    ∧ ({ idle with phase := .enc .y ([0x40000000]) 0, tokOut := List.replicate 128 0 } : State).waitOut = true
    ∧ ({ idle with phase := .enc .y ([0x40000000]) 0, tokOut := List.replicate 127 0 } : State).engineEnabled = true := by
  decide +kernel

/-- CommandIssue: one state for each clause. -/
theorem witness_CommandIssue : State.reset.cfg.wf = true ∧ State.reset.phase = .reset
    ∧ ((accepted idle 0).phase ≠ .reset ∧ (accepted idle 0).phase ≠ .idle)
    ∧ (idle.phase ≠ .reset ∧ ({ idle with flags := idle.flags.setErr } : State).flags.err = true)
    ∧ (idle.phase = .idle ∧ idle.flags.err = false ∧ decode 0x3 = .error .illegalOpcode
      ∧ decode 0x410 = .error .reservedField ∧ decode 0x242 = .error .reservedField)
    ∧ decode 0x42 = .ok .dcReset := by decide +kernel

theorem witness_SingleStepCommandsComplete :
    (∀ c, Instr.quant .cr ≠ .entEnc c) ∧ (∀ c, Instr.quant .cr ≠ .entDec c)
    ∧ (accepted idle (encode (.quant .cr))).cfg.wf = true
    ∧ (accepted idle (encode (.quant .cr))).phase = .exec (encode (.quant .cr)) :=
  ⟨by simp, by simp, by decide +kernel, rfl⟩

/-- OutsideTheApertureFaults: one below BASE, and the first address past the end. -/
theorem witness_OutsideTheApertureFaults : ({ idle with cfg := smallParams } : State).cfg.wf = true
    ∧ 0x1FFF < smallParams.base ∧ smallParams.base + 0x2000 ≤ 0x4000 ∧ idle.cfg.base + 0x2000 ≤ 0x2000 := by
  decide +kernel

theorem witness_OnlyConfigurationsRun :
    ({ idle with cfg := { defaultParams with tokqDepth := 64 } } : State).cfg.wf = false := by decide +kernel

theorem small_reset_inv : (State.powerOn smallParams).Inv :=
  ⟨by decide +kernel, by decide, by decide, by decide, by decide, rfl⟩

theorem witness_ResetStepLeavesReset : (State.powerOn smallParams).cfg.wf = true
    ∧ (State.powerOn smallParams).phase = .reset ∧ (State.powerOn smallParams).Inv :=
  ⟨by decide +kernel, rfl, small_reset_inv⟩

/-- SoftResetClearsEverything and ControlRegister, the clause of a soft reset, in and out of RESET. -/
theorem witness_SoftResetClearsEverything : idle.cfg.wf = true ∧ (0x100 : Word).getLsbD 8 = true
    ∧ State.reset.phase = .reset ∧ (decoding 1 0 ([])).phase ≠ .reset ∧ inBuffer 0x100 ∧ inBuffer 0x15FF := by
  refine ⟨idle_wf, by decide, rfl, by decide, ?_, ?_⟩
  · exact (inBuffer_iff _).2 (by decide)
  · exact (inBuffer_iff _).2 (by decide)

/-- AccessesDuringReset: the ends of the ranges of its clauses. -/
theorem witness_AccessesDuringReset : (State.powerOn smallParams).Inv ∧ (State.powerOn smallParams).phase = .reset
    ∧ (inBuffer 0x1FC ∧ inBuffer 0x400 ∧ inBuffer 0xAFC ∧ inBuffer 0x1000 ∧ inBuffer 0x15FC)
    ∧ (inRange 0x028 12 0x028 ∧ inRange 0x028 12 0x030)
    ∧ (inReserved 0x034 ∧ inReserved 0x0FC ∧ inReserved 0x700 ∧ inReserved 0xFFC ∧ inReserved 0x1FFC)
    ∧ 0x2FC = 0x0200 + 4 * (63 : Fin 64).val ∧ 0x300 = 0x0300 + 4 * (0 : Fin 64).val ∧ 0x1FFC < 0x2000 := by
  simp only [inBuffer_iff]
  exact ⟨small_reset_inv, rfl, ⟨by decide, by decide, by decide, by decide, by decide⟩, by decide, by decide, by decide,
    by decide, by decide⟩

theorem witness_MisalignedOrNarrowAccessRefused : idle.cfg.wf = true ∧ State.reset.cfg.wf = true
    ∧ (0x1FFF < 0x2000 ∧ 0x1FFF % 4 ≠ 0) ∧ (0x1FFC < 0x2000 ∧ 0x1FFC % 4 = 0 ∧ 16 ≠ 32) := by decide +kernel

/-- BuffersLockedWhileBusy: a busy state and a reset one at both ends of the buffers, and both ways of its last clause. -/
theorem witness_BuffersLockedWhileBusy : idle.cfg.wf = true ∧ inBuffer 0x100 ∧ inBuffer 0x15FC
    ∧ ((accepted idle 0).phase ≠ .idle ∧ (accepted idle 0).phase ≠ .reset ∧ State.reset.phase ≠ .idle)
    ∧ (¬ inBuffer 0x0FC ∧ ¬ inBuffer 0x200 ∧ ¬ inBuffer 0x1600) ∧ idle.phase = .idle := by
  simp only [inBuffer_iff]
  exact ⟨idle_wf, by decide, by decide, by decide, by decide, rfl⟩

/-- The element accesses: PixelElementAccess, IntegerElementAccess, RealElementAccess; also the premise of
IdentityAndConfigurationRegisters and ErrorInfoRegister. -/
theorem witness_ElementAccess : idle.cfg.wf = true ∧ idle.phase = .idle := ⟨idle_wf, rfl⟩

/-- ReservedAndReadOnly: the ends of the ranges of its clauses. -/
theorem witness_ReservedAndReadOnly : idle.cfg.wf = true
    ∧ (inReserved 0x034 ∧ inReserved 0x0FC ∧ inReserved 0x7FC ∧ inReserved 0xB00 ∧ inReserved 0x1600 ∧ inReserved 0x1FFC)
    ∧ (inRange 0x0200 0x200 0x200 ∧ inRange 0x0200 0x200 0x3FC) ∧ 0x3FC % 4 = 0 := by decide +kernel

/-- StatusRegister, TokenOutPort, DcPredictorAccess: in RESET, idle, and busy; the FIFO at its depth. -/
theorem witness_RegisterAccess : State.reset.cfg.wf = true ∧ State.reset.phase = .reset ∧ idle.phase ≠ .reset
    ∧ ((decoding 1 0 ([])).phase ≠ .idle ∧ (decoding 1 0 ([])).phase ≠ .reset)
    ∧ ({ idle with tokOut := List.replicate 128 0 } : State).tokOut.length ≤ idle.cfg.tokqDepth
    ∧ ({ idle with tokOut := [0x40000000] } : State).tokOut = 0x40000000 :: [] ∧ idle.tokOut = [] := by decide +kernel

/-- ControlRegister: each clause of a write without SOFT_RESET. -/
theorem witness_ControlRegister : (0x007 : Word).getLsbD 8 = false ∧ (0x007 : Word).getLsbD 9 = false
    ∧ (0x205 : Word).getLsbD 8 = false ∧ (0x205 : Word).getLsbD 9 = true
    ∧ idle.phase = .idle ∧ (decoding 1 0 ([])).phase ≠ .idle ∧ (decoding 1 0 ([])).phase ≠ .reset := by decide +kernel

/-- TokenInPort: a full FIFO and one with a place left. -/
theorem witness_TokenInPort : ({ idle with tokIn := List.replicate 128 0 } : State).tokIn.length = idle.cfg.tokqDepth
    ∧ ({ idle with tokIn := List.replicate 127 0 } : State).tokIn.length ≠ idle.cfg.tokqDepth
    ∧ ({ idle with tokIn := List.replicate 127 0 } : State).tokIn.length ≤ idle.cfg.tokqDepth := by decide +kernel

theorem idle_inv : idle.Inv := ⟨by decide +kernel, by decide, by decide, by decide, by decide, trivial⟩

/-- The invariant is met by a running ENT_DEC too, with its cursor past the last position. -/
theorem decoding_inv : (decoding 64 0 ([0x40000000])).Inv :=
  ⟨by decide +kernel, by decide, by decide, by decide, by decide, by
    refine ⟨by decide, by decide, by decide, by decide +kernel, fun j h => ?_⟩
    omega⟩

/-- TokenQueueStatus. -/
theorem witness_TokenQueueStatus : idle.Inv ∧ (decoding 64 0 ([0x40000000])).Inv := ⟨idle_inv, decoding_inv⟩

/-- ErrorInfoRegister's last clause: a step that changes ERRINFO. -/
theorem witness_ErrorInfoRegister : nextHas (step (idle.onWrite 0x014 0x3)) (fun t => t.errInfo != idle.errInfo) = true := by
  decide +kernel

/-- HostCannotDisturbACommand: a busy state whose host access answers next. -/
theorem witness_HostCannotDisturbACommand : (accepted idle 0).phase ≠ .idle
    ∧ nextHas (step ((accepted idle 0).onBus (.write 0x00C 32 0x7))) (fun _ => true) = true := by decide +kernel

/-- ForwardTransform, InverseTransform and TransformOfZerosAndNaN: a REF64 state, a block of zeros of both signs, and one
with a NaN; and an ABSTRACT state. -/
theorem witness_Transforms : idle.cfg.dctNumerics = .ref64
    ∧ ({ defaultParams with dctNumerics := .abstract } : Params).dctNumerics = .abstract
    ∧ (∀ e : Fin 64, ((withRb .y (single 0 7 0x8000000000000000)).rb.get .y)[e] = 0
        ∨ ((withRb .y (single 0 7 0x8000000000000000)).rb.get .y)[e] = 0x8000000000000000)
    ∧ f64IsNaN ((withRb .y (single 0 5 0x7FF8000000000000)).rb.get .y)[(5 : Fin 64)] = true := by decide +kernel

/-- AbstractTransformsMeetTheBound: a block within the magnitudes of its clauses. -/
theorem witness_AbstractTransformsMeetTheBound : blockBoundedBy (idle.rb.get .y) (2 ^ 7)
    ∧ blockBoundedBy (idle.rb.get .y) (2 ^ 11) := by
  have h : ∀ e : Fin 64, (idle.rb.get .y)[e] = 0 := getElem_powerOn_rb defaultParams .y
  have hv : f64Val 0 = 0 := by decide
  constructor <;> intro e <;> rw [h e, f64Real, hv] <;> exact ⟨by decide, by simp⟩

/-- DequantizeIsExact, ZigzagUnflatten, ZigzagRoundTrips: a well-formed configuration; the operands are free. -/
theorem witness_wf : smallParams.wf = true := by decide +kernel

/-- OnlyOperandBytesChange: bytes outside each command's written operand. -/
theorem witness_OnlyOperandBytesChange : nextHas (exec (.fdct .cb) idle) (fun _ => true) = true
    ∧ ¬ inStatus 0x11FF ∧ ¬ writtenBytes (.fdct .cb) 0x11FF ∧ ¬ writtenBytes (.fdct .cb) 0x1400
    ∧ ¬ writtenBytes .dcReset 0x034 ∧ ¬ inStatus 0x014 := by
  refine ⟨by decide +kernel, by decide, ?_, ?_, ?_, by decide⟩ <;> simp [writtenBytes, chanNum]

/-- ResultDependsOnlyOnOperands: two different states that agree on what a command reads. -/
theorem witness_ResultDependsOnlyOnOperands : readsAgree (.zzFlat .y) idle (withRb .y (single 0 0 1))
    ∧ nextHas (exec (.zzFlat .y) idle) (fun _ => true) = true ∧ idle ≠ withRb .y (single 0 0 1)
    ∧ idle.flags.sat = (withRb .y (single 0 0 1)).flags.sat ∧ idle.flags.done = (withRb .y (single 0 0 1)).flags.done := by
  refine ⟨⟨rfl, rfl, rfl⟩, by decide +kernel, by decide +kernel, rfl, rfl⟩

/-- SaturationComesFromQuantOrCscInv: a step that sets SAT. -/
theorem witness_SaturationComesFromQuantOrCscInv :
    nextHas (step (accepted (withRb .y (single 0 0 0x7FF0000000000000)) 0x20)) (fun t => t.flags.sat) = true
    ∧ (accepted (withRb .y (single 0 0 0x7FF0000000000000)) 0x20).flags.sat = false := by decide +kernel

/-- PredictorWriters: one step for each of its five cases. -/
theorem witness_PredictorWriters :
    nextHas (step { idle with phase := .enc .cb ([]) 5 }) (fun t => t.prevDc.cb == 5) = true
    ∧ nextHas (step (decoding 64 7 ([0x40000000]))) (fun t => t.prevDc.y == 7) = true
    ∧ nextHas (step { accepted idle 0x42 with prevDc := ⟨1, 0, 0⟩ }) (fun t => t.prevDc.y == 0) = true
    ∧ nextHas (step (idle.onWrite 0x030 9)) (fun t => t.prevDc.cr == 9) = true
    ∧ nextHas (step (({ idle with prevDc := ⟨1, 0, 0⟩ } : State).onWrite 0x00C 0x100)) (fun t => t.prevDc.y == 0)
      = true := by decide +kernel

/-- RintIsNearest and ArithmeticRoundsToNearestEven: finite operands, a tie and a nonzero divisor. -/
theorem witness_Arithmetic : f64IsFinite 0x4004000000000000 = true ∧ f64Rint .halfAway 0x4004000000000000 = 3
    ∧ f64Rint .halfEven 0x4004000000000000 = 2 ∧ f64IsFinite 0x7FEFFFFFFFFFFFFF = true
    ∧ f64Val 0x0000000000000001 ≠ 0 ∧ f64Add 0x7FEFFFFFFFFFFFFF 0x7FEFFFFFFFFFFFFF = 0x7FF0000000000000 := by
  decide +kernel

/-- ArithmeticRoundsToNearestEven: infinite, zero and NaN operands, and results IEEE 754 fixes for them (R13, R129). -/
theorem witness_ArithmeticSpecials :
    (f64IsInf 0x7FF0000000000000 = true ∧ f64IsInf 0xFFF0000000000000 = true ∧ f64IsNaN 0x7FF8000000000000 = true
      ∧ f64Val 0x8000000000000000 = 0)
    ∧ (f64Add 0xFFEFFFFFFFFFFFFF 0xFFEFFFFFFFFFFFFF = 0xFFF0000000000000
      ∧ f64Mul 0x8000000000000001 0x0000000000000001 = 0x8000000000000000
      ∧ f64Sub 0x3FF0000000000000 0x3FF0000000000000 = 0 ∧ f64Add 0x8000000000000000 0x8000000000000000 = 0x8000000000000000
      ∧ f64Div 0x3FF0000000000000 0x8000000000000000 = 0xFFF0000000000000
      ∧ f64IsNaN (f64Sub 0x7FF0000000000000 0x7FF0000000000000) = true
      ∧ f64IsNaN (f64Mul 0x0000000000000000 0xFFF0000000000000) = true) := by decide +kernel

/-- EncodePushHoldAndEnd: room for one word, no room, and nothing left to push. -/
theorem witness_EncodePushHoldAndEnd :
    ({ idle with phase := .enc .y ([0x40000000]) 0, tokOut := List.replicate 127 0 } : State).tokOut.length
      < idle.cfg.tokqDepth
    ∧ ({ idle with phase := .enc .y ([0x40000000]) 0, tokOut := List.replicate 128 0 } : State).tokOut.length
      = idle.cfg.tokqDepth
    ∧ ({ idle with phase := .enc .y ([]) 5 } : State).phase = .enc .y ([]) 5 := by decide +kernel

/-- EncodeRunsToCompletion: TOKQ_OUT with exactly the room for the two words of an all-zero sequence. -/
theorem witness_EncodeRunsToCompletion :
    ({ accepted idle (encode (.entEnc .y)) with tokOut := List.replicate 126 0 } : State).tokOut.length
      + (encTokens (idle.prevDc.get .y) (idle.zs.get .y)).length ≤ idle.cfg.tokqDepth
    ∧ (accepted idle (encode (.entEnc .y))).schedule = [] := by decide +kernel

/-- DecodeTokenCheck: KIND 1 and a reserved bit in stage DC, KIND 0 and a reserved bit in stage AC, cursor 64. -/
theorem witness_DecodeTokenCheck :
    (0x40000000 : Word).toNat / 2 ^ 30 ≠ 0
    ∧ ((0x01000000 : Word).toNat / 2 ^ 30 = 0 ∧ (0x01000000 : Word).toNat / 2 ^ 24 % 64 ≠ 0)
    ∧ (0x00000000 : Word).toNat / 2 ^ 30 ≠ 1
    ∧ ((0x40100001 : Word).toNat / 2 ^ 30 = 1 ∧ (0x40100001 : Word).toNat / 2 ^ 20 % 1024 ≠ 0)
    ∧ (decoding 64 0 ([0x40100001])).phase = .dec .y .ac 64 0 ∧ (decoding 64 0 ([0x40100001])).tokIn = 0x40100001 :: [] := by
  decide +kernel

/-- DecodeDcStage: the last value in range, and the first one out of range, on both sides. -/
theorem witness_DecodeDcStage :
    (0x00FFFFFF : Word).toNat < 2 ^ 24 ∧ (0x7FFF : Coef).toInt + ((0 : Word).extractLsb' 0 24).toInt = 32767
    ∧ (0x7FFF : Coef).toInt + ((1 : Word).extractLsb' 0 24).toInt = 32768
    ∧ (0x8000 : Coef).toInt + ((0 : Word).extractLsb' 0 24).toInt = -32768
    ∧ (0x8000 : Coef).toInt + ((0x00FFFFFF : Word).extractLsb' 0 24).toInt = -32769 := by decide

/-- DecodeAcStage: an EOB; a run that just overruns from cursor 49; a run that just fits from cursor 48. -/
theorem witness_DecodeAcStage :
    (0x40000000 : Word).toNat = 2 ^ 30 + 2 ^ 16 * 0 + (0 : Coef).toNat
    ∧ ((0x400F0001 : Word).toNat = 2 ^ 30 + 2 ^ 16 * 15 + (1 : Coef).toNat ∧ 63 < 49 + 15 ∧ 48 + 15 ≤ 63)
    ∧ (decoding 48 0 ([0x400F0001])).phase = .dec .y .ac 48 0 := by decide +kernel

/-- EntropyRoundTrip: an encoder and a decoder with one predictor, and the decoder's FIFO holding the two words. -/
theorem witness_EntropyRoundTrip :
    (accepted idle (encode (.entEnc .cr))).phase = .exec (encode (.entEnc .cr))
    ∧ (accepted idle (encode (.entEnc .cr))).tokOut = []
    ∧ (accepted idle (encode (.entDec .cr))).prevDc.get .cr = (accepted idle (encode (.entEnc .cr))).prevDc.get .cr
    ∧ (accepted idle (encode (.entEnc .cr))).cfg.wf = true := by decide +kernel

/-- EveryStepKeepsTheInvariant and ParametersNeverChange: an invariant state whose step answers next. -/
theorem witness_EveryStepKeepsTheInvariant : (decoding 64 0 ([0x40000000])).Inv
    ∧ nextHas (step (decoding 64 0 ([0x40000000]))) (fun t => t.cfg == idle.cfg) = true :=
  ⟨decoding_inv, by decide +kernel⟩

end Sys2Proof.Tests
end

section
/-! The statements of 00_scope.md settled (R10, R13, R16, R20), with the laws they rest on: no step changes
a parameter, which parameter sets run, what `rint` returns, and what each binary64 operation returns on each kind of
operands. -/

namespace Sys2Proof.Machine

/-! ## The parameters (R10, R20) -/

theorem HostEffect.cfg_eq {a : BusAccess} {s t : State} (h : HostEffect a s t) : t.cfg = s.cfg := by
  cases h with
  | accErr => exact (setAccErr_fields s).1
  | softReset => exact (softReset_fields s).1
  | clear v => exact (clearStatus_fields v s).1
  | cmdError w e => exact (raiseError_fields _ w 0 _).1
  | flushRefused c => exact (setAccErr_fields _).1
  | same | pop | ctrl | flush | cmdDropped | cmdAccepted | push | dcPred | buffer => rfl

theorem EngineEffect.cfg_eq {s t : State} (h : EngineEffect s t) : t.cfg = s.cfg := by
  cases h with
  | single w i u hp hd hs hx hu =>
    obtain ⟨px, rb, ib, zs, b, n, rfl, -⟩ := hu
    exact (complete_fields _).1
  | undecodable w => exact (raiseError_fields _ w 0 s).1
  | decError => exact (raiseError_fields _ _ _ _).1
  | encEnd | decEnd => exact (complete_fields _).1
  | reset => exact (resetStep_fields s).1
  | none | encStart | encPush | decStart | decDc | decAc => rfl

/-- Settles O60, by the effects a step can have. -/
theorem parametersNeverChange : Obligations.ParametersNeverChange := by
  intro s t h
  obtain ⟨-, rest, -, hE | ⟨a, u, r, -, hH, rfl⟩⟩ := step_effect h
  · exact hE.cfg_eq
  · exact hH.cfg_eq

/-! ## Well-formed parameter sets (R10, R142, R161) -/

theorem qtabInRange_iff (t : Block Nat) : qtabInRange t = true ↔ ∀ e : Fin 64, 1 ≤ t[e] ∧ t[e] ≤ 255 := by
  refine ⟨qtabInRange_bounds, fun h => ?_⟩
  simp only [qtabInRange, List.all_eq_true, Bool.and_eq_true, decide_eq_true_eq]
  intro q hq
  obtain ⟨i, hi, rfl⟩ := Vector.mem_iff_getElem.1 (Vector.mem_toList_iff.1 hq)
  exact h ⟨i, hi⟩

theorem zzBijective_iff (zz : Block (Fin 64)) :
    zzBijective zz = true ↔ Function.Bijective (fun i : Fin 64 => zz[i]) := by
  constructor
  · intro h
    have hs : Function.Surjective (fun i : Fin 64 => zz[i]) := zzBijective_surjective h
    exact ⟨Finite.injective_iff_surjective.2 hs, hs⟩
  · intro h
    simp only [zzBijective, List.all_eq_true, List.mem_range, List.any_eq_true, beq_iff_eq]
    intro e he
    obtain ⟨i, hi⟩ := h.2 ⟨e, he⟩
    exact ⟨zz[i], by simp [Fin.getElem_fin], congrArg Fin.val hi⟩

theorem zzStartsAtDc_iff (zz : Block (Fin 64)) : zzStartsAtDc zz = true ↔ zz[(0 : Fin 64)] = 0 := by
  simp only [zzStartsAtDc, beq_iff_eq, Fin.ext_iff]
  rfl

/-- Comparing each element with the next one is enough to know that a list never decreases. -/
theorem all_consecutive_le_iff_sortedLE (l : List Nat) :
    (l.consecutivePairs.all fun q => q.1 ≤ q.2) = true ↔ l.SortedLE := by
  rw [List.sortedLE_iff_isChain]
  induction l with
  | nil => simp [List.consecutivePairs]
  | cons x xs ih =>
    cases xs with
    | nil => simp [List.consecutivePairs]
    | cons y ys =>
      rw [List.isChain_cons_cons, ← ih]
      simp [List.consecutivePairs]

theorem zzAntiDiagonal_iff (zz : Block (Fin 64)) :
    zzAntiDiagonal zz = true ↔
      ∀ i j : Fin 64, i ≤ j → zz[i].val / 8 + zz[i].val % 8 ≤ zz[j].val / 8 + zz[j].val % 8 := by
  have h := all_consecutive_le_iff_sortedLE (zz.toList.map fun z => z.val / 8 + z.val % 8)
  rw [List.sortedLE_iff_getElem_le_getElem_of_le] at h
  refine h.trans ⟨fun hs i j hij => ?_, fun hs i j hi hj hij => ?_⟩
  · simpa using @hs i.val j.val (by simp) (by simp) hij
  · simp only [List.length_map, Vector.length_toList] at hi hj
    simpa using hs ⟨i, hi⟩ ⟨j, hj⟩ hij

theorem baseAligned_iff (p : Params) : p.baseAligned = true ↔ p.base % 0x2000 = 0 := beq_iff_eq

theorem depthInRange_iff (p : Params) : p.depthInRange = true ↔ 65 ≤ p.tokqDepth ∧ p.tokqDepth ≤ 65535 := by
  simp only [Params.depthInRange, Bool.and_eq_true, decide_eq_true_eq]

theorem defaultParams_wf : defaultParams.wf = true := by decide +kernel

theorem step_of_not_wf {s : State} (h : s.cfg.wf = false) : step s = .refused .badConfiguration := by
  simp only [step, h, Bool.false_eq_true, if_false]

/-- Settles O9, by what each check of `Params.wf` says. -/
theorem onlyConfigurationsRun : Obligations.OnlyConfigurationsRun := by
  refine ⟨defaultParams_wf, fun p => ?_, fun s => step_of_not_wf⟩
  simp only [Params.wf, Bool.and_eq_true, baseAligned_iff, depthInRange_iff, qtabInRange_iff, zzBijective_iff,
    zzStartsAtDc_iff, zzAntiDiagonal_iff, and_assoc]

/-! ## `rint` (R16) -/

/-- The integer `f64RintMag` takes: the one below or the one above, the nearer of the two; at an exact half the one
above under HALF_AWAY, and the even one under HALF_EVEN. -/
theorem f64RintMag_cases (tie : RoundTie) (mag : Nat) :
    (f64RintMag tie mag = mag / f64Unit ∧ 2 * (mag % f64Unit) ≤ f64Unit
      ∨ f64RintMag tie mag = mag / f64Unit + 1 ∧ f64Unit ≤ 2 * (mag % f64Unit))
    ∧ (2 * (mag % f64Unit) = f64Unit →
        (tie = .halfAway → f64RintMag tie mag = mag / f64Unit + 1)
        ∧ (tie = .halfEven → f64RintMag tie mag % 2 = 0)) := by
  unfold f64RintMag
  generalize mag / f64Unit = q
  generalize mag % f64Unit = r
  generalize f64Unit = U
  cases tie with
  | halfAway =>
    dsimp only
    split <;> simp only [reduceCtorEq, false_implies, true_and, and_true, true_implies, implies_true] <;> omega
  | halfEven =>
    dsimp only
    split <;> simp only [reduceCtorEq, false_implies, true_and, true_implies] <;> omega

theorem f64Unit_pos : 0 < f64Unit := by
  unfold f64Unit
  positivity

theorem f64Unit_cast : (f64Unit : Int) = 2 ^ 1074 := Nat.cast_pow 2 1074

/-- R16 for a magnitude: `f64RintMag` is nearest, and ties go as the rule says. -/
theorem f64RintMag_nearest (tie : RoundTie) (mag : Nat) (j : Int) :
    |(f64RintMag tie mag : Int) * f64Unit - mag| ≤ |j * f64Unit - mag|
    ∧ (j ≠ f64RintMag tie mag → |(f64RintMag tie mag : Int) * f64Unit - mag| = |j * f64Unit - mag| →
        (tie = .halfAway → |j| < f64RintMag tie mag) ∧ (tie = .halfEven → f64RintMag tie mag % 2 = 0)) := by
  obtain ⟨hcase, htie⟩ := f64RintMag_cases tie mag
  have hmag : (mag : Int) = (mag / f64Unit : Nat) * f64Unit + (mag % f64Unit : Nat) := by
    exact_mod_cast (Nat.div_add_mod' mag f64Unit).symm
  have hr := Nat.mod_lt mag f64Unit_pos
  generalize f64RintMag tie mag = p at *
  generalize mag / f64Unit = q at *
  generalize mag % f64Unit = r at *
  rw [hmag]
  obtain ⟨hle, heq⟩ := nearest_multiple (U := f64Unit) (q := q) (r := r) (p := p) (by omega) (by omega) (by omega) j
  refine ⟨hle, fun hj hd => ?_⟩
  obtain ⟨h2, hpj⟩ := heq hj hd
  obtain ⟨haway, heven⟩ := htie (by omega)
  refine ⟨fun ha => ?_, heven⟩
  have hp := haway ha
  rw [abs_eq_max_neg]
  omega

/-- Settles O49: a value and its `rint` change sign together, so the magnitudes decide. -/
theorem rintIsNearest : Obligations.RintIsNearest := by
  intro tie x _
  dsimp only
  rw [← f64Unit_cast, f64Rint, f64Val]
  have hn := f64RintMag_nearest tie (f64Mag x)
  cases f64Sign x with
  | false =>
    simp only [Bool.false_eq_true, if_false]
    refine ⟨fun j => (hn j).1, fun j hj hd => ?_⟩
    obtain ⟨haway, heven⟩ := (hn j).2 hj hd
    refine ⟨fun h => by simpa using haway h, fun h => by exact_mod_cast heven h⟩
  | true =>
    simp only [if_true]
    have hflip : ∀ i : Int, |i * f64Unit - -(f64Mag x : Int)| = |-i * f64Unit - f64Mag x| := fun i => by
      rw [← abs_neg]
      congr 1
      ring
    simp only [hflip, neg_neg]
    refine ⟨fun j => (hn (-j)).1, fun j hj hd => ?_⟩
    obtain ⟨haway, heven⟩ := (hn (-j)).2 (by omega) hd
    refine ⟨fun h => by simpa using haway h, fun h => ?_⟩
    have := heven h
    omega

/-! ## Sums and differences (R13) -/

/-- A finite sum is the exact sum rounded; a zero sum has the sign IEEE 754 gives it. -/
theorem f64Add_of_finite {x y : F64} (hx : f64IsFinite x = true) (hy : f64IsFinite y = true) :
    f64Add x y = f64Round
      (if f64Val x + f64Val y = 0 then f64Sign x && f64Sign y else decide (f64Val x + f64Val y < 0))
      (f64Val x + f64Val y).natAbs 1 := by
  obtain ⟨hxn, hxi⟩ := f64IsFinite_not hx
  obtain ⟨hyn, hyi⟩ := f64IsFinite_not hy
  simp only [f64Add, hxn, hxi, hyn, hyi, Bool.or_self, Bool.false_eq_true, if_false]
  split
  · rename_i h0
    rw [h0, Int.natAbs_zero, f64Round_zero _ Nat.one_pos, f64Pack_zero]
  · rfl

theorem f64Add_roundsTo {x y : F64} (hx : f64IsFinite x = true) (hy : f64IsFinite y = true) :
    roundsTo (f64Add x y) 1 (f64Val x + f64Val y) := by
  rw [f64Add_of_finite hx hy]
  refine f64Round_roundsTo Nat.one_pos Int.natAbs_one ⟨fun _ => ?_, fun h => absurd h (by decide)⟩
  by_cases h0 : f64Val x + f64Val y = 0
  · simp [h0]
  · rw [if_neg h0]
    split <;> rename_i h <;> simp only [decide_eq_true_eq] at h <;> omega

theorem f64Add_exact_zero {x y : F64} (hx : f64IsFinite x = true) (hy : f64IsFinite y = true)
    (h0 : f64Val x + f64Val y = 0) : f64Add x y = signedZero (f64Sign x && f64Sign y) := by
  rw [f64Add_of_finite hx hy, if_pos h0, h0, Int.natAbs_zero, f64Round_zero _ Nat.one_pos]

theorem f64Add_inf_left {x y : F64} (hx : f64IsInf x = true) (hy : f64IsNaN y = false) :
    f64Add x y = if f64IsInf y && f64Sign x != f64Sign y then f64NaN else signedInf (f64Sign x) := by
  rw [← eq_signedInf hx]
  simp only [f64Add, f64IsInf_not hx, hx, hy, Bool.or_self, Bool.false_eq_true, if_false, if_true]

theorem f64Add_inf_right {x y : F64} (hx : f64IsFinite x = true) (hy : f64IsInf y = true) :
    f64Add x y = signedInf (f64Sign y) := by
  obtain ⟨hxn, hxi⟩ := f64IsFinite_not hx
  rw [← eq_signedInf hy]
  simp only [f64Add, f64IsInf_not hy, hxn, hxi, hy, Bool.or_self, Bool.false_eq_true, if_false, if_true]

theorem f64Add_nan {x y : F64} (h : f64IsNaN x = true ∨ f64IsNaN y = true) : f64IsNaN (f64Add x y) = true := by
  rw [f64Add, if_pos (Bool.or_eq_true_iff.2 h)]
  exact f64IsNaN_f64NaN

theorem f64Sub_roundsTo {x y : F64} (hx : f64IsFinite x = true) (hy : f64IsFinite y = true) :
    roundsTo (f64Sub x y) 1 (f64Val x - f64Val y) := by
  obtain ⟨hny, hv⟩ := f64Neg_finite hy
  rw [Int.sub_eq_add_neg, ← hv]
  exact f64Add_roundsTo hx hny

theorem f64Sub_exact_zero {x y : F64} (hx : f64IsFinite x = true) (hy : f64IsFinite y = true)
    (h0 : f64Val x - f64Val y = 0) : f64Sub x y = signedZero (f64Sign x && !f64Sign y) := by
  obtain ⟨hny, hv⟩ := f64Neg_finite hy
  rw [f64Sub, f64Add_exact_zero hx hny (by omega), (f64Neg_kind y).2.2]

theorem f64Sub_inf_left {x y : F64} (hx : f64IsInf x = true) (hy : f64IsNaN y = false) :
    f64Sub x y = if f64IsInf y && f64Sign x != !f64Sign y then f64NaN else signedInf (f64Sign x) := by
  obtain ⟨hn, hi, hs⟩ := f64Neg_kind y
  rw [f64Sub, f64Add_inf_left hx (hn.trans hy), hi, hs]

theorem f64Sub_inf_right {x y : F64} (hx : f64IsFinite x = true) (hy : f64IsInf y = true) :
    f64Sub x y = signedInf (!f64Sign y) := by
  obtain ⟨-, hi, hs⟩ := f64Neg_kind y
  rw [f64Sub, f64Add_inf_right hx (hi.trans hy), hs]

theorem f64Sub_nan {x y : F64} (h : f64IsNaN x = true ∨ f64IsNaN y = true) : f64IsNaN (f64Sub x y) = true :=
  f64Add_nan (h.imp_right (f64Neg_kind y).1.trans)

/-! ## Products -/

theorem f64Mul_of_finite {x y : F64} (hx : f64IsFinite x = true) (hy : f64IsFinite y = true) :
    f64Mul x y = f64Round (f64Sign x != f64Sign y) (f64Mag x * f64Mag y) f64Unit := by
  obtain ⟨hxn, hxi⟩ := f64IsFinite_not hx
  obtain ⟨hyn, hyi⟩ := f64IsFinite_not hy
  simp only [f64Mul, hxn, hxi, hyn, hyi, Bool.or_self, Bool.false_eq_true, if_false]

/-- The sign of an exact product is that of the two signs, its magnitude the product of the magnitudes. -/
theorem f64Val_mul (x y : F64) :
    f64Val x * f64Val y =
      if f64Sign x != f64Sign y then -((f64Mag x * f64Mag y : Nat) : Int) else ((f64Mag x * f64Mag y : Nat) : Int) := by
  unfold f64Val
  cases f64Sign x <;> cases f64Sign y <;> simp

theorem f64Mul_roundsTo {x y : F64} (hx : f64IsFinite x = true) (hy : f64IsFinite y = true) :
    roundsTo (f64Mul x y) (2 ^ 1074) (f64Val x * f64Val y) := by
  rw [f64Mul_of_finite hx hy, ← f64Unit_cast]
  exact f64Round_roundsTo f64Unit_pos (Int.natAbs_natCast _) ⟨fun _ => f64Val_mul x y, fun h => by omega⟩

theorem f64Mul_exact_zero {x y : F64} (hx : f64IsFinite x = true) (hy : f64IsFinite y = true)
    (h0 : f64Val x = 0 ∨ f64Val y = 0) : f64Mul x y = signedZero (f64Sign x != f64Sign y) := by
  rw [f64Val_eq_zero_iff, f64Val_eq_zero_iff] at h0
  rw [f64Mul_of_finite hx hy, Nat.mul_eq_zero.2 h0, f64Round_zero _ f64Unit_pos]

theorem f64Mul_inf {x y : F64} (hx : f64IsNaN x = false) (hy : f64IsNaN y = false)
    (hi : f64IsInf x = true ∨ f64IsInf y = true) :
    f64Mul x y = if f64Val x = 0 ∨ f64Val y = 0 then f64NaN else signedInf (f64Sign x != f64Sign y) := by
  simp only [f64Mul, hx, hy, Bool.or_self, Bool.false_eq_true, if_false, Bool.or_eq_true, hi, if_true, beq_iff_eq,
    f64Val_eq_zero_iff, f64Inf_eq_signedInf]

theorem f64Mul_nan {x y : F64} (h : f64IsNaN x = true ∨ f64IsNaN y = true) : f64IsNaN (f64Mul x y) = true := by
  rw [f64Mul, if_pos (Bool.or_eq_true_iff.2 h)]
  exact f64IsNaN_f64NaN

/-! ## Quotients -/

theorem f64Div_of_finite {x y : F64} (hx : f64IsFinite x = true) (hy : f64IsFinite y = true) :
    f64Div x y =
      if f64Val y = 0 then if f64Val x = 0 then f64NaN else signedInf (f64Sign x != f64Sign y)
      else f64Round (f64Sign x != f64Sign y) (f64Mag x * f64Unit) (f64Mag y) := by
  obtain ⟨hxn, hxi⟩ := f64IsFinite_not hx
  obtain ⟨hyn, hyi⟩ := f64IsFinite_not hy
  simp only [f64Div, hxn, hxi, hyn, hyi, Bool.or_self, Bool.false_eq_true, if_false, f64Val_eq_zero_iff,
    f64Inf_eq_signedInf]

theorem f64Mag_pos {y : F64} (h : f64Val y ≠ 0) : 0 < f64Mag y :=
  Nat.pos_of_ne_zero ((f64Val_eq_zero_iff y).not.1 h)

theorem f64Val_mul_natCast (x : F64) (u : Nat) :
    f64Val x * u = if f64Sign x then -((f64Mag x * u : Nat) : Int) else ((f64Mag x * u : Nat) : Int) := by
  rw [Nat.cast_mul, f64Val]
  split <;> ring

theorem f64Val_natAbs (y : F64) : (f64Val y).natAbs = f64Mag y := by
  unfold f64Val
  split <;> omega

/-- The sign of a nonzero value is its sign bit. -/
theorem f64Val_neg_iff {y : F64} (h : f64Val y ≠ 0) : f64Val y < 0 ↔ f64Sign y = true := by
  have hp := f64Mag_pos h
  cases hs : f64Sign y with
  | false => simp [f64Val, hs]
  | true => simpa [f64Val, hs] using hp

/-- The quotient of the magnitudes, in the unit `u`, rounded with the sign of the two signs. -/
theorem f64Round_quotient_roundsTo (x : F64) {y : F64} (u : Nat) (h : f64Val y ≠ 0) :
    roundsTo (f64Round (f64Sign x != f64Sign y) (f64Mag x * u) (f64Mag y)) (f64Val y) (f64Val x * u) := by
  refine f64Round_roundsTo (f64Mag_pos h) (f64Val_natAbs y) ⟨fun hpos => ?_, fun hneg => ?_⟩
  · have hs : f64Sign y = false := by
      rw [← Bool.not_eq_true, ← f64Val_neg_iff h]
      omega
    rw [f64Val_mul_natCast, hs, Bool.bne_false]
  · rw [f64Val_mul_natCast, (f64Val_neg_iff h).1 hneg]
    cases f64Sign x <;> rfl

theorem f64Div_roundsTo {x y : F64} (hx : f64IsFinite x = true) (hy : f64IsFinite y = true) (h : f64Val y ≠ 0) :
    roundsTo (f64Div x y) (f64Val y) (f64Val x * 2 ^ 1074) := by
  rw [f64Div_of_finite hx hy, if_neg h, ← f64Unit_cast]
  exact f64Round_quotient_roundsTo x f64Unit h

theorem f64Div_exact_zero {x y : F64} (hx : f64IsFinite x = true) (hy : f64IsFinite y = true)
    (h0 : f64Val x = 0) (h : f64Val y ≠ 0) : f64Div x y = signedZero (f64Sign x != f64Sign y) := by
  rw [f64Div_of_finite hx hy, if_neg h, (f64Val_eq_zero_iff x).1 h0, Nat.zero_mul, f64Round_zero _ (f64Mag_pos h)]

theorem f64Div_inf_left {x y : F64} (hx : f64IsInf x = true) (hy : f64IsNaN y = false) :
    f64Div x y = if f64IsInf y then f64NaN else signedInf (f64Sign x != f64Sign y) := by
  simp only [f64Div, f64IsInf_not hx, hx, hy, Bool.or_self, Bool.false_eq_true, if_false, if_true, f64Inf_eq_signedInf]

theorem f64Div_inf_right {x y : F64} (hx : f64IsFinite x = true) (hy : f64IsInf y = true) :
    f64Div x y = signedZero (f64Sign x != f64Sign y) := by
  obtain ⟨hxn, hxi⟩ := f64IsFinite_not hx
  simp only [f64Div, f64IsInf_not hy, hxn, hxi, hy, Bool.or_self, Bool.false_eq_true, if_false, if_true, f64Pack_zero]

theorem f64Div_nan {x y : F64} (h : f64IsNaN x = true ∨ f64IsNaN y = true) : f64IsNaN (f64Div x y) = true := by
  rw [f64Div, if_pos (Bool.or_eq_true_iff.2 h)]
  exact f64IsNaN_f64NaN

/-- An infinity is no zero. -/
theorem f64Val_ne_zero_of_isInf {x : F64} (h : f64IsInf x = true) : f64Val x ≠ 0 :=
  (f64Val_eq_zero_iff x).not.2 (f64Mag_ne_zero_of_isInf h)

/-- Settles O50, clause by clause from the laws of the four operations on each kind of operands. -/
theorem arithmeticRoundsToNearestEven : Obligations.ArithmeticRoundsToNearestEven := by
  intro x y
  refine ⟨fun hx hy => ?rounding, fun hx hy => ?zeros, fun hx hy => ?infInf, fun hx hy => ?infFinite,
    fun hx hy => ?finiteInf, fun h => ?nan⟩
  case rounding =>
    exact ⟨f64Add_roundsTo hx hy, f64Sub_roundsTo hx hy, f64Mul_roundsTo hx hy, f64Div_roundsTo hx hy⟩
  case zeros =>
    refine ⟨f64Add_exact_zero hx hy, f64Sub_exact_zero hx hy, f64Mul_exact_zero hx hy, f64Div_exact_zero hx hy,
      fun h1 h2 => ?_, fun h1 h2 => ?_⟩
    · rw [f64Div_of_finite hx hy, if_pos h2, if_neg h1]
    · rw [f64Div_of_finite hx hy, if_pos h2, if_pos h1]
      exact f64IsNaN_f64NaN
  case infInf =>
    have hyn := f64IsInf_not hy
    rw [f64Add_inf_left hx hyn, f64Sub_inf_left hx hyn, f64Div_inf_left hx hyn,
      f64Mul_inf (f64IsInf_not hx) hyn (.inl hx)]
    simp only [hy, f64Val_ne_zero_of_isInf hx, f64Val_ne_zero_of_isInf hy]
    refine ⟨fun h => ?_, fun h => ?_, by simp, f64IsNaN_f64NaN⟩
    · simp [h, f64IsNaN_f64NaN]
    · simp [Bool.eq_not.2 h, f64IsNaN_f64NaN]
  case infFinite =>
    obtain ⟨hyn, hyi⟩ := f64IsFinite_not hy
    rw [f64Add_inf_left hx hyn, f64Sub_inf_left hx hyn, f64Div_inf_left hx hyn,
      f64Mul_inf (f64IsInf_not hx) hyn (.inl hx)]
    simp only [hyi, f64Val_ne_zero_of_isInf hx, false_or, Bool.false_and, Bool.false_eq_true, if_false]
    refine ⟨trivial, trivial, fun h => ?_, fun h => if_neg h, trivial⟩
    rw [if_pos h]
    exact f64IsNaN_f64NaN
  case finiteInf =>
    obtain ⟨hxn, -⟩ := f64IsFinite_not hx
    refine ⟨f64Add_inf_right hx hy, f64Sub_inf_right hx hy, fun h => ?_, fun h => ?_, f64Div_inf_right hx hy⟩
    · rw [f64Mul_inf hxn (f64IsInf_not hy) (.inr hy), if_pos (.inl h)]
      exact f64IsNaN_f64NaN
    · rw [f64Mul_inf hxn (f64IsInf_not hy) (.inr hy), if_neg (not_or.2 ⟨h, f64Val_ne_zero_of_isInf hy⟩)]
  case nan => exact ⟨f64Add_nan h, f64Sub_nan h, f64Mul_nan h, f64Div_nan h⟩

end Sys2Proof.Machine
end

section
/-! The statements of 10_state.md settled: the machine's invariant (R20, R28, R29), which steps change SAT, ERRINFO
and the predictors (R27, R37, R43), and the control registers as the host sees them (R31 to R42). -/

namespace Sys2Proof.Machine

/-- A word that decodes is the word of its command (R82). -/
theorem eq_encode_of_decode {w : Word} {i : Instr} (h : decode w = .ok i) : w = encode i := by
  obtain ⟨hop, hch, hrsv⟩ := fields_of_decode_ok h
  exact word_ext_fields (hop.trans (opField_encode i).symm) (hch.trans (chField_encode i).symm)
    (hrsv.trans (rsvField_encode i).symm)

/-! ## The invariant -/

theorem CmdError.code_mem (e : CmdError) : e.code ∈ errCodes := by cases e <;> decide

theorem phaseInv_of_idle {s : State} (h : s.phase = .idle) : s.phaseInv := by
  simp only [State.phaseInv, h]

/-- Outside RESET, what PHASE promises is about LASTCMD, ZS and the predictors only. -/
theorem phaseInv_congr {s t : State} (h : s.phaseInv) (hr : s.phase ≠ .reset) (hp : t.phase = s.phase)
    (hl : t.lastCmd = s.lastCmd) (hz : t.zs = s.zs) (hd : t.prevDc = s.prevDc) : t.phaseInv := by
  unfold State.phaseInv at h ⊢
  rw [hp, hl, hz, hd]
  cases hph : s.phase with
  | reset => exact absurd hph hr
  | idle => trivial
  | exec w | enc c pending newdc => simpa only [hph] using h
  | dec c st k dc => cases st <;> simpa only [hph] using h

theorem phaseInv_reset_iff {s : State} (hr : s.phase = .reset) : s.phaseInv ↔ s = softReset s := by
  simp only [State.phaseInv, hr]

/-- The model's own fields `schedule` and `resp` are no part of the invariant. -/
theorem State.Inv.with_schedule_resp {s : State} (h : s.Inv) (sch : List Event) (r : Option BusResp) :
    State.Inv { s with schedule := sch, resp := r } := by
  refine { h with running := ?_ }
  by_cases hr : s.phase = .reset
  · have hs := (phaseInv_reset_iff hr).1 h.running
    refine (phaseInv_reset_iff ?_).2 (congrArg (fun u : State => { u with schedule := sch, resp := r }) hs)
    exact hr
  · exact phaseInv_congr h.running hr rfl rfl rfl rfl

theorem softReset_inv {s : State} (hw : s.cfg.wf = true) : (softReset s).Inv where
  cfgOk := hw
  outFits := Nat.zero_le _
  inFits := Nat.zero_le _
  errIdle := nofun
  errCode := List.mem_cons_self
  running := rfl

theorem HostEffect.keeps_inv {a : BusAccess} {s t : State} (h : HostEffect a s t) (hs : s.Inv) : t.Inv := by
  cases h with
  | same => exact hs
  | accErr hr => exact { hs with running := phaseInv_congr hs.running hr rfl rfl rfl rfl }
  | pop w rest hr h =>
    have hlen : rest.length ≤ s.tokOut.length := by simp [h]
    exact { hs with outFits := hlen.trans hs.outFits, running := phaseInv_congr hs.running hr rfl rfl rfl rfl }
  | softReset => exact softReset_inv hs.cfgOk
  | ctrl c hr => exact { hs with running := phaseInv_congr hs.running hr rfl rfl rfl rfl }
  | flush c hi =>
    exact { hs with outFits := Nat.zero_le _, inFits := Nat.zero_le _, running := phaseInv_of_idle hi }
  | flushRefused c hi hr => exact { hs with running := phaseInv_congr hs.running hr rfl rfl rfl rfl }
  | clear v hr =>
    have herr : (s.flags.w1c v).err = true → s.flags.err = true := fun h => (Bool.and_eq_true_iff.1 h).1
    exact { hs with errIdle := fun h => hs.errIdle (herr h), running := phaseInv_congr hs.running hr rfl rfl rfl rfl }
  | cmdDropped hr => exact { hs with running := phaseInv_congr hs.running hr rfl rfl rfl rfl }
  | cmdError w e =>
    exact { hs with errIdle := fun _ => rfl, errCode := (CmdError.ofDecode e).code_mem, running := trivial }
  | cmdAccepted w i hi he hd =>
    exact { hs with errIdle := fun h => absurd h (by simp [he]), running := ⟨rfl, i, hd⟩ }
  | push v hr h =>
    exact { hs with inFits := by simpa using h, running := phaseInv_congr hs.running hr rfl rfl rfl rfl }
  | dcPred c v ha hi => exact { hs with running := phaseInv_of_idle hi }
  | buffer px rb ib zs hi => exact { hs with running := phaseInv_of_idle hi }

/-- LASTCMD while EXEC(w) of a command stands: the command's own word (R201). -/
theorem State.Inv.lastCmd_of_exec {s : State} (hs : s.Inv) {w : Word} {i : Instr} (hp : s.phase = .exec w)
    (hd : decode w = .ok i) : s.lastCmd = encode i := by
  have h := hs.running
  simp only [State.phaseInv, hp] at h
  exact h.1.trans (eq_encode_of_decode hd)

/-- The AC stage after the DC token: the DC value in place, zeros after it (R182). -/
theorem phaseInv_decDc {s : State} (h : s.phaseInv) {c : Chan} {k : Nat} {d0 : Coef} (hp : s.phase = .dec c .dc k d0)
    (x : Coef) (rest : List Word) : State.phaseInv { s with
      tokIn := rest, zs := s.zs.set c ((s.zs.get c).set 0 x), phase := .dec c .ac 1 x } := by
  simp only [State.phaseInv, hp] at h
  obtain ⟨hl, -, -, hz⟩ := h
  refine ⟨hl, by omega, by omega, by simp, fun j hj => ?_⟩
  have hne : (0 : Nat) ≠ j.val := by omega
  simpa [Vector.getElem_set, hne] using hz j

/-- The AC stage after a token that places a value: the DC value kept, zeros from the new cursor on (R183). -/
theorem phaseInv_decAc {s : State} (h : s.phaseInv) {c : Chan} {k run : Nat} {dc : Coef}
    (hp : s.phase = .dec c .ac k dc) (hk : k + run ≤ 63) (v : Coef) (rest : List Word) : State.phaseInv { s with
      tokIn := rest, zs := s.zs.set c (placeRun k run v (s.zs.get c)), phase := .dec c .ac (k + run + 1) dc } := by
  simp only [State.phaseInv, hp] at h
  obtain ⟨hl, h1, -, hdc, hz⟩ := h
  have hget : ∀ j : Fin 64, (placeRun k run v (s.zs.get c))[j] =
      if j.val = k + run then v else if k ≤ j.val ∧ j.val < k + run then 0 else (s.zs.get c)[j] :=
    fun j => fin_getElem_tabulate _ j
  refine ⟨hl, by omega, by omega, ?_, fun j hj => ?_⟩
  · rw [PerChan.get_set_self, hget, if_neg (by simp; omega), if_neg (by simp; omega), hdc]
  · rw [PerChan.get_set_self, hget, if_neg (by omega), if_neg (by omega), hz j (by omega)]

theorem EngineEffect.keeps_inv {s t : State} (h : EngineEffect s t) (hs : s.Inv) : t.Inv := by
  have hbusy : ∀ {P : Prop}, s.phase ≠ .idle → s.flags.err = true → P := fun hp he =>
    absurd (hs.errIdle he) hp
  have htail : ∀ {w rest}, s.tokIn = w :: rest → rest.length ≤ s.cfg.tokqDepth := fun {w rest} ht =>
    (List.sublist_cons_self w rest).length_le.trans (ht ▸ hs.inFits)
  cases h with
  | none => exact hs
  | single w i u hp hd hx hexec hu =>
    obtain ⟨px, rb, ib, zs, b, n, rfl, -⟩ := hu
    exact { hs with errIdle := fun _ => rfl, running := trivial }
  | undecodable w e =>
    exact { hs with errIdle := fun _ => rfl, errCode := (CmdError.ofDecode e).code_mem, running := trivial }
  | encStart w c hp hd =>
    exact { hs with
      errIdle := hbusy (by simp [hp])
      running := ⟨hs.lastCmd_of_exec hp hd, List.suffix_rfl, rfl⟩ }
  | encPush c w rest d hp hf =>
    have h := hs.running
    simp only [State.phaseInv, hp] at h
    obtain ⟨hl, hsuf, hdc⟩ := h
    exact { hs with
      outFits := by simpa using hf
      errIdle := hbusy (by simp [hp])
      running := ⟨hl, (List.suffix_cons w rest).trans hsuf, hdc⟩ }
  | encEnd c d => exact { hs with errIdle := fun _ => rfl, running := trivial }
  | decStart w c hp hd =>
    exact { hs with
      errIdle := hbusy (by simp [hp])
      running := ⟨hs.lastCmd_of_exec hp hd, rfl, rfl, by simp⟩ }
  | decError c st k dc w rest e cur hp ht =>
    exact { hs with
      inFits := htail ht, errIdle := fun _ => rfl, errCode := e.code_mem, running := trivial }
  | decDc c k d0 x w rest hp ht =>
    exact { hs with
      inFits := htail ht, errIdle := hbusy (by simp [hp]), running := phaseInv_decDc hs.running hp x rest }
  | decAc c k dc w rest hp ht hk =>
    exact { hs with
      inFits := htail ht, errIdle := hbusy (by simp [hp]), running := phaseInv_decAc hs.running hp hk _ rest }
  | decEnd c k dc w rest hp ht =>
    exact { hs with inFits := htail ht, errIdle := fun _ => rfl, running := trivial }
  | reset => exact { hs with errIdle := fun _ => rfl, running := trivial }

/-- Settles O59, by the effects a step can have. -/
theorem everyStepKeepsTheInvariant : Obligations.EveryStepKeepsTheInvariant := by
  intro s t hs h
  obtain ⟨-, rest, -, hE | ⟨a, u, r, -, hH, rfl⟩⟩ := step_effect h
  · exact hE.keeps_inv (hs.with_schedule_resp rest s.resp)
  · exact (hH.keeps_inv (hs.with_schedule_resp rest s.resp)).with_schedule_resp u.schedule (some r)

/-! ## What changes SAT, ERRINFO and the predictors -/

/-- No host access sets SAT. -/
theorem HostEffect.sat_of_sat {a : BusAccess} {s t : State} (h : HostEffect a s t) (ht : t.flags.sat = true) :
    s.flags.sat = true := by
  cases h with
  | softReset => cases ht
  | clear v => exact (Bool.and_eq_true_iff.1 ht).1
  | same | accErr | pop | ctrl | flush | flushRefused | cmdDropped | cmdError | cmdAccepted | push | dcPred | buffer =>
    exact ht

/-- An engine turn sets SAT only in the step of CSC_INV or of a QUANT (R43). -/
theorem EngineEffect.sat_set {s t : State} (h : EngineEffect s t) (hs : s.flags.sat = false)
    (ht : t.flags.sat = true) :
    ∃ w i, s.phase = .exec w ∧ decode w = .ok i ∧ (i = .cscInv ∨ ∃ c, i = .quant c) := by
  have hkept : s.flags.sat ≠ true := Bool.eq_false_iff.1 hs
  cases h with
  | single w i u hp hd hx hexec hu =>
    obtain ⟨px, rb, ib, zs, b, n, rfl, hb⟩ := hu
    exact ⟨w, i, hp, hd, hb (by simpa [hs] using ht)⟩
  | none | undecodable | encStart | encPush | encEnd | decStart | decError | decDc | decAc | decEnd | reset =>
    exact absurd ht hkept

/-- Settles O47, by the effects a step can have. -/
theorem saturationComesFromQuantOrCscInv : Obligations.SaturationComesFromQuantOrCscInv := by
  intro s t h hs ht
  obtain ⟨-, rest, -, hE | ⟨a, u, r, -, hH, rfl⟩⟩ := step_effect h
  · obtain ⟨w, i, hp, hd, rfl | ⟨c, rfl⟩⟩ := hE.sat_set hs ht
    · exact ⟨w, hp, .inl (eq_encode_of_decode hd)⟩
    · exact ⟨w, hp, .inr ⟨c, eq_encode_of_decode hd⟩⟩
  · exact absurd (hH.sat_of_sat ht) (Bool.eq_false_iff.1 hs)

theorem softReset_prevDc_get (s : State) (c : Chan) : (softReset s).prevDc.get c = 0 := by cases c <;> rfl

/-- A host access changes a predictor by an idle write of its register or by a soft reset (R41, R251). -/
theorem HostEffect.prevDc_changed {a : BusAccess} {s t : State} (h : HostEffect a s t) {c : Chan}
    (hne : t.prevDc.get c ≠ s.prevDc.get c) :
    (∃ v, a = .write (s.cfg.base + 0x028 + 4 * chanNum c) 32 v ∧ s.phase = .idle ∧ t.prevDc.get c = v.setWidth 16)
    ∨ (t.phase = .reset ∧ t.prevDc.get c = 0) := by
  cases h with
  | softReset => exact .inr ⟨rfl, softReset_prevDc_get s c⟩
  | dcPred d v ha hi =>
    by_cases hcd : c = d
    · subst hcd
      exact .inl ⟨v, ha, hi, PerChan.get_set_self _ c _⟩
    · exact absurd (PerChan.get_set_ne _ _ hcd) hne
  | same | accErr | pop | ctrl | flush | flushRefused | clear | cmdDropped | cmdError | cmdAccepted | push | buffer =>
    exact absurd rfl hne

/-- An engine turn changes a predictor by the last step of ENT_ENC or ENT_DEC, or by DC_RESET (R174, R185, R188). -/
theorem EngineEffect.prevDc_changed {s t : State} (h : EngineEffect s t) {c : Chan}
    (hne : t.prevDc.get c ≠ s.prevDc.get c) :
    (∃ d, s.phase = .enc c [] d ∧ t.prevDc.get c = d ∧ t.flags.done = true ∧ t.phase = .idle)
    ∨ (∃ k d, s.phase = .dec c .ac k d ∧ t.prevDc.get c = d ∧ t.flags.done = true ∧ t.phase = .idle)
    ∨ (s.phase = .exec 0x00000042 ∧ t.prevDc.get c = 0) := by
  have hchan : ∀ {e : Chan} {d : Coef}, (s.prevDc.set e d).get c ≠ s.prevDc.get c → c = e := fun h =>
    by_contra fun hce => h (PerChan.get_set_ne _ _ hce)
  cases h with
  | single w i u hp hd hx hexec hu =>
    obtain ⟨px, rb, ib, zs, b, n, rfl, -⟩ := hu
    by_cases hi : i = .dcReset
    · subst hi
      refine .inr (.inr ⟨hp.trans (congrArg Phase.exec (eq_encode_of_decode hd)), ?_⟩)
      cases c <;> rfl
    · exact absurd (by simp [hi]) hne
  | encEnd e d hp =>
    cases hchan hne
    exact .inl ⟨d, hp, PerChan.get_set_self _ c d, rfl, rfl⟩
  | decEnd e k d w rest hp =>
    cases hchan hne
    exact .inr (.inl ⟨k, d, hp, PerChan.get_set_self _ c d, rfl, rfl⟩)
  | none | undecodable | encStart | encPush | decStart | decError | decDc | decAc | reset => exact absurd rfl hne

/-- Settles O48, by the effects a step can have. -/
theorem predictorWriters : Obligations.PredictorWriters := by
  intro s t c h hne
  obtain ⟨-, rest, -, hE | ⟨a, u, r, ha, hH, rfl⟩⟩ := step_effect h
  · obtain hEnc | hDec | hReset := hE.prevDc_changed hne
    · exact .inl hEnc
    · exact .inr (.inl hDec)
    · exact .inr (.inr (.inl hReset))
  · obtain ⟨v, rfl, hi, hv⟩ | hReset := hH.prevDc_changed hne
    · exact .inr (.inr (.inr (.inl ⟨v, rest, ha, hi, hv⟩)))
    · exact .inr (.inr (.inr (.inr hReset)))

/-- A host access changes ERRINFO by a CMD write that ends in error or by a soft reset (R83, R222, R251). -/
theorem HostEffect.errInfo_changed {a : BusAccess} {s t : State} (h : HostEffect a s t)
    (hne : t.errInfo ≠ s.errInfo) :
    (t.flags.err = true ∧ t.phase = .idle ∧ t.flags.done = s.flags.done) ∨ t.phase = .reset := by
  cases h with
  | softReset => exact .inr rfl
  | cmdError => exact .inl ⟨rfl, rfl, rfl⟩
  | same | accErr | pop | ctrl | flush | flushRefused | clear | cmdDropped | cmdAccepted | push | dcPred | buffer =>
    exact absurd rfl hne

/-- An engine turn changes ERRINFO only where it ends a command in error (R222). -/
theorem EngineEffect.errInfo_changed {s t : State} (h : EngineEffect s t) (hne : t.errInfo ≠ s.errInfo) :
    t.flags.err = true ∧ t.phase = .idle ∧ t.flags.done = s.flags.done := by
  cases h with
  | undecodable | decError => exact ⟨rfl, rfl, rfl⟩
  | single w i u hp hd hx hexec hu =>
    obtain ⟨px, rb, ib, zs, b, n, rfl, -⟩ := hu
    exact absurd rfl hne
  | none | encStart | encPush | encEnd | decStart | decDc | decAc | decEnd | reset => exact absurd rfl hne

/-! ## Registers on the bus -/

/-- A read of a register other than TOK_OUT returns its value and has no effect, in every PHASE (R64). -/
theorem step_onRead_register {s : State} (hw : s.cfg.wf = true) {t : Target} (ht : t ≠ .reserved)
    (hb : t.isBuffer = false) (hto : t ≠ .tokOut) {off : Nat} (ho : off = 4 * t.word) :
    step (s.onRead off) = .next { s with resp := some (.read (targetValue t s) .okay) } := by
  rw [step_onRead_target hw ht ho (.inl hb) (.inr hto)]
  cases t with
  | tokOut => exact absurd rfl hto
  | _ => rfl

/-- A write of a read-only word is ignored, in every PHASE (R59, R60). -/
theorem step_onWrite_readOnly {s : State} (hw : s.cfg.wf = true) {t : Target} (ht : t ≠ .reserved)
    (hb : t.isBuffer = false) {v : Word} (hro : writeTarget t v s = s) {off : Nat} (ho : off = 4 * t.word) :
    step (s.onWrite off v) = .next { s with resp := some (.write .okay) } := by
  have hlt := t.word_lt
  by_cases hr : s.phase = .reset
  · exact step_onWrite_reset hw (by omega) (by omega) hr v
  · rw [step_onWrite_target hw ht ho (.inl hb) hr, hro]

/-- A write of a register outside RESET, `u` the state its effect leaves. -/
theorem step_onWrite_register {s u : State} (hw : s.cfg.wf = true) (hr : s.phase ≠ .reset) {t : Target}
    (ht : t ≠ .reserved) (hb : t.isBuffer = false) {off : Nat} (ho : off = 4 * t.word) {v : Word}
    (hu : writeTarget t v s = u) : step (s.onWrite off v) = .next { u with resp := some (.write .okay) } := by
  rw [step_onWrite_target hw ht ho (.inl hb) hr, hu]

theorem writeCtrl_softReset {s : State} {v : Word} (h8 : v.getLsbD 8 = true) : writeCtrl v s = softReset s := by
  simp only [writeCtrl, h8, if_true]

theorem writeCtrl_store {s : State} {v : Word} (h8 : v.getLsbD 8 = false) (h9 : v.getLsbD 9 = false) :
    writeCtrl v s = { s with ctrl := ctrlOfWord v } := by
  simp only [writeCtrl, h8, h9, Bool.false_eq_true, if_false]

theorem writeCtrl_flush {s : State} {v : Word} (h8 : v.getLsbD 8 = false) (h9 : v.getLsbD 9 = true)
    (hi : s.phase = .idle) : writeCtrl v s = { s with ctrl := ctrlOfWord v, tokOut := [], tokIn := [] } := by
  simp only [writeCtrl, h8, h9, hi, Bool.false_eq_true, if_false, if_true]

theorem writeCtrl_flush_refused {s : State} {v : Word} (h8 : v.getLsbD 8 = false) (h9 : v.getLsbD 9 = true)
    (hi : s.phase ≠ .idle) : writeCtrl v s = setAccErr { s with ctrl := ctrlOfWord v } := by
  simp only [writeCtrl, h8, h9, hi, Bool.false_eq_true, if_false, if_true]

theorem popTokOut_cons {s : State} {w : Word} {rest : List Word} (h : s.tokOut = w :: rest) :
    popTokOut s = { s with tokOut := rest } := by
  simp only [popTokOut, h]

theorem popTokOut_nil {s : State} (h : s.tokOut = []) : popTokOut s = setAccErr s := by
  simp only [popTokOut, h]

/-- With TOKQ_IN within its depth, full means TOKQ_DEPTH words exactly. -/
theorem pushTokIn_eq {s : State} (hin : s.tokIn.length ≤ s.cfg.tokqDepth) (v : Word) :
    pushTokIn v s =
      if s.tokIn.length = s.cfg.tokqDepth then setAccErr s else { s with tokIn := s.tokIn ++ [v] } := by
  have hfull : s.tokInFull = true ↔ s.tokIn.length = s.cfg.tokqDepth := by
    simp only [State.tokInFull, decide_eq_true_eq]
    omega
  simp only [pushTokIn, hfull]

theorem getLsbD_ofNat_of_digit {m i : Nat} {b : Bool} (hi : i < 32) (h : m / 2 ^ i % 2 = b.toNat) :
    (BitVec.ofNat 32 m).getLsbD i = b := by
  rw [BitVec.getLsbD_ofNat, Nat.testBit_eq_decide_div_mod_eq, h]
  cases b <;> simp [hi]

/-- The fields of a word made of a 16-bit number and four bits above it. -/
theorem halfAndFourBits {n : Nat} (hn : n < 2 ^ 16) (a b c d : Bool) :
    let w := BitVec.ofNat 32 (n % 2 ^ 16 + 2 ^ 16 * a.toNat + 2 ^ 17 * b.toNat + 2 ^ 18 * c.toNat + 2 ^ 19 * d.toNat)
    w.toNat % 65536 = n ∧ w.getLsbD 16 = a ∧ w.getLsbD 17 = b ∧ w.getLsbD 18 = c ∧ w.getLsbD 19 = d := by
  have := a.toNat_le
  have := b.toNat_le
  have := c.toNat_le
  have := d.toNat_le
  refine ⟨?_, getLsbD_ofNat_of_digit (by decide) ?_, getLsbD_ofNat_of_digit (by decide) ?_,
    getLsbD_ofNat_of_digit (by decide) ?_, getLsbD_ofNat_of_digit (by decide) ?_⟩
  · rw [BitVec.toNat_ofNat]
    omega
  all_goals omega

/-- The fields of CFG (R35). -/
theorem cfgWord_fields {p : Params} (hw : p.wf = true) :
    (cfgWord p).toNat % 65536 = p.tokqDepth
    ∧ ((cfgWord p).getLsbD 16 = true ↔ p.roundTie = .halfEven)
    ∧ ((cfgWord p).getLsbD 17 = true ↔ p.qtabLuma = defaultLuma ∧ p.qtabChroma = defaultChroma)
    ∧ ((cfgWord p).getLsbD 18 = true ↔ p.zz = defaultZigzag)
    ∧ ((cfgWord p).getLsbD 19 = true ↔ p.dctNumerics = .ref64) := by
  obtain ⟨hdepth, htie, hqt, hzz, hnum⟩ := halfAndFourBits (n := p.tokqDepth) (by have := wf_depth hw; omega)
    (p.roundTie == .halfEven) (p.qtabLuma == defaultLuma && p.qtabChroma == defaultChroma) (p.zz == defaultZigzag)
    (p.dctNumerics == .ref64)
  unfold cfgWord
  rw [htie, hqt, hzz, hnum]
  simp only [Bool.and_eq_true, beq_iff_eq, hdepth, iff_self, and_self]

/-- Settles O20, by the fields of CFG. -/
theorem identityAndConfigurationRegisters : Obligations.IdentityAndConfigurationRegisters := by
  refine ⟨fun s v hw => ⟨?writes, ?id, ?version, cfgWord s.cfg, ?cfg, ?fields⟩, by decide +kernel⟩
  case writes =>
    rintro off (rfl | rfl | rfl)
    · exact step_onWrite_readOnly hw (t := .id) nofun rfl rfl rfl
    · exact step_onWrite_readOnly hw (t := .version) nofun rfl rfl rfl
    · exact step_onWrite_readOnly hw (t := .cfg) nofun rfl rfl rfl
  case id => exact step_onRead_register hw (t := .id) nofun rfl nofun rfl
  case version => exact step_onRead_register hw (t := .version) nofun rfl nofun rfl
  case cfg => exact step_onRead_register hw (t := .cfg) nofun rfl nofun rfl
  case fields =>
    obtain ⟨hdepth, htie, hqt, hzz, hnum⟩ := cfgWord_fields hw
    exact ⟨hdepth, htie, hqt, hzz, hnum, cfgWord_lt s.cfg⟩

theorem waitIn_iff (s : State) :
    s.waitIn = true ↔ (∃ c st k dc, s.phase = .dec c st k dc) ∧ s.tokIn = [] := by
  unfold State.waitIn
  cases s.phase <;> simp

/-- With TOKQ_OUT within its depth, full means TOKQ_DEPTH words exactly. -/
theorem waitOut_iff {s : State} (h : s.tokOut.length ≤ s.cfg.tokqDepth) :
    s.waitOut = true ↔ (∃ c p ps nd, s.phase = .enc c (p :: ps) nd) ∧ s.tokOut.length = s.cfg.tokqDepth := by
  have hfull : s.tokOutFull = true ↔ s.tokOut.length = s.cfg.tokqDepth := by
    simp only [State.tokOutFull, decide_eq_true_eq]
    omega
  unfold State.waitOut
  cases s.phase with
  | enc c pending nd => cases pending <;> simp [hfull]
  | _ => simp

/-- Settles O21, by the bits of the STATUS word. -/
theorem statusRegister : Obligations.StatusRegister := by
  intro s v hw hout
  refine ⟨⟨statusWord s, ?read, ?bits⟩, ?inReset, fun hr => ⟨s.flags.w1c v, ?write, ?cleared⟩⟩
  case read => exact step_onRead_register hw (t := .status) nofun rfl nofun rfl
  case bits =>
    obtain ⟨hbusy, hdone, herr, hin, ho, hsat, hacc, hovr, hlt⟩ := statusWord_bits s
    refine ⟨?_, hdone, herr, ?_, ?_, hsat, hacc, hovr, hlt⟩
    · rw [hbusy, State.busy, bne_iff_ne]
    · rw [hin, waitIn_iff]
    · rw [ho, waitOut_iff hout]
  case inReset => exact fun hr => step_onWrite_reset hw rfl (by decide) hr v
  case write => exact step_onWrite_target hw (t := .status) nofun rfl (.inl rfl) hr v
  case cleared =>
    have hclear : ∀ old bit : Bool, (old && !bit) = if bit then false else old := by decide
    exact ⟨hclear _ _, hclear _ _, hclear _ _, hclear _ _, hclear _ _⟩

/-- Settles O22: a CTRL write goes by its bits 8 and 9. -/
theorem controlRegister : Obligations.ControlRegister := by
  intro s v hw
  refine ⟨⟨ctrlWord s.ctrl, ?read, ctrlWord_bits s.ctrl⟩, ?inReset, fun hr h8 => ?enables, fun hr h8 => ?softReset,
    rfl, rfl⟩
  case read => exact step_onRead_register hw (t := .ctrl) nofun rfl nofun rfl
  case inReset => exact fun hr => step_onWrite_reset hw rfl (by decide) hr v
  case enables =>
    have hwrite : ∀ {u}, writeCtrl v s = u →
        step (s.onWrite 0x00C v) = .next { u with resp := some (.write .okay) } :=
      step_onWrite_register hw hr (t := .ctrl) nofun rfl rfl
    exact ⟨fun h9 => hwrite (writeCtrl_store h8 h9), fun h9 hi => hwrite (writeCtrl_flush h8 h9 hi),
      fun h9 hi => hwrite (writeCtrl_flush_refused h8 h9 hi)⟩
  case softReset => exact step_onWrite_register hw hr (t := .ctrl) nofun rfl rfl (writeCtrl_softReset h8)

/-- Settles O23: TOK_OUT pops outside RESET only. -/
theorem tokenOutPort : Obligations.TokenOutPort := by
  intro s v hw
  refine ⟨fun hr => ?pop, fun hr => ?inReset, ?write⟩
  case pop =>
    have hstep := step_onRead_target hw (off := 0x01C) (t := .tokOut) nofun rfl (.inl rfl) (.inl hr)
    refine ⟨fun w rest h => ?_, fun h => ?_⟩
    · simpa only [readEffect, popTokOut_cons h, targetValue, h, List.headD_cons] using hstep
    · simp only [readEffect, popTokOut_nil h, targetValue, h, List.headD_nil] at hstep
      exact hstep
  case inReset =>
    rw [State.onRead, step_onBus_read hw (by decide), memRead_reset_tokOut rfl (targetOf_eq nofun rfl) hr]
  case write => exact step_onWrite_readOnly hw (t := .tokOut) nofun rfl rfl rfl

/-- Settles O24: TOK_IN drops a word exactly when it is full. -/
theorem tokenInPort : Obligations.TokenInPort := by
  intro s v hw hin
  refine ⟨fun hr h => ?full, fun hr h => ?room, fun hr => ?inReset, ?read⟩
  case full =>
    exact step_onWrite_register hw hr (t := .tokIn) nofun rfl rfl ((pushTokIn_eq hin v).trans (if_pos h))
  case room =>
    exact step_onWrite_register hw hr (t := .tokIn) nofun rfl rfl ((pushTokIn_eq hin v).trans (if_neg h))
  case inReset => exact step_onWrite_reset hw rfl (by decide) hr v
  case read => exact step_onRead_register hw (t := .tokIn) nofun rfl nofun rfl

/-- Settles O25: both occupancies fit 16 bits, since TOKQ_DEPTH does. -/
theorem tokenQueueStatus : Obligations.TokenQueueStatus := by
  refine ⟨fun s hs => ⟨targetValue .tokqStat s, ?read, ?fields⟩, fun s v hw => ?write, rfl⟩
  case read => exact step_onRead_register hs.cfgOk (t := .tokqStat) nofun rfl nofun rfl
  case fields =>
    have hdepth := wf_depth hs.cfgOk
    have hout := hs.outFits
    have hin := hs.inFits
    simp only [targetValue, BitVec.toNat_ofNat]
    omega
  case write => exact step_onWrite_readOnly hw (t := .tokqStat) nofun rfl rfl rfl

/-- The word at which DC_PRED c stands (R30). -/
theorem dcPred_offset (c : Chan) : 0x028 + 4 * chanNum c = 4 * (Target.dcPred c).word := by
  simp only [Target.word]
  omega

/-- Settles O26, by what a read and a write at DC_PRED c do in each PHASE. -/
theorem dcPredictorAccess : Obligations.DcPredictorAccess := by
  intro s c v hw
  refine ⟨⟨(s.prevDc.get c).signExtend 32, ?value, ?read⟩, fun hi => ⟨v.setWidth 16, ?half, ?store⟩,
    fun hi hr => ?refused, fun hr => ⟨?inReset, fun hs => ?zero⟩⟩
  case value => exact BitVec.toInt_signExtend_of_le (by decide)
  case read => exact step_onRead_register hw (t := .dcPred c) nofun rfl nofun (dcPred_offset c)
  case half => exact BitVec.toNat_setWidth 16 v
  case store => exact step_onWrite_register hw (by simp [hi]) (t := .dcPred c) nofun rfl (dcPred_offset c) (if_pos hi)
  case refused => exact step_onWrite_register hw hr (t := .dcPred c) nofun rfl (dcPred_offset c) (if_neg hi)
  case inReset =>
    have := chanNum_lt c
    exact step_onWrite_reset hw (by omega) (by omega) hr v
  case zero =>
    rw [(phaseInv_reset_iff hr).1 hs.running, softReset_prevDc_get]
    rfl

/-- Settles O27, by the fields of the ERRINFO word and the effects a step can have. -/
theorem errorInfoRegister : Obligations.ErrorInfoRegister := by
  refine ⟨fun s hw => ⟨?_, errInfoWord s.errInfo, ?_, errInfoWord_toNat s.errInfo⟩, fun s t h hne => ?_⟩
  · exact step_onRead_register hw (t := .cmd) nofun rfl nofun rfl
  · exact step_onRead_register hw (t := .errInfo) nofun rfl nofun rfl
  · obtain ⟨-, rest, -, hE | ⟨a, u, r, -, hH, rfl⟩⟩ := step_effect h
    · exact .inl (hE.errInfo_changed hne)
    · exact hH.errInfo_changed hne

/-- Settles O28, by the bits of the STATUS and CTRL words. -/
theorem interruptLine : Obligations.InterruptLine := by
  refine ⟨fun s => ?_, rfl⟩
  obtain ⟨-, hdone, herr, hin, hout, -⟩ := statusWord_bits s
  obtain ⟨hieDone, hieErr, hieWait, -⟩ := ctrlWord_bits s.ctrl
  simp only [targetValue, hdone, herr, hin, hout, hieDone, hieErr, hieWait, State.irq]

end Sys2Proof.Machine
end

section
/-! The statements of 20_memory.md settled (R50, R55 to R63, R66): what an access of the host answers by its offset,
its width and PHASE, and what it leaves alone. -/

namespace Sys2Proof.Machine

/-- Settles O8: no offset belongs to such an address. -/
theorem outsideTheApertureFaults : Obligations.OutsideTheApertureFaults := by
  intro s addr bits v hw haddr
  rw [step_onBus hw, step_onBus hw]
  simp only [hostAccess, apertureOffset_none haddr, and_self]

/-! ## Refused accesses (R56, R57) -/

/-- A refused access changes ACCERR only, and not even that in RESET. -/
theorem refuseAccess_eq (s : State) :
    refuseAccess s =
      { s with flags := if s.phase = .reset then s.flags else { s.flags with accErr := true } } := by
  unfold refuseAccess
  split
  · rfl
  · rfl

/-- Settles O14: alignment and width are checked before anything else. -/
theorem misalignedOrNarrowAccessRefused : Obligations.MisalignedOrNarrowAccessRefused := by
  intro s off bits v hw hlt h
  rw [step_onBus_read hw hlt, step_onBus_write hw hlt, memRead_refused h, memWrite_refused h, refuseAccess_eq]
  exact ⟨rfl, rfl⟩

theorem step_onRead_locked {s : State} (hw : s.cfg.wf = true) {off : Nat} (hlt : off < 0x2000) (h4 : off % 4 = 0)
    (hb : inBuffer off) (hp : s.phase ≠ .idle) :
    step (s.onRead off) = .next { refuseAccess s with resp := some (.read 0 .error) } := by
  rw [State.onRead, step_onBus_read hw hlt, memRead_locked h4 ((targetOf_isBuffer_iff off).2 hb) hp]

theorem step_onWrite_locked {s : State} (hw : s.cfg.wf = true) {off : Nat} (hlt : off < 0x2000) (h4 : off % 4 = 0)
    (hb : inBuffer off) (hp : s.phase ≠ .idle) (hr : s.phase ≠ .reset) (v : Word) :
    step (s.onWrite off v) = .next { refuseAccess s with resp := some (.write .error) } := by
  rw [State.onWrite, step_onBus_write hw hlt, memWrite_locked h4 ((targetOf_isBuffer_iff off).2 hb) hp hr]

/-! ## Accesses that get OKAY (R55, R58, R60) -/

theorem targetOf_isBuffer_eq_false {off : Nat} (h : ¬ inBuffer off) : (targetOf off).isBuffer = false :=
  Bool.eq_false_iff.2 ((targetOf_isBuffer_iff off).not.2 h)

theorem step_onRead_reset_tokOut {s : State} (hw : s.cfg.wf = true) (hr : s.phase = .reset) :
    step (s.onRead 0x01C) = .next { s with resp := some (.read 0xFFFFFFFF .okay) } := by
  rw [State.onRead, step_onBus_read hw (by decide), memRead_reset_tokOut rfl (targetOf_eq nofun rfl) hr]

theorem step_onRead_answersOkay {s : State} (hw : s.cfg.wf = true) {off : Nat} (hlt : off < 0x2000) (h4 : off % 4 = 0)
    (h : ¬ inBuffer off ∨ s.phase = .idle) :
    ∃ t d, step (s.onRead off) = .next t ∧ t.resp = some (.read d .okay) := by
  rw [State.onRead, step_onBus_read hw hlt]
  by_cases hr : s.phase = .reset ∧ targetOf off = .tokOut
  · obtain ⟨hr, ht⟩ := hr
    rw [memRead_reset_tokOut h4 ht hr]
    exact ⟨_, _, rfl, rfl⟩
  · rw [memRead_okay h4 (h.imp_left targetOf_isBuffer_eq_false) (not_and_or.1 hr)]
    exact ⟨_, _, rfl, rfl⟩

theorem step_onWrite_answersOkay {s : State} (hw : s.cfg.wf = true) {off : Nat} (hlt : off < 0x2000) (h4 : off % 4 = 0)
    (h : ¬ inBuffer off ∨ s.phase = .idle) (v : Word) :
    ∃ t, step (s.onWrite off v) = .next t ∧ t.resp = some (.write .okay) := by
  by_cases hr : s.phase = .reset
  · exact ⟨_, step_onWrite_reset hw h4 hlt hr v, rfl⟩
  · rw [State.onWrite, step_onBus_write hw hlt, memWrite_okay h4 (h.imp_left targetOf_isBuffer_eq_false) hr]
    exact ⟨_, rfl, rfl⟩

/-- Settles O15, by the refused accesses and those that get OKAY. -/
theorem buffersLockedWhileBusy : Obligations.BuffersLockedWhileBusy := by
  intro s off v hw hlt h4
  refine ⟨fun hb hp => ⟨?read, fun hr => ?write⟩, fun h =>
    ⟨step_onRead_answersOkay hw hlt h4 h, step_onWrite_answersOkay hw hlt h4 h v⟩⟩
  case read => rw [step_onRead_locked hw hlt h4 hb hp, refuseAccess_eq]
  case write => rw [step_onWrite_locked hw hlt h4 hb hp hr, refuseAccess_eq, if_neg hr]

/-! ## Buffer elements (R61 to R63) -/

theorem pixelOfWord_toNat (v : Word) :
    (pixelOfWord v).r.toNat = v.toNat % 256 ∧ (pixelOfWord v).g.toNat = v.toNat / 256 % 256
      ∧ (pixelOfWord v).b.toNat = v.toNat / 65536 % 256 := by
  simp only [pixelOfWord, BitVec.extractLsb'_toNat, Nat.shiftRight_eq_div_pow, Nat.reducePow, Nat.div_one, and_self]

theorem pixelWord_toNat (p : Pixel) : (pixelWord p).toNat = p.r.toNat + 256 * p.g.toNat + 65536 * p.b.toNat := by
  have := p.r.isLt
  have := p.g.isLt
  have := p.b.isLt
  simp only [pixelWord, BitVec.toNat_ofNat]
  omega

/-- A read of a buffer element while idle returns its word and has no effect (R61 to R64). -/
theorem step_onRead_element {s : State} (hw : s.cfg.wf = true) (hi : s.phase = .idle) {t : Target}
    (hb : t.isBuffer = true) {off : Nat} (ho : off = 4 * t.word) :
    step (s.onRead off) = .next { s with resp := some (.read (targetValue t s) .okay) } := by
  have ht : t ≠ .reserved := by rintro rfl; cases hb
  rw [step_onRead_target hw ht ho (.inr hi) (.inl (by simp [hi]))]
  cases t with
  | px | ib | zs | rb => rfl
  | _ => cases hb

/-- A write of a buffer element while idle. -/
theorem step_onWrite_element {s : State} (hw : s.cfg.wf = true) (hi : s.phase = .idle) {t : Target}
    (hb : t.isBuffer = true) {off : Nat} (ho : off = 4 * t.word) (v : Word) :
    step (s.onWrite off v) = .next { writeTarget t v s with resp := some (.write .okay) } := by
  have ht : t ≠ .reserved := by rintro rfl; cases hb
  exact step_onWrite_target hw ht ho (.inr hi) (by simp [hi]) v

theorem px_offset (e : Fin 64) : 0x0100 + 4 * e.val = 4 * (Target.px e).word := by
  simp only [Target.word]
  omega

theorem qtLuma_offset (e : Fin 64) : 0x0200 + 4 * e.val = 4 * (Target.qtLuma e).word := by
  simp only [Target.word]
  omega

theorem qtChroma_offset (e : Fin 64) : 0x0300 + 4 * e.val = 4 * (Target.qtChroma e).word := by
  simp only [Target.word]
  omega

theorem ib_offset (c : Chan) (e : Fin 64) : 0x0400 + 0x100 * chanNum c + 4 * e.val = 4 * (Target.ib c e).word := by
  simp only [Target.word]
  omega

theorem zs_offset (c : Chan) (e : Fin 64) : 0x0800 + 0x100 * chanNum c + 4 * e.val = 4 * (Target.zs c e).word := by
  simp only [Target.word]
  omega

theorem rb_offset (c : Chan) (e : Fin 64) (upper : Bool) :
    0x1000 + 0x200 * chanNum c + 8 * e.val + 4 * upper.toNat = 4 * (Target.rb c e upper).word := by
  simp only [Target.word]
  omega

/-- Settles O16: PX[e] stands at 0x0100 + 4e. -/
theorem pixelElementAccess : Obligations.PixelElementAccess := by
  intro s e v hw hi
  exact ⟨⟨pixelOfWord v, step_onWrite_element hw hi (t := .px e) rfl (px_offset e) v, pixelOfWord_toNat v⟩,
    pixelWord s.px[e], step_onRead_element hw hi (t := .px e) rfl (px_offset e), pixelWord_toNat s.px[e]⟩

/-- A table entry fits its word (R142). -/
theorem tableEntry_toNat {n : Nat} (h : 1 ≤ n ∧ n ≤ 255) : (BitVec.ofNat 32 n).toNat = n := by
  rw [BitVec.toNat_ofNat]
  omega

/-- Settles O17, by where each element stands and what its word is. -/
theorem integerElementAccess : Obligations.IntegerElementAccess := by
  intro s c e v hw
  have hext : ∀ x : Coef, (x.signExtend 32).toInt = x.toInt := fun x => BitVec.toInt_signExtend_of_le (by decide)
  refine ⟨fun hi => ⟨⟨v.setWidth 16, BitVec.toNat_setWidth 16 v, ?writeIb, ?writeZs⟩, ⟨_, hext _, ?readIb⟩,
    ⟨_, hext _, ?readZs⟩⟩, ⟨_, tableEntry_toNat (wf_luma hw e), ?luma⟩, ⟨_, tableEntry_toNat (wf_chroma hw e), ?chroma⟩⟩
  case writeIb => exact step_onWrite_element hw hi (t := .ib c e) rfl (ib_offset c e) v
  case writeZs => exact step_onWrite_element hw hi (t := .zs c e) rfl (zs_offset c e) v
  case readIb => exact step_onRead_element hw hi (t := .ib c e) rfl (ib_offset c e)
  case readZs => exact step_onRead_element hw hi (t := .zs c e) rfl (zs_offset c e)
  case luma => exact step_onRead_register hw (t := .qtLuma e) nofun rfl nofun (qtLuma_offset e)
  case chroma => exact step_onRead_register hw (t := .qtChroma e) nofun rfl nofun (qtChroma_offset e)

/-- Settles O18: a write replaces one half of the encoding. -/
theorem realElementAccess : Obligations.RealElementAccess := by
  intro s c e v hw hi
  have hlower := rb_offset c e false
  have hupper := rb_offset c e true
  refine ⟨⟨_, setRealHalf_lower _ v false, setRealHalf_upper _ v false, ?writeLower⟩,
    ⟨_, setRealHalf_lower _ v true, setRealHalf_upper _ v true, ?writeUpper⟩, ?readLower, ?readUpper⟩
  case writeLower => exact step_onWrite_element hw hi (t := .rb c e false) rfl hlower v
  case writeUpper => exact step_onWrite_element hw hi (t := .rb c e true) rfl hupper v
  case readLower => exact step_onRead_element hw hi (t := .rb c e false) rfl hlower
  case readUpper => exact step_onRead_element hw hi (t := .rb c e true) rfl hupper

/-! ## Reserved offsets and reserved fields (R59) -/

theorem inReserved_lt {off : Nat} (h : inReserved off) : off < 0x2000 := by
  simp only [inReserved, inRange] at h
  omega

theorem step_onRead_reserved {s : State} (hw : s.cfg.wf = true) {off : Nat} (h4 : off % 4 = 0) (h : inReserved off) :
    step (s.onRead off) = .next { s with resp := some (.read 0 .okay) } := by
  have hlt := inReserved_lt h
  have ht := (targetOf_reserved_iff hlt).2 h
  rw [State.onRead, step_onBus_read hw hlt, memRead_okay h4 (.inl (by rw [ht]; rfl)) (.inr (by simp [ht])), ht]
  rfl

theorem step_onWrite_reserved {s : State} (hw : s.cfg.wf = true) {off : Nat} (h4 : off % 4 = 0) (h : inReserved off)
    (v : Word) : step (s.onWrite off v) = .next { s with resp := some (.write .okay) } := by
  have hlt := inReserved_lt h
  have ht := (targetOf_reserved_iff hlt).2 h
  by_cases hr : s.phase = .reset
  · exact step_onWrite_reset hw h4 hlt hr v
  · rw [State.onWrite, step_onBus_write hw hlt, memWrite_okay h4 (.inl (by rw [ht]; rfl)) hr, ht]
    rfl

/-- A write of a table entry is ignored (R59). -/
theorem step_onWrite_table {s : State} (hw : s.cfg.wf = true) {off : Nat} (h4 : off % 4 = 0)
    (h : inRange 0x0200 0x200 off) (v : Word) :
    step (s.onWrite off v) = .next { s with resp := some (.write .okay) } := by
  obtain ⟨hlo, hhi⟩ := h
  by_cases hl : off < 0x0300
  · have he : (off - 0x0200) / 4 < 64 := by omega
    refine step_onWrite_readOnly hw (t := .qtLuma ⟨_, he⟩) nofun rfl rfl ?_
    rw [← qtLuma_offset]
    dsimp only
    omega
  · have he : (off - 0x0300) / 4 < 64 := by omega
    refine step_onWrite_readOnly hw (t := .qtChroma ⟨_, he⟩) nofun rfl rfl ?_
    rw [← qtChroma_offset]
    dsimp only
    omega

theorem getLsbD_and_of_mask {v m : Word} {n : Nat} (h : m.getLsbD n = true) : (v &&& m).getLsbD n = v.getLsbD n := by
  rw [BitVec.getLsbD_and, h, Bool.and_true]

/-- A CTRL write looks at bits 2:0, 8 and 9 only (R32). -/
theorem writeCtrl_masked (v : Word) (s : State) : writeCtrl (v &&& 0x307) s = writeCtrl v s := by
  have hbit : ∀ n ∈ [0, 1, 2, 8, 9], (v &&& 0x307).getLsbD n = v.getLsbD n := fun n hn =>
    getLsbD_and_of_mask (by revert n; decide)
  simp only [List.forall_mem_cons] at hbit
  obtain ⟨h0, h1, h2, h8, h9, -⟩ := hbit
  simp only [writeCtrl, ctrlOfWord, h0, h1, h2, h8, h9]

/-- A STATUS write looks at the W1C bits only (R31). -/
theorem clearStatus_masked (v : Word) (s : State) : clearStatus (v &&& 0xE6) s = clearStatus v s := by
  have hbit : ∀ n ∈ [1, 2, 5, 6, 7], (v &&& 0xE6).getLsbD n = v.getLsbD n := fun n hn =>
    getLsbD_and_of_mask (by revert n; decide)
  simp only [List.forall_mem_cons] at hbit
  obtain ⟨h1, h2, h5, h6, h7, -⟩ := hbit
  simp only [clearStatus, Flags.w1c, h1, h2, h5, h6, h7]

/-- Two writes of a register with the same effect are the same step, in every PHASE. -/
theorem step_onWrite_congr {s : State} (hw : s.cfg.wf = true) {t : Target} (ht : t ≠ .reserved)
    (hb : t.isBuffer = false) {off : Nat} (ho : off = 4 * t.word) {v w : Word}
    (h : writeTarget t w s = writeTarget t v s) : step (s.onWrite off v) = step (s.onWrite off w) := by
  have hlt := t.word_lt
  by_cases hr : s.phase = .reset
  · rw [step_onWrite_reset hw (by omega) (by omega) hr, step_onWrite_reset hw (by omega) (by omega) hr]
  · rw [step_onWrite_target hw ht ho (.inl hb) hr, step_onWrite_target hw ht ho (.inl hb) hr, h]

theorem errInfoWord_lt (i : ErrInfo) : (errInfoWord i).toNat < 2 ^ 25 := by
  have := i.code.isLt
  have := i.op.isLt
  have := i.ch.isLt
  have := i.cursor.isLt
  rw [errInfoWord_toNat]
  omega

/-- Settles O19: reserved words and tables by their range, each read-only register by its word, and reserved fields by
the size of the register's word. -/
theorem reservedAndReadOnly : Obligations.ReservedAndReadOnly := by
  intro s off v hw h4
  refine ⟨step_onRead_reserved hw h4, ?writes, ?ctrl, ?status, fun n => getLsbD_of_toNat_lt (errInfoWord_lt s.errInfo),
    fun n => getLsbD_of_toNat_lt (cfgWord_lt s.cfg), ?ctrlMask, ?statusMask⟩
  case writes =>
    rintro (h | rfl | rfl | rfl | rfl | rfl | rfl | h)
    · exact step_onWrite_reserved hw h4 h v
    · exact step_onWrite_readOnly hw (t := .id) nofun rfl rfl rfl
    · exact step_onWrite_readOnly hw (t := .version) nofun rfl rfl rfl
    · exact step_onWrite_readOnly hw (t := .cfg) nofun rfl rfl rfl
    · exact step_onWrite_readOnly hw (t := .errInfo) nofun rfl rfl rfl
    · exact step_onWrite_readOnly hw (t := .tokOut) nofun rfl rfl rfl
    · exact step_onWrite_readOnly hw (t := .tokqStat) nofun rfl rfl rfl
    · exact step_onWrite_table hw h4 h v
  case ctrl =>
    obtain ⟨-, -, -, hlt⟩ := ctrlWord_bits s.ctrl
    exact fun n => getLsbD_of_toNat_lt (m := 3) hlt
  case status =>
    obtain ⟨-, -, -, -, -, -, -, -, hlt⟩ := statusWord_bits s
    exact fun n => getLsbD_of_toNat_lt (m := 8) hlt
  case ctrlMask => exact step_onWrite_congr hw (t := .ctrl) nofun rfl rfl (writeCtrl_masked v s)
  case statusMask => exact step_onWrite_congr hw (t := .status) nofun rfl rfl (clearStatus_masked v s)

/-! ## Accesses in RESET (R60) -/

/-- What the registers of a machine in RESET read as. -/
theorem targetValue_softReset (s : State) :
    targetValue .status (softReset s) = 1 ∧ targetValue .ctrl (softReset s) = 0 ∧ targetValue .cmd (softReset s) = 0
      ∧ targetValue .errInfo (softReset s) = 0 ∧ targetValue .tokqStat (softReset s) = 0
      ∧ ∀ c, targetValue (.dcPred c) (softReset s) = 0 := by
  refine ⟨rfl, rfl, rfl, rfl, rfl, fun c => ?_⟩
  rw [targetValue, softReset_prevDc_get]
  rfl

theorem State.Inv.eq_softReset {s : State} (hs : s.Inv) (hr : s.phase = .reset) : s = softReset s :=
  (phaseInv_reset_iff hr).1 hs.running

/-- An aligned offset of the predictors is the word of one of them (R30). -/
theorem exists_dcPred_word {off : Nat} (h4 : off % 4 = 0) (h : inRange 0x028 12 off) :
    ∃ c, off = 4 * (Target.dcPred c).word := by
  obtain ⟨hlo, hhi⟩ := h
  obtain rfl | rfl | rfl : off = 0x028 ∨ off = 0x02C ∨ off = 0x030 := by omega
  · exact ⟨.y, rfl⟩
  · exact ⟨.cb, rfl⟩
  · exact ⟨.cr, rfl⟩

/-- No host access in RESET sets a flag (R60). -/
theorem HostEffect.flags_of_reset {a : BusAccess} {s t : State} (h : HostEffect a s t) (hr : s.phase = .reset) :
    t.flags = s.flags := by
  have hidle : s.phase ≠ .idle := by simp [hr]
  cases h with
  | same | pop | ctrl | cmdAccepted | flush | push | dcPred | buffer => rfl
  | accErr h | softReset _ _ _ h | flushRefused _ _ h | clear _ h | cmdDropped h => exact absurd hr h
  | cmdError w e hi => exact absurd hi hidle

/-- Settles O13: in RESET every register holds its reset value, and no access has an effect. -/
theorem accessesDuringReset : Obligations.AccessesDuringReset := by
  refine ⟨fun s off v hs hr hlt h4 => ?_, fun s t a hs hr h => ?accErr⟩
  case accErr =>
    obtain ⟨u, r, hu, rfl⟩ := hostAccess_effect ((step_onBus hs.cfgOk a).symm.trans h)
    have hflags : u.flags = (softReset s).flags :=
      (hu.flags_of_reset hr).trans (congrArg State.flags (hs.eq_softReset hr))
    exact congrArg Flags.accErr hflags
  have hw := hs.cfgOk
  have hreads := targetValue_softReset s
  rw [← hs.eq_softReset hr] at hreads
  obtain ⟨hstatus, hctrl, hcmd, herr, hstat, hdc⟩ := hreads
  have hread : ∀ {t : Target} {d : Word}, t ≠ .reserved → t.isBuffer = false → t ≠ .tokOut → off = 4 * t.word →
      targetValue t s = d → step (s.onRead off) = .next { s with resp := some (.read d .okay) } :=
    fun ht hb hto ho hd => hd ▸ step_onRead_register hw ht hb hto ho
  refine ⟨step_onWrite_reset hw h4 hlt hr v, fun hb => ?buffer, ?tokOut, fun h => ?status, fun h => ?id,
    fun h => ?version, fun h => ?cfg, ?zero, fun e h => ?luma, fun e h => ?chroma⟩
  case buffer =>
    rw [step_onRead_locked hw hlt h4 hb (by simp [hr]), refuseAccess_eq, if_pos hr]
  case tokOut =>
    rintro rfl
    exact step_onRead_reset_tokOut hw hr
  case status => exact hread (t := .status) nofun rfl nofun h hstatus
  case id => exact hread (t := .id) nofun rfl nofun h rfl
  case version => exact hread (t := .version) nofun rfl nofun h rfl
  case cfg => exact hread (t := .cfg) nofun rfl nofun h rfl
  case zero =>
    rintro (h | h | h | h | h | h | h)
    · exact hread (t := .ctrl) nofun rfl nofun h hctrl
    · exact hread (t := .cmd) nofun rfl nofun h hcmd
    · exact hread (t := .errInfo) nofun rfl nofun h herr
    · exact hread (t := .tokIn) nofun rfl nofun h rfl
    · exact hread (t := .tokqStat) nofun rfl nofun h hstat
    · obtain ⟨c, ho⟩ := exists_dcPred_word h4 h
      exact hread (t := .dcPred c) nofun rfl nofun ho (hdc c)
    · exact step_onRead_reserved hw h4 h
  case luma => exact hread (t := .qtLuma e) nofun rfl nofun (h.trans (qtLuma_offset e)) rfl
  case chroma => exact hread (t := .qtChroma e) nofun rfl nofun (h.trans (qtChroma_offset e)) rfl

/-! ## A running command (R57, R66, R201) -/

/-- Settles O29, by the effects a host access can have: those that touch more need PHASE = IDLE. -/
theorem hostCannotDisturbACommand : Obligations.HostCannotDisturbACommand := by
  intro s t a hp h
  have hw : s.cfg.wf = true := (step_cases h).1
  obtain ⟨u, r, hu, rfl⟩ := hostAccess_effect ((step_onBus hw a).symm.trans h)
  cases hu with
  | softReset v ha h8 hr =>
    refine .inl ⟨v, ha, h8, hr, ?_⟩
    subst ha
    have hstep := step_onWrite_register hw hr (t := .ctrl) nofun rfl rfl (writeCtrl_softReset h8)
    exact Host.Outcome.next.inj (h.symm.trans hstep)
  | pop w rest hr ht =>
    refine .inr ⟨rfl, rfl, rfl, rfl, rfl, rfl, rfl, rfl, rfl, rfl, .inr ?_, .inl rfl⟩
    simp [ht]
  | push v hr hlen => exact .inr ⟨rfl, rfl, rfl, rfl, rfl, rfl, rfl, rfl, rfl, rfl, .inl rfl, .inr ⟨v, rfl⟩⟩
  | same | accErr | ctrl | flushRefused | clear | cmdDropped =>
    exact .inr ⟨rfl, rfl, rfl, rfl, rfl, rfl, rfl, rfl, rfl, rfl, .inl rfl, .inl rfl⟩
  | flush c hi | cmdError w e hi | cmdAccepted w i hi | dcPred c v ha hi | buffer px rb ib zs hi => exact absurd hi hp

end Sys2Proof.Machine
end

section
/-! The statements of 30_encoding.md settled (R80 to R84), with the laws they rest on: one law a branch of `decode`,
the fields of a word as numbers, and which OP values have a row of which kind. -/

namespace Sys2Proof.Machine

/-! ## The branches of `decode` (R83) -/

theorem decode_illegalOpcode {w : Word} (hop : opRow (opField w) = none) : decode w = .error .illegalOpcode := by
  simp only [decode, hop]

theorem decode_nonzeroRsv {w : Word} {row : OpRow} (hop : opRow (opField w) = some row) (hrsv : rsvField w ≠ 0) :
    decode w = .error .reservedField := by
  simp only [decode, hop, if_pos hrsv]

theorem decode_noChannel {w : Word} {i : Instr} (hop : opRow (opField w) = some (.noChannel i)) (hrsv : rsvField w = 0) :
    decode w = if chField w = 0 then .ok i else .error .reservedField := by
  simp only [decode, hop, hrsv, ne_eq, not_true_eq_false, if_false, ite_not]

theorem decode_channel {w : Word} {f : Chan → Instr} {c : Chan} (hop : opRow (opField w) = some (.channel f))
    (hrsv : rsvField w = 0) (hch : chField w = c.bits) : decode w = .ok (f c) := by
  simp only [decode, hop, hrsv, ne_eq, not_true_eq_false, if_false, (chan_ofBits_eq_some _ c).2 hch]

theorem chan_ofBits_eq_none (b : BitVec 2) : Chan.ofBits b = none ↔ b = 3 := by
  revert b
  decide

theorem decode_reservedChannel {w : Word} {f : Chan → Instr} (hop : opRow (opField w) = some (.channel f))
    (hrsv : rsvField w = 0) (hch : chField w = 3) : decode w = .error .reservedField := by
  simp only [decode, hop, hrsv, ne_eq, not_true_eq_false, if_false, (chan_ofBits_eq_none _).2 hch]

/-! ## Decoding and encoding are inverse (R80 to R84) -/

/-- The family `EncodeFields`, put together over all commands. -/
theorem encodeFields : ∀ i : Instr, Laws.EncodeFields.Statement i
  | .nop => Laws.EncodeFields.nop
  | .cscFwd => Laws.EncodeFields.cscFwd
  | .cscInv => Laws.EncodeFields.cscInv
  | .fdct c => Laws.EncodeFields.fdct c
  | .idct c => Laws.EncodeFields.idct c
  | .quant c => Laws.EncodeFields.quant c
  | .dequant c => Laws.EncodeFields.dequant c
  | .zzFlat c => Laws.EncodeFields.zzFlat c
  | .zzUnflat c => Laws.EncodeFields.zzUnflat c
  | .entEnc c => Laws.EncodeFields.entEnc c
  | .entDec c => Laws.EncodeFields.entDec c
  | .dcReset => Laws.EncodeFields.dcReset

/-- A command is the entry of the row of its own OP, with the CH that row allows. -/
theorem opRow_op (i : Instr) :
    (opRow i.op = some (.noChannel i) ∧ i.ch = 0) ∨ ∃ f c, opRow i.op = some (.channel f) ∧ i = f c ∧ i.ch = c.bits := by
  obtain ⟨-, -, -, hrow⟩ := encodeFields i
  unfold Laws.EncodeFields.ownRow at hrow
  split at hrow
  · exact hrow.elim
  next j hop =>
    obtain ⟨rfl, hch⟩ := hrow
    exact .inl ⟨hop, hch⟩
  next f hop =>
    obtain ⟨c, hi, hch⟩ := hrow
    exact .inr ⟨f, c, hop, hi, hch⟩

@[simp] theorem decode_encode (i : Instr) : decode (encode i) = .ok i := by
  have hop := opField_encode i
  have hch := chField_encode i
  have hrsv := rsvField_encode i
  obtain ⟨hrow, hzero⟩ | ⟨f, c, hrow, hi, hbits⟩ := opRow_op i
  · rw [decode_noChannel (hop ▸ hrow) hrsv, if_pos (hch.trans hzero)]
  · rw [decode_channel (hop ▸ hrow) hrsv (hch.trans hbits), ← hi]

theorem eq_encode_of_decode_ok {w : Word} {i : Instr} (h : decode w = .ok i) : w = encode i := by
  obtain ⟨hop, hch, hrsv⟩ := fields_of_decode_ok h
  exact word_ext_fields (hop.trans (opField_encode i).symm) (hch.trans (chField_encode i).symm)
    (hrsv.trans (rsvField_encode i).symm)

/-- Settles O2: a command is the entry of its OP's row, and the fields of a word determine it. -/
theorem decodeAndEncodeAgree : Obligations.DecodeAndEncodeAgree :=
  ⟨decode_encode, fun _ _ => eq_encode_of_decode_ok⟩

/-! ## Every word decodes or is rejected by name (R84) -/

theorem toNat_opField (w : Word) : (opField w).toNat = w.toNat % 256 := by
  simp only [opField, BitVec.extractLsb'_toNat, Nat.shiftRight_zero, Nat.reducePow]

theorem toNat_chField (w : Word) : (chField w).toNat = w.toNat / 256 % 4 := by
  simp only [chField, BitVec.extractLsb'_toNat, Nat.shiftRight_eq_div_pow, Nat.reducePow]

theorem toNat_rsvField (w : Word) : (rsvField w).toNat = w.toNat / 1024 := by
  have := w.isLt
  simp only [rsvField, BitVec.extractLsb'_toNat, Nat.shiftRight_eq_div_pow]
  omega

/-- The twelve OP values of the opcode map (R82). -/
def opcodes : List Nat := [0x00, 0x01, 0x02, 0x10, 0x11, 0x20, 0x21, 0x30, 0x31, 0x40, 0x41, 0x42]

/-- The OP values of the commands without a channel (R82). -/
def channelLess : List Nat := [0x00, 0x01, 0x02, 0x42]

/-- Which OP values have no row, a row without a channel, and a row with one (R82, R84). -/
theorem opRow_cases (op : BitVec 8) :
    (opRow op = none ∧ op.toNat ∉ opcodes ∧ op.toNat ∉ channelLess)
    ∨ (∃ i, opRow op = some (.noChannel i) ∧ op.toNat ∈ opcodes ∧ op.toNat ∈ channelLess)
    ∨ (∃ f, opRow op = some (.channel f) ∧ op.toNat ∈ opcodes ∧ op.toNat ∉ channelLess) := by
  unfold opRow
  split <;> simp_all [opcodes, channelLess]

theorem exists_chan_bits {b : BitVec 2} (h : b ≠ 3) : ∃ c : Chan, b = c.bits := by
  obtain ⟨c, hc⟩ := Option.ne_none_iff_exists'.1 (mt (chan_ofBits_eq_none b).1 h)
  exact ⟨c, (chan_ofBits_eq_some b c).1 hc⟩

/-- OP and CH of the command a word decodes to are the word's own, as numbers. -/
theorem toNat_op_ch_of_decode_ok {w : Word} {i : Instr} (h : decode w = .ok i) :
    i.op.toNat = w.toNat % 256 ∧ i.ch.toNat = w.toNat / 256 % 4 := by
  obtain ⟨hop, hch, -⟩ := fields_of_decode_ok h
  exact ⟨hop ▸ toNat_opField w, hch ▸ toNat_chField w⟩

/-- Settles O3, by the kind of row that the OP value has. -/
theorem everyWordDecodesOrIsRejectedByName : Obligations.EveryWordDecodesOrIsRejectedByName := by
  refine ⟨by decide +kernel, fun w => ?_⟩
  have hrsv : rsvField w = 0 ↔ w.toNat / 1024 = 0 := by rw [← toNat_rsvField, BitVec.toNat_eq]; rfl
  have hch (b : BitVec 2) : chField w = b ↔ w.toNat / 256 % 4 = b.toNat := by rw [← toNat_chField, BitVec.toNat_eq]
  have hrow := opRow_cases (opField w)
  rw [toNat_opField] at hrow
  obtain ⟨hrow, hop, hless⟩ | ⟨i, hrow, hop, hless⟩ | ⟨f, hrow, hop, hless⟩ := hrow
  case inl =>
    exact ⟨fun _ => decode_illegalOpcode hrow, fun h => absurd h hop, fun h => absurd h hless, fun h => absurd h hop,
      fun h => absurd h hop⟩
  case inr.inl =>
    refine ⟨fun h => absurd hop h, fun _ hr => decode_nonzeroRsv hrow (mt hrsv.1 hr), fun _ hr hc => ?channel,
      fun _ h => absurd hless h, fun _ hr hc => ?decoded⟩
    case channel => rw [decode_noChannel hrow (hrsv.2 hr), if_neg (mt (hch 0).1 hc)]
    case decoded =>
      obtain ⟨-, hc⟩ | ⟨h, -⟩ := hc
      · have hd : decode w = .ok i := by rw [decode_noChannel hrow (hrsv.2 hr), if_pos ((hch 0).2 hc)]
        exact ⟨i, hd, toNat_op_ch_of_decode_ok hd⟩
      · exact absurd hless h
  case inr.inr =>
    refine ⟨fun h => absurd hop h, fun _ hr => decode_nonzeroRsv hrow (mt hrsv.1 hr), fun h => absurd h hless,
      fun _ _ hr hc => decode_reservedChannel hrow (hrsv.2 hr) ((hch 3).2 hc), fun _ hr hc => ?decoded⟩
    obtain ⟨h, -⟩ | ⟨-, hc⟩ := hc
    · exact absurd h hless
    · obtain ⟨c, hbits⟩ := exists_chan_bits (mt (hch 3).1 hc)
      have hd := decode_channel hrow (hrsv.2 hr) hbits
      exact ⟨f c, hd, toNat_op_ch_of_decode_ok hd⟩

/-- Settles O1: each command's word is its encoding, and each error is a branch of `decode`. -/
theorem specWordsDecode : Obligations.SpecWordsDecode :=
  ⟨decode_encode .nop, decode_encode .cscFwd, decode_encode .cscInv, decode_encode (.fdct .y), decode_encode (.idct .cb),
    decode_encode (.quant .cb), decode_encode (.dequant .cr), decode_encode (.zzFlat .y), decode_encode (.zzUnflat .cr),
    decode_encode (.entEnc .cb), decode_encode (.entDec .cr), decode_encode .dcReset, decode_illegalOpcode rfl,
    decode_reservedChannel rfl rfl rfl, decode_nonzeroRsv rfl (by decide)⟩

end Sys2Proof.Machine
end

section
/-! The statements of 40_color.md settled (R100, R103, R104), with the laws they rest on: what each colour command
writes, and the samples and SAT of CSC_INV through `to8`. -/

namespace Sys2Proof.Machine

/-! ## CSC_FWD (R100) -/

theorem exec_cscFwd (s : State) : exec .cscFwd s = .next (complete { s with
    rb := ⟨tabulate fun e => fwdY s.px[e], tabulate fun e => fwdCb s.px[e], tabulate fun e => fwdCr s.px[e]⟩ }) := rfl

/-- Settles O31: element e of each block is its expression over PX[e], with the constants by their encodings. -/
theorem colorForward : Obligations.ColorForward := by
  refine ⟨rfl, fun s => ⟨_, exec_cscFwd s, rfl, fun e => ⟨?luma, ?blue, ?red⟩⟩⟩
  case luma => exact fin_getElem_tabulate (fun e => fwdY s.px[e]) e
  case blue => exact fin_getElem_tabulate (fun e => fwdCb s.px[e]) e
  case red => exact fin_getElem_tabulate (fun e => fwdCr s.px[e]) e

/-! ## CSC_INV (R103, R104) -/

theorem exec_cscInv (s : State) : exec .cscInv s = .next (complete { s with
    px := tabulate fun e => invPixel s.cfg.roundTie s.rb.y[e] s.rb.cb[e] s.rb.cr[e]
    flags := s.flags.orSat
      ((List.finRange 64).any fun e => invSat s.cfg.roundTie s.rb.y[e] s.rb.cb[e] s.rb.cr[e]) }) := rfl

/-- `to8` reports SAT for a NaN and for nothing else (R104). -/
@[simp] theorem to8_snd (tie : RoundTie) (x : F64) : (to8 tie x).2 = f64IsNaN x := by
  obtain ⟨-, -, -, hsat⟩ := to8_cases tie x
  exact hsat

/-- Each sample of a pixel of CSC_INV is `to8` of its own colour value. -/
theorem eq_to8_of_mem_invPixel {tie : RoundTie} {y cb cr x : F64} {b : Byte}
    (h : (x, b) ∈ [((invRgb y cb cr).1, (invPixel tie y cb cr).r), ((invRgb y cb cr).2.1, (invPixel tie y cb cr).g),
      ((invRgb y cb cr).2.2, (invPixel tie y cb cr).b)]) : b = (to8 tie x).1 := by
  simp only [List.mem_cons, List.not_mem_nil, or_false, Prod.mk.injEq] at h
  obtain ⟨rfl, rfl⟩ | ⟨rfl, rfl⟩ | ⟨rfl, rfl⟩ := h <;> rfl

/-- An element sets SAT exactly when one of its three colour values is a NaN. -/
theorem invSat_iff (tie : RoundTie) (y cb cr : F64) : invSat tie y cb cr = true ↔
    f64IsNaN (invRgb y cb cr).1 = true ∨ f64IsNaN (invRgb y cb cr).2.1 = true
      ∨ f64IsNaN (invRgb y cb cr).2.2 = true := by
  simp only [invSat, to8_snd, Bool.or_eq_true, or_assoc]

/-- Settles O32: the samples are those of `to8`, case by case, and SAT gathers the NaNs of all elements. -/
theorem colorInverse : Obligations.ColorInverse := by
  refine ⟨rfl, fun s => ⟨_, exec_cscInv s, rfl, fun e => invRgb s.rb.y[e] s.rb.cb[e] s.rb.cr[e], fun e => rfl,
    fun e x b hmem => ?samples, ?sat⟩⟩
  case samples =>
    simp only [complete_fields, fin_getElem_tabulate] at hmem
    obtain ⟨hnan, hinf, hfinite, -⟩ := to8_cases s.cfg.roundTie x
    rw [eq_to8_of_mem_invPixel hmem]
    exact ⟨hnan, hinf, hfinite⟩
  case sat =>
    simp only [complete_fields, Flags.setDone_fields, Flags.orSat_fields, Bool.or_eq_true, List.any_eq_true,
      List.mem_finRange, true_and, invSat_iff]

end Sys2Proof.Machine
end

section
/-! The statements of 41_transform.md settled (R123, R125, R127, R129, R130), with the laws they rest on: the block each
transform writes, and what the accumulation of R123 and R125 makes of zeros and of a NaN. -/

namespace Sys2Proof.Machine

/-! ## The state a transform leaves (R130) -/

/-- The state that FDCT c and IDCT c leave with `b` as the block of the channel. -/
def withTransformed (c : Chan) (b : Block F64) (s : State) : State :=
  complete { s with rb := s.rb.set c b, nanSeq := s.nanSeq + 1 }

theorem exec_fdct (c : Chan) (s : State) : exec (.fdct c) s =
    .next (withTransformed c (fdctBlock s.cfg.dctNumerics s.nanSeq (s.rb.get c)) s) := rfl

theorem exec_idct (c : Chan) (s : State) : exec (.idct c) s =
    .next (withTransformed c (idctBlock s.cfg.dctNumerics s.nanSeq (s.rb.get c)) s) := rfl

@[simp] theorem withTransformed_rb_get (c : Chan) (b : Block F64) (s : State) : (withTransformed c b s).rb.get c = b :=
  PerChan.get_set_self s.rb c b

theorem withTransformed_frame (c : Chan) (b : Block F64) (s : State) :
    withTransformed c b s = { s with
      rb := s.rb.set c ((withTransformed c b s).rb.get c)
      nanSeq := (withTransformed c b s).nanSeq
      phase := .idle
      flags := { s.flags with done := true } } := by
  rw [withTransformed_rb_get]
  rfl

/-! ## The elements under REF64 (R123, R125) -/

theorem getElem_fdctBlock_ref64 (seq : Nat) (inp : Block F64) (e : Fin 64) :
    (fdctBlock .ref64 seq inp)[e] = withFreeNaN seq e (fdctElem inp (rowOf e) (colOf e)) :=
  fin_getElem_tabulate _ e

theorem getElem_idctBlock_ref64 (seq : Nat) (inp : Block F64) (e : Fin 64) :
    (idctBlock .ref64 seq inp)[e] = withFreeNaN seq e (idctElem inp (rowOf e) (colOf e)) :=
  fin_getElem_tabulate _ e

/-- R123 with the constants and tables as R120 and R121 print them. -/
theorem fdctElem_printed (inp : Block F64) (u v : Fin 8) : fdctElem inp u v =
    f64Mul (f64Mul (f64Mul 0x3FD0000000000000 (cuPrinted u)) (cuPrinted v))
      (dctSum fun x y => f64Mul (f64Mul inp[elemIdx x y] (cosPrinted u x)) (cosPrinted v y)) := by
  simp only [fdctElem, cosTab_eq_printed, cu_eq_printed, quarter]

/-- R125 with the constants and tables as R120 and R121 print them. -/
theorem idctElem_printed (inp : Block F64) (x y : Fin 8) : idctElem inp x y =
    f64Mul 0x3FD0000000000000 (dctSum fun u v => f64Mul (f64Mul (f64Mul (f64Mul (cuPrinted u) (cuPrinted v))
      inp[elemIdx u v]) (cosPrinted u x)) (cosPrinted v y)) := by
  simp only [idctElem, cosTab_eq_printed, cu_eq_printed, quarter]

/-- Settles O33: each element written is R123's, with a free pattern where that is a NaN. -/
theorem forwardTransform : Obligations.ForwardTransform := by
  intro c s
  refine ⟨_, exec_fdct c s, withTransformed_frame c _ s, fun hnum => ?abstract, fun hnum u v => ?ref64⟩
  case abstract => rw [withTransformed_rb_get, hnum, fdctBlock]
  case ref64 =>
    rw [withTransformed_rb_get, hnum, getElem_fdctBlock_ref64, rowOf_elemIdx, colOf_elemIdx, fdctElem_printed]
    exact withFreeNaN_cases s.nanSeq (elemIdx u v) _

/-- Settles O34: each element written is R125's, with a free pattern where that is a NaN. -/
theorem inverseTransform : Obligations.InverseTransform := by
  intro c s
  refine ⟨_, exec_idct c s, withTransformed_frame c _ s, fun hnum => ?abstract, fun hnum x y => ?ref64⟩
  case abstract => rw [withTransformed_rb_get, hnum, idctBlock]
  case ref64 =>
    rw [withTransformed_rb_get, hnum, getElem_idctBlock_ref64, rowOf_elemIdx, colOf_elemIdx, idctElem_printed]
    exact withFreeNaN_cases s.nanSeq (elemIdx x y) _

/-! ## Zeros (R129) -/

/-- +0.0 or −0.0. -/
def IsSignedZero (x : F64) : Prop := x = 0 ∨ x = 0x8000000000000000

theorem isSignedZero_signedZero (neg : Bool) : IsSignedZero (signedZero neg) := by
  cases neg
  · exact .inl rfl
  · exact .inr rfl

theorem IsSignedZero.isFinite_and_val {x : F64} (h : IsSignedZero x) : f64IsFinite x = true ∧ f64Val x = 0 := by
  rcases h with rfl | rfl <;> decide

/-- A zero times a finite value is a zero. -/
theorem IsSignedZero.mul_left {x y : F64} (hx : IsSignedZero x) (hy : f64IsFinite y = true) :
    IsSignedZero (f64Mul x y) := by
  obtain ⟨hfin, hval⟩ := hx.isFinite_and_val
  rw [f64Mul_exact_zero hfin hy (.inl hval)]
  exact isSignedZero_signedZero _

/-- A finite value times a zero is a zero. -/
theorem IsSignedZero.mul_right {x y : F64} (hx : f64IsFinite x = true) (hy : IsSignedZero y) :
    IsSignedZero (f64Mul x y) := by
  obtain ⟨hfin, hval⟩ := hy.isFinite_and_val
  rw [f64Mul_exact_zero hx hfin (.inr hval)]
  exact isSignedZero_signedZero _

/-- +0.0 plus a zero of either sign is +0.0. -/
theorem IsSignedZero.zero_add {x : F64} (h : IsSignedZero x) : f64Add 0 x = 0 := by
  rcases h with rfl | rfl <;> decide

/-- A finite value of positive sign times +0.0 is +0.0. -/
theorem f64Mul_zero_of_positive {x : F64} (hx : f64IsFinite x = true ∧ f64Sign x = false) : f64Mul x 0 = 0 := by
  rw [f64Mul_exact_zero hx.1 (by decide) (.inr (by decide)), hx.2]
  rfl

/-- The accumulation starts from +0.0, and no zero term moves it. -/
theorem dctSum_of_zeros {f : Fin 8 → Fin 8 → F64} (h : ∀ a b, IsSignedZero (f a b)) : dctSum f = 0 :=
  List.foldl_fixed' (fun a => List.foldl_fixed' (fun b => (h a b).zero_add) _) _

theorem cosTab_isFinite (k n : Fin 8) : f64IsFinite (cosTab k n) = true := by
  revert k n
  decide +kernel

theorem cu_mul_cu_isFinite (u v : Fin 8) : f64IsFinite (f64Mul (cu u) (cu v)) = true := by
  revert u v
  decide +kernel

/-- The scale of an FDCT output. -/
theorem fdctScale_positive (u v : Fin 8) : f64IsFinite (f64Mul (f64Mul quarter (cu u)) (cu v)) = true
    ∧ f64Sign (f64Mul (f64Mul quarter (cu u)) (cu v)) = false := by
  revert u v
  decide +kernel

theorem fdctElem_of_zeros {inp : Block F64} (h : ∀ e : Fin 64, IsSignedZero inp[e]) (u v : Fin 8) :
    fdctElem inp u v = 0 := by
  have hterm : ∀ x y, IsSignedZero (f64Mul (f64Mul inp[elemIdx x y] (cosTab u x)) (cosTab v y)) := fun x y =>
    ((h (elemIdx x y)).mul_left (cosTab_isFinite u x)).mul_left (cosTab_isFinite v y)
  rw [fdctElem, dctSum_of_zeros hterm, f64Mul_zero_of_positive (fdctScale_positive u v)]

theorem idctElem_of_zeros {inp : Block F64} (h : ∀ e : Fin 64, IsSignedZero inp[e]) (x y : Fin 8) :
    idctElem inp x y = 0 := by
  have hterm : ∀ u v, IsSignedZero
      (f64Mul (f64Mul (f64Mul (f64Mul (cu u) (cu v)) inp[elemIdx u v]) (cosTab u x)) (cosTab v y)) := fun u v =>
    ((IsSignedZero.mul_right (cu_mul_cu_isFinite u v) (h (elemIdx u v))).mul_left (cosTab_isFinite u x)).mul_left
      (cosTab_isFinite v y)
  rw [idctElem, dctSum_of_zeros hterm, f64Mul_zero_of_positive (by decide)]

/-! ## NaNs (R129) -/

/-- What one element of a list brings about, and no element undoes, holds at the end of the fold. -/
theorem foldl_of_mem {α β : Type} {p : β → Prop} {f : β → α → β} {l : List α} {a : α} (ha : a ∈ l)
    (hmake : ∀ acc, p (f acc a)) (hkeep : ∀ acc b, p acc → p (f acc b)) (init : β) : p (l.foldl f init) := by
  obtain ⟨before, after, rfl⟩ := List.append_of_mem ha
  rw [List.foldl_append, List.foldl_cons]
  exact List.foldlRecOn after f (hmake _) fun acc hacc b _ => hkeep acc b hacc

/-- One NaN term makes the accumulation a NaN. -/
theorem dctSum_nan {f : Fin 8 → Fin 8 → F64} {a b : Fin 8} (h : f64IsNaN (f a b) = true) :
    f64IsNaN (dctSum f) = true := by
  have hkeep : ∀ (a' : Fin 8) (acc : F64) (b' : Fin 8), f64IsNaN acc = true → f64IsNaN (f64Add acc (f a' b')) = true :=
    fun _ _ _ hacc => f64Add_nan (.inl hacc)
  refine foldl_of_mem (p := (f64IsNaN · = true)) (List.mem_finRange a) (fun acc => ?row) (fun acc a' hacc => ?rest) 0
  case row => exact foldl_of_mem (List.mem_finRange b) (fun _ => f64Add_nan (.inr h)) (hkeep a) acc
  case rest =>
    exact List.foldlRecOn (motive := (f64IsNaN · = true)) _ _ hacc fun acc hacc b' _ => hkeep a' acc b' hacc

theorem fdctElem_nan {inp : Block F64} {e : Fin 64} (h : f64IsNaN inp[e] = true) (u v : Fin 8) :
    f64IsNaN (fdctElem inp u v) = true := by
  rw [← elemIdx_rowOf_colOf e] at h
  exact f64Mul_nan (.inr (dctSum_nan (f64Mul_nan (.inl (f64Mul_nan (.inl h))))))

theorem idctElem_nan {inp : Block F64} {e : Fin 64} (h : f64IsNaN inp[e] = true) (x y : Fin 8) :
    f64IsNaN (idctElem inp x y) = true := by
  rw [← elemIdx_rowOf_colOf e] at h
  exact f64Mul_nan (.inr (dctSum_nan (f64Mul_nan (.inl (f64Mul_nan (.inl (f64Mul_nan (.inr h))))))))

theorem withFreeNaN_zero (seq : Nat) (e : Fin 64) : withFreeNaN seq e 0 = 0 :=
  (withFreeNaN_cases seq e 0).1 (by decide)

theorem fdctBlock_of_zeros {inp : Block F64} (h : ∀ e : Fin 64, IsSignedZero inp[e]) (seq : Nat) (e : Fin 64) :
    (fdctBlock .ref64 seq inp)[e] = 0 := by
  rw [getElem_fdctBlock_ref64, fdctElem_of_zeros h, withFreeNaN_zero]

theorem idctBlock_of_zeros {inp : Block F64} (h : ∀ e : Fin 64, IsSignedZero inp[e]) (seq : Nat) (e : Fin 64) :
    (idctBlock .ref64 seq inp)[e] = 0 := by
  rw [getElem_idctBlock_ref64, idctElem_of_zeros h, withFreeNaN_zero]

theorem fdctBlock_nan {inp : Block F64} {i : Fin 64} (h : f64IsNaN inp[i] = true) (seq : Nat) (e : Fin 64) :
    f64IsNaN (fdctBlock .ref64 seq inp)[e] = true := by
  rw [getElem_fdctBlock_ref64]
  exact (withFreeNaN_cases seq e _).2 (fdctElem_nan h _ _)

theorem idctBlock_nan {inp : Block F64} {i : Fin 64} (h : f64IsNaN inp[i] = true) (seq : Nat) (e : Fin 64) :
    f64IsNaN (idctBlock .ref64 seq inp)[e] = true := by
  rw [getElem_idctBlock_ref64]
  exact (withFreeNaN_cases seq e _).2 (idctElem_nan h _ _)

/-- Settles O35: zero terms leave the accumulation at +0.0, and a NaN operand makes each later result a NaN. -/
theorem transformOfZerosAndNaN : Obligations.TransformOfZerosAndNaN := by
  intro i c s t hi hnum hstep
  rcases hi with rfl | rfl
  case inl =>
    rw [exec_fdct, Host.Outcome.next.injEq] at hstep
    rw [← hstep, withTransformed_rb_get, hnum]
    exact ⟨fun hz => fdctBlock_of_zeros hz _, fun ⟨_, hn⟩ => fdctBlock_nan hn _⟩
  case inr =>
    rw [exec_idct, Host.Outcome.next.injEq] at hstep
    rw [← hstep, withTransformed_rb_get, hnum]
    exact ⟨fun hz => idctBlock_of_zeros hz _, fun ⟨_, hn⟩ => idctBlock_nan hn _⟩

/-! ## The bound under ABSTRACT (R127) -/

/-- Settles O36: the block written is `fdct_impl` or `idct_impl` of the block read, which the premise bounds. -/
theorem abstractTransformsMeetTheBound : Obligations.AbstractTransformsMeetTheBound := by
  intro hbound c s hnum
  obtain ⟨hsmall, hlarge⟩ := hbound (s.rb.get c)
  refine ⟨fun hb => ⟨_, exec_fdct c s, ?fdct⟩, fun hb => ⟨_, exec_idct c s, ?idct⟩⟩
  case fdct =>
    rw [withTransformed_rb_get, hnum]
    exact (hsmall hb).1
  case idct =>
    rw [withTransformed_rb_get, hnum]
    exact (hlarge hb).2

end Sys2Proof.Machine
end

section
/-! The statements of 42_quantizer.md settled (R140, R142 to R145), with the laws they rest on: the table entry a lane
uses, the state each command leaves, and the size of a DEQUANT product, which is what makes it exact. -/

namespace Sys2Proof.Machine

/-- R140 for one element. -/
theorem getElem_qtabOf (p : Params) (c : Chan) (e : Fin 64) :
    (qtabOf p c)[e] = if c = .y then p.qtabLuma[e] else p.qtabChroma[e] := by
  cases c <;> rfl

/-! ## QUANT (R143, R144) -/

/-- The quotient that QUANT c rounds at element e. -/
def quantQuotient (c : Chan) (s : State) (e : Fin 64) : F64 :=
  f64Div (s.rb.get c)[e] (f64OfInt (qtabOf s.cfg c)[e])

/-- The state that QUANT c leaves: `qelem` of each quotient, and SAT gathered over the elements. -/
def withQuantized (c : Chan) (s : State) : State :=
  complete { s with
    ib := s.ib.set c (tabulate fun e => (qelem s.cfg.roundTie (quantQuotient c s e)).1)
    flags := s.flags.orSat ((List.finRange 64).any fun e => (qelem s.cfg.roundTie (quantQuotient c s e)).2) }

theorem exec_quant (c : Chan) (s : State) : exec (.quant c) s = .next (withQuantized c s) := rfl

@[simp] theorem withQuantized_ib_get (c : Chan) (s : State) :
    (withQuantized c s).ib.get c = tabulate fun e => (qelem s.cfg.roundTie (quantQuotient c s e)).1 :=
  PerChan.get_set_self s.ib c _

theorem withQuantized_frame (c : Chan) (s : State) :
    withQuantized c s = { s with
      ib := s.ib.set c ((withQuantized c s).ib.get c)
      phase := .idle
      flags := { s.flags with done := true, sat := (withQuantized c s).flags.sat } } := by
  rw [withQuantized_ib_get]
  rfl

theorem withQuantized_sat_iff (c : Chan) (s : State) : (withQuantized c s).flags.sat = true ↔
    s.flags.sat = true ∨ ∃ e, (qelem s.cfg.roundTie (quantQuotient c s e)).2 = true := by
  simp only [withQuantized, complete_fields, Flags.setDone_fields, Flags.orSat_fields, Bool.or_eq_true,
    List.any_eq_true, List.mem_finRange, true_and]

/-- Settles O37: each element is `qelem` of its quotient, and SAT gathers what `qelem` reports. -/
theorem quantize : Obligations.Quantize := by
  refine ⟨fun c => by cases c <;> rfl, fun c s => ⟨_, exec_quant c s, withQuantized_frame c s, quantQuotient c s,
    fun e => ?entry, fun e => ?integer, ?sat⟩⟩
  case entry => rw [quantQuotient, getElem_qtabOf]
  case integer =>
    rw [withQuantized_ib_get, fin_getElem_tabulate]
    exact qelem_cases s.cfg.roundTie (quantQuotient c s e)
  case sat => simp only [withQuantized_sat_iff, qelem_sat_iff]

/-! ## DEQUANT (R145) -/

/-- The state that DEQUANT c leaves. -/
def withDequantized (c : Chan) (s : State) : State :=
  complete { s with rb := s.rb.set c (tabulate fun e => dequantLane (s.ib.get c)[e] (qtabOf s.cfg c)[e]) }

theorem exec_dequant (c : Chan) (s : State) : exec (.dequant c) s = .next (withDequantized c s) := rfl

@[simp] theorem withDequantized_rb_get (c : Chan) (s : State) : (withDequantized c s).rb.get c =
    tabulate fun e => dequantLane (s.ib.get c)[e] (qtabOf s.cfg c)[e] :=
  PerChan.get_set_self s.rb c _

theorem withDequantized_frame (c : Chan) (s : State) :
    withDequantized c s = { s with
      rb := s.rb.set c ((withDequantized c s).rb.get c)
      phase := .idle
      flags := { s.flags with done := true } } := by
  rw [withDequantized_rb_get]
  rfl

/-- An int16 times an entry of a table stays far below what a binary64 significand holds. -/
theorem dequantProduct_lt (i : Coef) {q : Nat} (hq : q ≤ 255) : (i.toInt * q).natAbs < 2 ^ 53 := by
  have hi : i.toInt.natAbs ≤ 2 ^ 15 := by
    have hlo := i.le_toInt
    have hhi := i.toInt_lt
    omega
  calc (i.toInt * q).natAbs = i.toInt.natAbs * q := by rw [Int.natAbs_mul, Int.natAbs_natCast]
    _ ≤ 2 ^ 15 * 255 := Nat.mul_le_mul hi hq
    _ < 2 ^ 53 := by decide

/-- A lane of DEQUANT is the exact product, and +0.0 for a zero one. -/
theorem dequantLane_exact (i : Coef) {q : Nat} (hq : q ≤ 255) :
    f64IsFinite (dequantLane i q) = true ∧ f64Val (dequantLane i q) = i.toInt * q * 2 ^ 1074
      ∧ (i.toInt * q = 0 → dequantLane i q = 0) :=
  f64OfInt_exact (dequantProduct_lt i hq)

/-- Settles O38: in a configuration every product is small enough to be exact. -/
theorem dequantizeIsExact : Obligations.DequantizeIsExact := by
  refine ⟨fun c => by cases c <;> rfl, fun c s hwf => ⟨_, exec_dequant c s, withDequantized_frame c s, fun e => ?_⟩⟩
  obtain ⟨-, hentry⟩ := wf_qtabOf hwf c e
  rw [withDequantized_rb_get, fin_getElem_tabulate, ← getElem_qtabOf]
  exact dequantLane_exact (s.ib.get c)[e] hentry

end Sys2Proof.Machine
end

section
/-! The statements of 43_zigzag.md settled (R162 to R164), with the laws they rest on: the state each command leaves, and
the two reorderings as inverses of each other, ZZ being a bijection in a configuration (R161). -/

namespace Sys2Proof.Machine

/-! ## The states the commands leave (R162, R163) -/

/-- The state that ZZ_FLAT c leaves. -/
def withFlattened (c : Chan) (s : State) : State :=
  complete { s with zs := s.zs.set c (zzFlatten s.cfg.zz (s.ib.get c)) }

/-- The state that ZZ_UNFLAT c leaves. -/
def withUnflattened (c : Chan) (s : State) : State :=
  complete { s with ib := s.ib.set c (zzUnflatten s.cfg.zz (s.zs.get c)) }

theorem exec_zzFlat (c : Chan) (s : State) : exec (.zzFlat c) s = .next (withFlattened c s) := rfl

theorem exec_zzUnflat (c : Chan) (s : State) : exec (.zzUnflat c) s = .next (withUnflattened c s) := rfl

@[simp] theorem withFlattened_fields (c : Chan) (s : State) :
    (withFlattened c s).cfg = s.cfg ∧ (withFlattened c s).ib = s.ib
      ∧ (withFlattened c s).zs = s.zs.set c (zzFlatten s.cfg.zz (s.ib.get c)) := ⟨rfl, rfl, rfl⟩

@[simp] theorem withUnflattened_fields (c : Chan) (s : State) :
    (withUnflattened c s).cfg = s.cfg ∧ (withUnflattened c s).zs = s.zs
      ∧ (withUnflattened c s).ib = s.ib.set c (zzUnflatten s.cfg.zz (s.zs.get c)) := ⟨rfl, rfl, rfl⟩

/-! ## The two reorderings (R162 to R164) -/

/-- Entry i of the sequence is the element ZZ[i] of the block (R162). -/
@[simp] theorem getElem_zzFlatten (zz : Block (Fin 64)) (b : Block Coef) (i : Fin 64) :
    (zzFlatten zz b)[i] = b[zz[i]] :=
  fin_getElem_tabulate _ i

/-- Placing a sequence and reading it back in the same order needs ZZ to repeat no index. -/
theorem zzFlatten_zzUnflatten {zz : Block (Fin 64)} (hz : Function.Injective (fun i : Fin 64 => zz[i]))
    (z : Block Coef) : zzFlatten zz (zzUnflatten zz z) = z := by
  refine Vector.ext fun i hi => ?_
  calc (zzFlatten zz (zzUnflatten zz z))[(⟨i, hi⟩ : Fin 64)]
    _ = (zzUnflatten zz z)[zz[(⟨i, hi⟩ : Fin 64)]] := getElem_zzFlatten zz _ ⟨i, hi⟩
    _ = z[(⟨i, hi⟩ : Fin 64)] := zzUnflatten_at hz z ⟨i, hi⟩

/-- Every element of a block comes back from its sequence, since ZZ also reaches every index. -/
theorem zzUnflatten_zzFlatten {zz : Block (Fin 64)} (hz : Function.Bijective (fun i : Fin 64 => zz[i]))
    (b : Block Coef) : zzUnflatten zz (zzFlatten zz b) = b := by
  refine Vector.ext fun e he => ?_
  obtain ⟨i, hi : zz[i] = ⟨e, he⟩⟩ := hz.surjective ⟨e, he⟩
  have hback : (zzUnflatten zz (zzFlatten zz b))[zz[i]] = b[zz[i]] := by
    rw [zzUnflatten_at hz.injective, getElem_zzFlatten]
  simpa only [hi, Fin.getElem_fin] using hback

theorem withUnflattened_withFlattened_ib {s : State} (hwf : s.cfg.wf = true) (c : Chan) :
    (withUnflattened c (withFlattened c s)).ib = s.ib := by
  simp only [withUnflattened_fields, withFlattened_fields, PerChan.get_set_self,
    zzUnflatten_zzFlatten (wf_zz_bijective hwf), PerChan.set_get]

theorem withFlattened_withUnflattened_zs {s : State} (hwf : s.cfg.wf = true) (c : Chan) :
    (withFlattened c (withUnflattened c s)).zs = s.zs := by
  simp only [withFlattened_fields, withUnflattened_fields, PerChan.get_set_self,
    zzFlatten_zzUnflatten (wf_zz_bijective hwf).injective, PerChan.set_get]

/-! ## The statements -/

/-- Settles O39: the sequence written is `zzFlatten` of the block. -/
theorem zigzagFlatten : Obligations.ZigzagFlatten :=
  ⟨fun c => by cases c <;> rfl,
    fun c s => ⟨_, exec_zzFlat c s, getElem_zzFlatten s.cfg.zz (s.ib.get c)⟩⟩

/-- Settles O40: the block written is `zzUnflatten` of the sequence, whose assignments do not overwrite one another. -/
theorem zigzagUnflatten : Obligations.ZigzagUnflatten :=
  ⟨fun c => by cases c <;> rfl,
    fun c s hwf => ⟨_, exec_zzUnflat c s, zzUnflatten_at (wf_zz_bijective hwf).injective (s.zs.get c)⟩⟩

/-- Settles O41: both commands complete, and the two reorderings are inverse to each other. -/
theorem zigzagRoundTrips : Obligations.ZigzagRoundTrips := fun c s hwf =>
  ⟨⟨_, _, exec_zzFlat c s, exec_zzUnflat c _, withUnflattened_withFlattened_ib hwf c⟩,
    ⟨_, _, exec_zzUnflat c s, exec_zzFlat c _, withFlattened_withUnflattened_zs hwf c⟩⟩

end Sys2Proof.Machine
end

section
/-! The statements of 44_entropy.md settled (R172 to R176, R180 to R185, R187, R188), with the laws they rest on: the
state each step of ENT_ENC and of ENT_DEC leaves, the words of a stream before its EOB, and the runs of both commands. -/

namespace Sys2Proof.Machine

/-! ## The start steps and DC_RESET (R172, R180, R188) -/

/-- The state ENT_ENC c's start step leaves. -/
def withEncoding (c : Chan) (s : State) : State :=
  { s with phase := .enc c (encTokens (s.prevDc.get c) (s.zs.get c)) (s.zs.get c)[(0 : Fin 64)] }

/-- The state ENT_DEC c's start step leaves. -/
def withDecoding (c : Chan) (s : State) : State :=
  { s with zs := s.zs.set c (Vector.replicate 64 0), phase := .dec c .dc 1 0 }

theorem exec_entEnc (c : Chan) (s : State) : exec (.entEnc c) s = .next (withEncoding c s) := rfl

theorem exec_entDec (c : Chan) (s : State) : exec (.entDec c) s = .next (withDecoding c s) := rfl

theorem exec_dcReset (s : State) : exec .dcReset s = .next (complete { s with prevDc := ⟨0, 0, 0⟩ }) := rfl

/-- Settles O42: the start step is `withEncoding`. -/
theorem encodeStarts : Obligations.EncodeStarts :=
  ⟨fun c => by cases c <;> rfl, exec_entEnc⟩

/-- Settles O43: the start step is `withDecoding`, whose new sequence is 64 zeros. -/
theorem decodeStarts : Obligations.DecodeStarts :=
  ⟨fun c => by cases c <;> rfl, fun c s => ⟨_, exec_entDec c s, fun i => Vector.getElem_replicate i.isLt⟩⟩

/-- Settles O44: the step completes with every predictor 0. -/
theorem dcResetZeroesPredictors : Obligations.DcResetZeroesPredictors :=
  ⟨rfl, fun s => ⟨_, exec_dcReset s, fun c => by cases c <;> rfl⟩⟩

/-! ## The engine's turn, by PHASE (R203) -/

theorem engineStep_exec {s : State} {i : Instr} (hp : s.phase = .exec (encode i)) : engineStep s = exec i s := by
  simp only [engineStep, hp, decode_encode]

theorem engineStep_enc {s : State} {c : Chan} {pending : List Word} {d : Coef} (hp : s.phase = .enc c pending d) :
    engineStep s = .next (encStep c pending d s) := by
  simp only [engineStep, hp]

theorem engineStep_decDc {s : State} {c : Chan} {k : Nat} {d0 : Coef} {w : Word} {rest : List Word}
    (hp : s.phase = .dec c .dc k d0) (ht : s.tokIn = w :: rest) :
    engineStep s = .next (decDcToken c w { s with tokIn := rest }) := by
  simp only [engineStep, hp, decStep, ht]

theorem engineStep_decAc {s : State} {c : Chan} {k : Nat} {dc : Coef} {w : Word} {rest : List Word}
    (hp : s.phase = .dec c .ac k dc) (ht : s.tokIn = w :: rest) :
    engineStep s = .next (decAcToken c k dc w { s with tokIn := rest }) := by
  simp only [engineStep, hp, decStep, ht]

/-! ## ENT_ENC's later steps (R173, R174) -/

theorem encStep_push {s : State} (h : s.tokOut.length < s.cfg.tokqDepth) (c : Chan) (w : Word) (rest : List Word)
    (d : Coef) : encStep c (w :: rest) d s = { s with tokOut := s.tokOut ++ [w], phase := .enc c rest d } := by
  have hroom : s.tokOutFull = false := decide_eq_false (by omega)
  simp only [encStep, hroom, Bool.false_eq_true, if_false]

theorem encStep_hold {s : State} (h : s.cfg.tokqDepth ≤ s.tokOut.length) (c : Chan) (w : Word) (rest : List Word)
    (d : Coef) : encStep c (w :: rest) d s = s :=
  if_pos (decide_eq_true h)

theorem encStep_end (c : Chan) (d : Coef) (s : State) :
    encStep c [] d s = complete { s with prevDc := s.prevDc.set c d } := rfl

/-- Settles O52: each of the three cases is one equation of `encStep`. -/
theorem encodePushHoldAndEnd : Obligations.EncodePushHoldAndEnd := by
  intro s c d hw hfit
  refine ⟨fun w rest hp hroom => ?_, fun w rest hp hfull => ⟨?_, ?_⟩, fun hp => ?_⟩
  · rw [step_onEngine hw, engineStep_enc hp, encStep_push hroom]
  · rw [step_onEngine hw, engineStep_enc hp, encStep_hold hfull.ge]
  · exact (waitOut_iff hfit).mpr ⟨⟨c, w, rest, d, hp⟩, hfull⟩
  · rw [step_onEngine hw, engineStep_enc hp, encStep_end]
    rfl

/-! ## The fields of a token word, in numbers (R85 to R87) -/

theorem tokKind_eq_iff (w : Word) (b : BitVec 2) : tokKind w = b ↔ w.toNat / 2 ^ 30 = b.toNat := by
  have := w.isLt
  rw [← BitVec.toNat_inj, tokKind, BitVec.extractLsb'_toNat, Nat.shiftRight_eq_div_pow]
  omega

theorem dcReserved_eq_zero_iff (w : Word) : dcReserved w = 0 ↔ w.toNat / 2 ^ 24 % 64 = 0 := by
  rw [← BitVec.toNat_inj, dcReserved, BitVec.extractLsb'_toNat, Nat.shiftRight_eq_div_pow]
  rfl

theorem acReserved_eq_zero_iff (w : Word) : acReserved w = 0 ↔ w.toNat / 2 ^ 20 % 1024 = 0 := by
  rw [← BitVec.toNat_inj, acReserved, BitVec.extractLsb'_toNat, Nat.shiftRight_eq_div_pow]
  rfl

theorem acTok_toNat (r : Nat) (v : Coef) : (acTok r v).toNat = 2 ^ 30 + 2 ^ 16 * (r % 16) + v.toNat := by
  have := v.isLt
  rw [acTok, BitVec.toNat_ofNat]
  omega

theorem dcTok_toNat_lt (d : Int) : (dcTok d).toNat < 2 ^ 24 := by
  have := (BitVec.ofInt 24 d).isLt
  rw [dcTok, BitVec.toNat_setWidth]
  omega

/-- The difference of two coefficients fits the 24 bits of a DC token. -/
theorem coefDiff_bounds (x y : Coef) : -65535 ≤ x.toInt - y.toInt ∧ x.toInt - y.toInt ≤ 65535 := by
  have := x.le_toInt
  have := x.toInt_lt
  have := y.le_toInt
  have := y.toInt_lt
  omega

/-- The DC token of a difference of two coefficients reads back (R87). -/
theorem dcTok_coefDiff_fields (x y : Coef) :
    tokKind (dcTok (x.toInt - y.toInt)) = 0 ∧ dcReserved (dcTok (x.toInt - y.toInt)) = 0
      ∧ dcDiff (dcTok (x.toInt - y.toInt)) = x.toInt - y.toInt := by
  have := coefDiff_bounds x y
  exact dcTok_fields (by omega) (by omega)

/-! ## The words of a stream before its EOB (R175, R176) -/

/-- The words of `acTokens run l` before the EOB: the ZRLs and the value tokens. -/
def acBody (run : Nat) : List Coef → List Word
  | [] => []
  | v :: rest =>
    if v = 0 then acBody (run + 1) rest
    else List.replicate (run / 16) zrlTok ++ acTok (run % 16) v :: acBody 0 rest

theorem acTokens_eq_acBody (run : Nat) (l : List Coef) : acTokens run l = acBody run l ++ [eobTok] := by
  induction l generalizing run with
  | nil => rfl
  | cons v l ih =>
    by_cases h : v = 0
    · simp only [acTokens, acBody, h, if_true, ih]
    · simp only [acTokens, acBody, h, if_false, ih, List.append_assoc, List.cons_append]

theorem acBody_length_le (run : Nat) (l : List Coef) : (acBody run l).length ≤ run + l.length := by
  have := acTokens_length_le run l
  rw [acTokens_eq_acBody, List.length_append, List.length_singleton] at this
  omega

theorem acValue_acTok (r : Nat) (v : Coef) : acValue (acTok r v) = v := by
  obtain ⟨-, -, -, hval⟩ := acTok_fields r v
  exact hval

theorem acTok_ne_of_value {v u : Coef} (h : v ≠ u) (r q : Nat) : acTok r v ≠ acTok q u := fun e =>
  h (by rw [← acValue_acTok r v, e, acValue_acTok])

/-- Each word before the EOB is a ZRL or places a nonzero value (R176). -/
theorem mem_acBody {run : Nat} {l : List Coef} {w : Word} (h : w ∈ acBody run l) :
    w = zrlTok ∨ ∃ r v, v ≠ 0 ∧ w = acTok r v := by
  induction l generalizing run with
  | nil => cases h
  | cons v l ih =>
    by_cases h0 : v = 0
    · rw [acBody, if_pos h0] at h
      exact ih h
    · rw [acBody, if_neg h0, List.mem_append, List.mem_cons] at h
      rcases h with h | h | h
      · exact .inl (List.eq_of_mem_replicate h)
      · exact .inr ⟨_, v, h0, h⟩
      · exact ih h

/-- A value token follows every run of ZRLs, so a ZRL is never the last word before the EOB (R176). -/
theorem acBody_getLast?_ne_zrl (run : Nat) (l : List Coef) : (acBody run l).getLast? ≠ some zrlTok := by
  induction l generalizing run with
  | nil => simp [acBody]
  | cons v l ih =>
    by_cases h0 : v = 0
    · rw [acBody, if_pos h0]
      exact ih (run + 1)
    · rw [acBody, if_neg h0, List.getLast?_append_of_ne_nil _ (List.cons_ne_nil _ _), List.getLast?_cons]
      cases hb : (acBody 0 l).getLast? with
      | none => exact fun e => acTok_ne_of_value h0 _ 15 (Option.some.inj e)
      | some w => exact hb ▸ ih 0

/-- Each ZRL covers 16 positions (R175). -/
theorem acBody_zrl_count (run : Nat) (l : List Coef) :
    16 * ((acBody run l).filter fun w => w = zrlTok).length ≤ run + l.length := by
  induction l generalizing run with
  | nil => exact Nat.zero_le _
  | cons v l ih =>
    rw [List.length_cons]
    by_cases h0 : v = 0
    · rw [acBody, if_pos h0]
      have := ih (run + 1)
      omega
    · have hv : acTok (run % 16) v ≠ zrlTok := acTok_ne_of_value h0 _ 15
      have hrest := ih 0
      rw [acBody, if_neg h0, List.filter_append, List.filter_cons_of_neg (by simpa using hv),
        List.filter_replicate_of_pos (by simp), List.length_append, List.length_replicate]
      omega

/-- Settles O51: the DC token of a difference of coefficients, then `acBody` of the 63 other entries, then the EOB. -/
theorem encodedStreamShape : Obligations.EncodedStreamShape := by
  intro prev z
  have hlen : z.toList.tail.length = 63 := by rw [List.length_tail, Vector.length_toList]
  obtain ⟨-, -, hdiff⟩ := dcTok_coefDiff_fields z[0] prev
  obtain ⟨hmin, hmax⟩ := coefDiff_bounds z[0] prev
  obtain ⟨h2, h65⟩ := encTokens_length prev z
  have hbody := acBody_length_le 0 z.toList.tail
  have hzrl := acBody_zrl_count 0 z.toList.tail
  refine ⟨dcTok (z[0].toInt - prev.toInt), acBody 0 z.toList.tail, ?_, h2, h65, dcTok_toNat_lt _,
    hdiff ▸ hmin, hdiff ▸ hmax, by omega, ?_, fun w hmem => ?_⟩
  · rw [encTokens, acTokens_eq_acBody]
    rfl
  · have : (0x400F0000 : Word) = zrlTok := rfl
    rw [this]
    omega
  · rcases mem_acBody hmem with rfl | ⟨r, v, hv, rfl⟩
    · exact ⟨by decide, by decide, fun _ => ⟨rfl, acBody_getLast?_ne_zrl 0 _⟩⟩
    · have hlt := v.isLt
      have hpos : v.toNat ≠ 0 := fun h => hv (BitVec.eq_of_toNat_eq h)
      have hw := acTok_toNat r v
      exact ⟨by omega, acTok_ne_of_value hv r 0, fun h => by omega⟩

/-! ## ENT_ENC to its end (R172 to R174) -/

theorem run_entEnc_pushed {s : State} {c : Chan} (hw : s.cfg.wf = true) (hs : s.schedule = [])
    (hp : s.phase = .exec (encode (.entEnc c))) {pushed rest : List Word}
    (htoks : encTokens (s.prevDc.get c) (s.zs.get c) = pushed ++ rest)
    (hroom : s.tokOut.length + pushed.length ≤ s.cfg.tokqDepth) :
    Sys2Proof.core.run (1 + pushed.length) s = .next { s with
      tokOut := s.tokOut ++ pushed, phase := .enc c rest (s.zs.get c)[(0 : Fin 64)] } := by
  have hstart : step s = .next (withEncoding c s) := by rw [step_silent hw hs, engineStep_exec hp, exec_entEnc]
  exact run_next (run_one hstart) (run_pushes pushed rest (s := withEncoding c s) hw hs
    (by rw [withEncoding, htoks]) hroom)

theorem step_encEnd {s : State} {c : Chan} {d : Coef} (hw : s.cfg.wf = true) (hs : s.schedule = [])
    (hp : s.phase = .enc c [] d) : step s = .next (complete { s with prevDc := s.prevDc.set c d }) := by
  rw [step_silent hw hs, engineStep_enc hp, encStep_end]

/-- Settles O53: after 1 + j steps j words are pushed, and after all of them the final step completes. -/
theorem encodeRunsToCompletion : Obligations.EncodeRunsToCompletion := by
  intro s c hw hs hp toks hroom
  constructor
  · have hpushed := run_entEnc_pushed hw hs hp (List.append_nil toks).symm hroom
    exact run_next hpushed (run_one (step_encEnd hw hs rfl))
  · intro m hm
    cases m with
    | zero => exact ⟨s, rfl, by simp [hp]⟩
    | succ j =>
      have hj : (toks.take j).length = j := by rw [List.length_take]; omega
      have hrun := run_entEnc_pushed hw hs hp (List.take_append_drop j toks).symm (by omega)
      rw [hj, Nat.add_comm] at hrun
      exact ⟨_, hrun, by simp⟩

/-! ## ENT_DEC's token steps (R181 to R183) -/

section
variable {s : State} {c : Chan} {k : Nat} {dc : Coef} {w : Word}

theorem decDcToken_badKind (h : tokKind w ≠ 0) :
    decDcToken c w s = raiseError .decBadKind (encode (.entDec c)) 0 s := if_pos h

theorem decDcToken_badReserved (hk : tokKind w = 0) (h : dcReserved w ≠ 0) :
    decDcToken c w s = raiseError .decBadToken (encode (.entDec c)) 0 s := by
  rw [decDcToken, if_neg (not_not.mpr hk), if_pos h]

theorem decDcToken_outOfRange (hk : tokKind w = 0) (hr : dcReserved w = 0)
    (h : (s.prevDc.get c).toInt + dcDiff w < -32768 ∨ 32767 < (s.prevDc.get c).toInt + dcDiff w) :
    decDcToken c w s = raiseError .decDcRange (encode (.entDec c)) 0 s := by
  rw [decDcToken, if_neg (not_not.mpr hk), if_neg (not_not.mpr hr)]
  exact if_pos h

theorem decDcToken_inRange (hk : tokKind w = 0) (hr : dcReserved w = 0) {x : Coef}
    (h : x.toInt = (s.prevDc.get c).toInt + dcDiff w) :
    decDcToken c w s = { s with zs := s.zs.set c ((s.zs.get c).set 0 x), phase := .dec c .ac 1 x } := by
  have hlo := x.le_toInt
  have hhi := x.toInt_lt
  rw [decDcToken, if_neg (not_not.mpr hk), if_neg (not_not.mpr hr), ← h, if_neg (by omega), BitVec.ofInt_toInt]

theorem decAcToken_badKind (h : tokKind w ≠ 1) :
    decAcToken c k dc w s = raiseError .decBadKind (encode (.entDec c)) k s := if_pos h

theorem decAcToken_badReserved (hk : tokKind w = 1) (h : acReserved w ≠ 0) :
    decAcToken c k dc w s = raiseError .decBadToken (encode (.entDec c)) k s := by
  rw [decAcToken, if_neg (not_not.mpr hk), if_pos h]

theorem decAcToken_acTok {r : Nat} (hr : r < 16) (v : Coef) :
    decAcToken c k dc (acTok r v) s =
      if r = 0 ∧ v = 0 then complete { s with prevDc := s.prevDc.set c dc }
      else if 63 < k + r then raiseError .decOverrun (encode (.entDec c)) k s
      else { s with zs := s.zs.set c (placeRun k r v (s.zs.get c)), phase := .dec c .ac (k + r + 1) dc } := by
  obtain ⟨hkind, hres, hrun, hval⟩ := acTok_fields r v
  rw [decAcToken, if_neg (not_not.mpr hkind), if_neg (not_not.mpr hres), hrun, hval, Nat.mod_eq_of_lt hr]

end

/-- The engine's turn consumes a word of TOKQ_IN, leaving `rest`, and ends ENT_DEC c with the error `code` at `cursor`
(R222). -/
def DecodeFails (s : State) (c : Chan) (rest : List Word) (code : BitVec 8) (cursor : Nat) : Prop :=
  ∃ i : ErrInfo, i.code = code ∧ i.op = 0x41 ∧ i.ch.toNat = chanNum c ∧ i.cursor.toNat = cursor
    ∧ step s.onEngine = .next { s with
        tokIn := rest, errInfo := i, phase := .idle, flags := { s.flags with err := true } }

theorem decodeFails_of_raiseError {s : State} (hw : s.cfg.wf = true) {c : Chan} {rest : List Word} {e : CmdError}
    {cursor : Nat} (hk : cursor ≤ 64)
    (h : engineStep s = .next (raiseError e (encode (.entDec c)) cursor { s with tokIn := rest })) :
    DecodeFails s c rest e.code cursor := by
  refine ⟨⟨e.code, opField (encode (.entDec c)), chField (encode (.entDec c)), BitVec.ofNat 7 cursor⟩,
    rfl, opField_encode _, ?_, ?_, (step_onEngine hw).trans h⟩
  · rw [chField_encode]
    exact chanNum_eq_bits c
  · exact (BitVec.toNat_ofNat _ _).trans (Nat.mod_eq_of_lt (by omega))

/-- Settles O54: KIND is compared first and the reserved bits next, in each stage. -/
theorem decodeTokenCheck : Obligations.DecodeTokenCheck := by
  intro s c stage k dc w rest hw hp hk ht kind failed
  refine ⟨?_, ?_, ?_, ?_⟩
  · rintro rfl hkind
    refine decodeFails_of_raiseError hw (e := .decBadKind) (Nat.zero_le _) ?_
    rw [engineStep_decDc hp ht, decDcToken_badKind (mt (tokKind_eq_iff w 0).mp hkind)]
  · rintro rfl hkind hres
    refine decodeFails_of_raiseError hw (e := .decBadToken) (Nat.zero_le _) ?_
    rw [engineStep_decDc hp ht,
      decDcToken_badReserved ((tokKind_eq_iff w 0).mpr hkind) (mt (dcReserved_eq_zero_iff w).mp hres)]
  · rintro rfl hkind
    refine decodeFails_of_raiseError hw (e := .decBadKind) hk ?_
    rw [engineStep_decAc hp ht, decAcToken_badKind (mt (tokKind_eq_iff w 1).mp hkind)]
  · rintro rfl hkind hres
    refine decodeFails_of_raiseError hw (e := .decBadToken) hk ?_
    rw [engineStep_decAc hp ht,
      decAcToken_badReserved ((tokKind_eq_iff w 1).mpr hkind) (mt (acReserved_eq_zero_iff w).mp hres)]

/-- Settles O55: a word below 2^24 passes the token check, and the sum decides between the last two branches. -/
theorem decodeDcStage : Obligations.DecodeDcStage := by
  intro s c k d0 w rest hw hp ht hlt dc
  have hkind : tokKind w = 0 := (tokKind_eq_iff w 0).mpr (Nat.div_eq_of_lt (by omega))
  have hres : dcReserved w = 0 := (dcReserved_eq_zero_iff w).mpr (by omega)
  constructor
  · intro hlo hhi
    have hx : (BitVec.ofInt 16 dc : Coef).toInt = dc := by
      rw [BitVec.toInt_ofInt, Int.bmod_eq_of_le (by omega) (by omega)]
    exact ⟨_, hx, (step_onEngine hw).trans
      ((engineStep_decDc hp ht).trans (congrArg _ (decDcToken_inRange hkind hres hx)))⟩
  · intro hout
    obtain ⟨i, hcode, hop, hch, hcur, hstep⟩ : DecodeFails s c rest CmdError.decDcRange.code 0 :=
      decodeFails_of_raiseError hw (Nat.zero_le _)
        ((engineStep_decDc hp ht).trans (congrArg _ (decDcToken_outOfRange hkind hres hout)))
    exact ⟨i, hcode, hop, hch, BitVec.eq_of_toNat_eq hcur, hstep⟩

/-- Settles O56: the word is `acTok r v`, and the three cases are the branches of `decAcToken_acTok`. -/
theorem decodeAcStage : Obligations.DecodeAcStage := by
  intro s c k dc r v w rest hw hp _ hk ht hr hword
  have hr16 : r < 16 := by omega
  obtain rfl : w = acTok r v := BitVec.eq_of_toNat_eq (by rw [hword, acTok_toNat, Nat.mod_eq_of_lt hr16])
  have hstep := engineStep_decAc hp ht
  rw [decAcToken_acTok hr16] at hstep
  refine ⟨fun hr0 hv0 => ?_, fun hn hover => ?_, fun hn hfits => ⟨placeRun k r v (s.zs.get c), ?_, fun j => ?_⟩⟩
  · rw [step_onEngine hw, hstep, if_pos ⟨hr0, hv0⟩]
    rfl
  · rw [if_neg hn, if_pos hover] at hstep
    exact decodeFails_of_raiseError hw (e := .decOverrun) hk hstep
  · rw [step_onEngine hw, hstep, if_neg hn, if_neg (by omega)]
  · exact fin_getElem_tabulate _ j

/-! ## The round trip (R187) -/

/-- ENT_DEC's start step and DC step on a stream of `encTokens`: the DC value of the sequence, the rest still zero. -/
theorem run_entDec_dc {d : State} {c : Chan} (hw : d.cfg.wf = true) (hs : d.schedule = [])
    (hp : d.phase = .exec (encode (.entDec c))) {z : Block Coef} {rest : List Word}
    (ht : d.tokIn = encTokens (d.prevDc.get c) z ++ rest) :
    Sys2Proof.core.run 2 d = .next { d with
      tokIn := acTokens 0 z.toList.tail ++ rest
      zs := d.zs.set c ((Vector.replicate 64 0).set 0 z[0])
      phase := .dec c .ac 1 z[0] } := by
  have hstart : step d = .next (withDecoding c d) := by rw [step_silent hw hs, engineStep_exec hp, exec_entDec]
  refine run_next (a := 1) (run_one hstart) (run_one ?_)
  obtain ⟨hkind, hres, hdiff⟩ := dcTok_coefDiff_fields z[0] (d.prevDc.get c)
  have hdc : z[0].toInt = (d.prevDc.get c).toInt + dcDiff (dcTok (z[0].toInt - (d.prevDc.get c).toInt)) := by
    rw [hdiff]
    omega
  rw [step_silent (s := withDecoding c d) hw hs, engineStep_decDc (s := withDecoding c d) rfl ht,
    decDcToken_inRange (s := { withDecoding c d with tokIn := _ }) hkind hres hdc]
  simp only [withDecoding, PerChan.get_set_self, PerChan.set_set]
  rfl

/-- ENT_DEC c of a stream of `encTokens` under its own predictor ends with the sequence in ZS[c]. -/
theorem run_entDec_encTokens {d : State} {c : Chan} (hw : d.cfg.wf = true) (hs : d.schedule = [])
    (hp : d.phase = .exec (encode (.entDec c))) {z : Block Coef} {rest : List Word}
    (ht : d.tokIn = encTokens (d.prevDc.get c) z ++ rest) :
    Sys2Proof.core.run (1 + (encTokens (d.prevDc.get c) z).length) d = .next (complete { d with
      tokIn := rest, zs := d.zs.set c z, prevDc := d.prevDc.set c z[0] }) := by
  have hac := run_acTokens z.toList.tail z (run := 0) (s := { d with
      tokIn := acTokens 0 z.toList.tail ++ rest
      zs := d.zs.set c ((Vector.replicate 64 0).set 0 z[0])
      phase := .dec c .ac 1 z[0] }) hw hs rfl rfl
    (hlen := by rw [List.length_tail, Vector.length_toList])
    (hlo := fun j hj => by
      obtain rfl : j = 0 := Fin.ext (Nat.lt_one_iff.mp hj)
      simp)
    (hhi := fun j hj => by
      have : 0 ≠ j.val := by omega
      simp [this])
    (hrun := fun j hfrom hto => by omega)
    (hl := fun i _ _ => by simp [Nat.add_comm])
  have hlen : 1 + (encTokens (d.prevDc.get c) z).length = 2 + (acTokens 0 z.toList.tail).length := by
    rw [encTokens, List.length_cons]
    omega
  rw [hlen]
  refine run_next (run_entDec_dc hw hs hp ht) ?_
  simp only [PerChan.set_set] at hac
  exact hac

/-- Settles O57: ENT_ENC pushes `encTokens`, at most 65 words, and ENT_DEC of these restores the sequence. -/
theorem entropyRoundTrip : Obligations.EntropyRoundTrip := by
  intro s d c hsw hss hsp hempty hdw hds hdp hprev
  have hroom : s.tokOut.length + (encTokens (s.prevDc.get c) (s.zs.get c)).length ≤ s.cfg.tokqDepth := by
    obtain ⟨-, h65⟩ := encTokens_length (s.prevDc.get c) (s.zs.get c)
    obtain ⟨hdepth, -⟩ := wf_depth hsw
    rw [hempty, List.length_nil]
    omega
  obtain ⟨henc, -⟩ := encodeRunsToCompletion s c hsw hss hsp hroom
  refine ⟨_, _, henc, rfl, rfl, rfl, by simp [hempty], rfl, PerChan.get_set_self _ _ _, fun rest ht => ?_⟩
  rw [hempty, List.nil_append, ← hprev] at ht
  rw [← hprev]
  exact run_entDec_encTokens hdw hds hdp ht

end Sys2Proof.Machine
end

section
/-! The statements of 45_control.md settled (R200 to R203, R206, R207), with the laws they rest on: when an engine turn
changes the state, what a CMD write does in each of its cases, and which fields of the state each command's own step
leaves as they are. -/

namespace Sys2Proof.Machine

/-! ## The step of an accepted command (R200, R203) -/

theorem exec_nop (s : State) : exec .nop s = .next (complete s) := rfl

/-- Settles O30: the step of NOP is `complete` alone. -/
theorem nopOnlyCompletes : Obligations.NopOnlyCompletes := ⟨rfl, exec_nop⟩

/-- `withFetchWord` gives the engine its turn in the state an accepted CMD write leaves. -/
theorem withFetchWord_eq_onEngine (s : State) (w : Word) :
    s.withFetchWord 32 w.toNat = State.onEngine { s with phase := .exec w, lastCmd := w } := by
  simp only [State.withFetchWord, State.onEngine, Nat.mod_eq_of_lt w.isLt, BitVec.ofNat_toNat, BitVec.setWidth_eq]

/-- Settles O4: a word that decodes is the word of its command, and the engine's turn in EXEC of it is `exec`. -/
theorem stepRunsTheDecodedCommand : Obligations.StepRunsTheDecodedCommand := by
  intro s w i hw hd
  obtain rfl := eq_encode_of_decode hd
  refine ⟨fun hp hs => ?silent, fun hp => ?scheduled, ?fetched⟩
  case silent => rw [step_silent hw hs, engineStep_exec hp]
  case scheduled => rw [step_onEngine hw, engineStep_exec hp]
  case fetched =>
    rw [withFetchWord_eq_onEngine]
    exact (step_onEngine (s := { s with phase := .exec (encode i), lastCmd := encode i }) hw).trans
      (engineStep_exec rfl)

/-! ## Turns that change nothing (R173, R184, R203) -/

/-- The engine has no step in IDLE and in the two holds of R31. -/
theorem engineEnabled_eq_false_iff (s : State) :
    s.engineEnabled = false ↔ s.phase = .idle ∨ s.waitIn = true ∨ s.waitOut = true := by
  unfold State.engineEnabled State.waitIn State.waitOut
  cases s.phase with
  | enc c pending d => cases pending <;> simp
  | _ => simp

/-- A turn with no step enabled leaves the state as it is (log entry 5). -/
theorem engineStep_of_not_enabled {s : State} (h : s.engineEnabled = false) : engineStep s = .next s := by
  unfold State.engineEnabled at h
  cases hp : s.phase with
  | idle => simp only [engineStep, hp]
  | exec | reset => simp [hp] at h
  | enc c pending d =>
    cases pending with
    | nil => simp [hp] at h
    | cons w rest =>
      have hfull : s.tokOutFull = true := by simpa [hp] using h
      rw [engineStep_enc hp, encStep_hold (of_decide_eq_true hfull)]
  | dec c stage k dc =>
    have hempty : s.tokIn = [] := by simpa [hp] using h
    simp only [engineStep, hp, decStep, hempty]

/-- Every step that the engine has enabled changes PHASE: a push takes a pending word, a token raises the cursor. -/
theorem EngineEffect.phase_ne {s t : State} (h : EngineEffect s t) (he : s.engineEnabled = true) :
    t.phase ≠ s.phase := by
  cases h with
  | none hn => simp [he] at hn
  | encPush c w rest d hp => simp [hp]
  | decAc c k dc w rest hp =>
    simp only [hp, ne_eq, Phase.dec.injEq, true_and, and_true]
    omega
  | single w i u hp | undecodable w e hp | encStart w c hp | decStart w c hp | encEnd c d hp | decDc c k d0 x w rest hp
  | decError c st k dc w rest e cur hp | decEnd c k dc w rest hp | reset hp => simp [hp]

/-- Settles O5: an enabled step changes PHASE, and a turn with none enabled changes nothing. -/
theorem engineHoldsOnlyIdleOrWaiting : Obligations.EngineHoldsOnlyIdleOrWaiting := by
  intro s hw
  rw [step_onEngine hw, ← engineEnabled_eq_false_iff]
  refine ⟨Iff.rfl, fun h => ?_, engineStep_of_not_enabled⟩
  by_contra he
  exact (engineStep_effect h).phase_ne (Bool.eq_true_of_not_eq_false he) rfl

/-! ## Command issue (R201) -/

theorem issueCommand_dropped {s : State} (h : s.phase ≠ .idle ∨ s.flags.err = true) (w : Word) :
    issueCommand w s = { s with flags := s.flags.setCmdOvr } := if_pos h

section
variable {s : State} {w : Word} (hi : s.phase = .idle) (he : s.flags.err = false)
include hi he

theorem issueCommand_refused {e : DecodeError} (hd : decode w = .error e) :
    issueCommand w s = raiseError (CmdError.ofDecode e) w 0 { s with lastCmd := w } := by
  simp [issueCommand, hi, he, hd]

theorem issueCommand_accepted {i : Instr} (hd : decode w = .ok i) :
    issueCommand w s = { s with lastCmd := w, phase := .exec w } := by
  simp [issueCommand, hi, he, hd]

end

theorem code_ofDecode (e : DecodeError) :
    (CmdError.ofDecode e).code = if e = .illegalOpcode then 0x01 else 0x02 := by
  cases e <;> rfl

/-- The state that a decoding error leaves, from IDLE (R222). -/
theorem raiseError_ofDecode {s : State} (hi : s.phase = .idle) (e : DecodeError) (w : Word) :
    raiseError (CmdError.ofDecode e) w 0 { s with lastCmd := w } = { s with
      lastCmd := w
      errInfo := ⟨if e = .illegalOpcode then 0x01 else 0x02, w.extractLsb' 0 8, w.extractLsb' 8 2, 0⟩
      flags := { s.flags with err := true } } := by
  rw [raiseError, code_ofDecode, ← hi]
  rfl

/-- Settles O6: each case of the write is one equation of `issueCommand`. -/
theorem commandIssue : Obligations.CommandIssue := by
  intro s w hw
  have hwrite : ∀ {u : State}, s.phase ≠ .reset → issueCommand w s = u →
      step (s.onWrite 0x014 w) = .next { u with resp := some (.write .okay) } :=
    fun hr hu => step_onWrite_register hw hr (t := .cmd) nofun rfl rfl hu
  have hnot : s.phase = .idle → s.phase ≠ .reset := fun hi => by simp [hi]
  refine ⟨fun hr => ?inReset, fun hr h => ?dropped, fun e hi he hd => ?refused, fun i hi he hd => ?accepted⟩
  case inReset => exact step_onWrite_reset hw rfl (by decide) hr w
  case dropped => exact hwrite hr (issueCommand_dropped h w)
  case refused => exact hwrite (hnot hi) ((issueCommand_refused hi he hd).trans (raiseError_ofDecode hi e w))
  case accepted => exact hwrite (hnot hi) (issueCommand_accepted hi he hd)

/-! ## Completion in one step (R202, R206) -/

theorem exec_answers_next (i : Instr) (s : State) : ∃ t, exec i s = .next t := by
  cases i <;> exact ⟨_, rfl⟩

/-- What no command's own step changes: the flags but DONE and SAT, the registers, the FIFOs, the parameters and the
schedule. SAT is not cleared. -/
theorem exec_frame {i : Instr} {s t : State} (h : exec i s = .next t) :
    t.flags.err = s.flags.err ∧ t.flags.accErr = s.flags.accErr ∧ t.flags.cmdOvr = s.flags.cmdOvr
      ∧ (s.flags.sat = true → t.flags.sat = true) ∧ t.ctrl = s.ctrl ∧ t.tokOut = s.tokOut ∧ t.tokIn = s.tokIn
      ∧ t.lastCmd = s.lastCmd ∧ t.errInfo = s.errInfo ∧ t.cfg = s.cfg ∧ t.schedule = s.schedule := by
  cases i with
  | cscInv | quant =>
    cases h
    refine ⟨rfl, rfl, rfl, fun hsat => ?_, rfl, rfl, rfl, rfl, rfl, rfl, rfl⟩
    exact Bool.or_eq_true_iff.2 (.inl hsat)
  | nop | cscFwd | fdct | idct | dequant | zzFlat | zzUnflat | entEnc | entDec | dcReset =>
    cases h
    exact ⟨rfl, rfl, rfl, id, rfl, rfl, rfl, rfl, rfl, rfl, rfl⟩

/-- Every command but ENT_ENC and ENT_DEC ends with `complete` (R202). -/
theorem exec_completes {i : Instr} {s t : State} (h : exec i s = .next t) (henc : ∀ c, i ≠ .entEnc c)
    (hdec : ∀ c, i ≠ .entDec c) : t.phase = .idle ∧ t.flags.done = true := by
  cases i with
  | entEnc c => exact absurd rfl (henc c)
  | entDec c => exact absurd rfl (hdec c)
  | nop | cscFwd | cscInv | fdct | idct | quant | dequant | zzFlat | zzUnflat | dcReset =>
    cases h
    exact ⟨rfl, rfl⟩

/-- Settles O7: the engine's turn in EXEC is `exec`, which completes and keeps its frame. -/
theorem singleStepCommandsComplete : Obligations.SingleStepCommandsComplete := by
  intro i s henc hdec hw hp
  obtain ⟨t, ht⟩ := exec_answers_next i s
  obtain ⟨hidle, hdone⟩ := exec_completes ht henc hdec
  exact ⟨t, by rw [step_onEngine hw, engineStep_exec hp, ht], ht, hidle, hdone, exec_frame ht⟩

/-! ## The written operand (R207) -/

/-- A write of one channel shows in another only if the two are the same. -/
theorem PerChan.get_set_eq_or {α : Type} (p : PerChan α) (c d : Chan) (v : α) :
    (p.set d v).get c = p.get c ∨ d = c := by
  by_cases h : c = d
  · exact .inr h.symm
  · exact .inl (p.get_set_ne v h)

section
variable {i : Instr} {s t : State} (h : exec i s = .next t)
include h

theorem exec_px_eq_or_written : t.px = s.px ∨ ∀ off, inPx off → writtenBytes i off := by
  cases i with
  | cscInv => exact .inr fun _ hoff => hoff
  | nop | cscFwd | fdct | idct | quant | dequant | zzFlat | zzUnflat | entEnc | entDec | dcReset =>
    cases h
    exact .inl rfl

theorem exec_rb_eq_or_written (c : Chan) : t.rb.get c = s.rb.get c ∨ ∀ off, inRb c off → writtenBytes i off := by
  cases i with
  | cscFwd => exact .inr fun _ hoff => ⟨c, hoff⟩
  | fdct d | idct d | dequant d =>
    cases h
    obtain hkept | rfl := s.rb.get_set_eq_or c d _
    · exact .inl hkept
    · exact .inr fun _ hoff => hoff
  | nop | cscInv | quant | zzFlat | zzUnflat | entEnc | entDec | dcReset =>
    cases h
    exact .inl rfl

theorem exec_ib_eq_or_written (c : Chan) : t.ib.get c = s.ib.get c ∨ ∀ off, inIb c off → writtenBytes i off := by
  cases i with
  | quant d | zzUnflat d =>
    cases h
    obtain hkept | rfl := s.ib.get_set_eq_or c d _
    · exact .inl hkept
    · exact .inr fun _ hoff => hoff
  | nop | cscFwd | cscInv | fdct | idct | dequant | zzFlat | entEnc | entDec | dcReset =>
    cases h
    exact .inl rfl

theorem exec_zs_eq_or_written (c : Chan) : t.zs.get c = s.zs.get c ∨ ∀ off, inZs c off → writtenBytes i off := by
  cases i with
  | zzFlat d | entDec d =>
    cases h
    obtain hkept | rfl := s.zs.get_set_eq_or c d _
    · exact .inl hkept
    · exact .inr fun _ hoff => hoff
  | nop | cscFwd | cscInv | fdct | idct | quant | dequant | zzUnflat | entEnc | dcReset =>
    cases h
    exact .inl rfl

theorem exec_prevDc_eq_or_written : t.prevDc = s.prevDc ∨ ∀ off, inRange 0x028 12 off → writtenBytes i off := by
  cases i with
  | dcReset => exact .inr fun _ hoff => hoff
  | nop | cscFwd | cscInv | fdct | idct | quant | dequant | zzFlat | zzUnflat | entEnc | entDec =>
    cases h
    exact .inl rfl

end

/-- The bytes that the table of R207 names for a target: those of STATUS, of the predictors, or of the buffer it lies
in; for any other word, its own. -/
def Target.region : Target → Nat → Prop
  | .status => inStatus
  | .dcPred _ => inRange 0x028 12
  | .px _ => inPx
  | .ib c _ => inIb c
  | .zs c _ => inZs c
  | .rb c _ _ => inRb c
  | t => fun off => off / 4 = t.word

/-- A target's word lies in its region (R52). -/
theorem Target.region_of_word {g : Target} {off : Nat} (h : off / 4 = g.word) : g.region off := by
  cases g with
  | status | px | ib | zs =>
    simp only [Target.word] at h
    simp only [Target.region]
    omega
  | dcPred c =>
    have := chanNum_lt c
    simp only [Target.word] at h
    simp only [Target.region]
    omega
  | rb c e u =>
    have := u.toNat_le
    simp only [Target.word] at h
    simp only [Target.region]
    omega
  | id | version | cfg | ctrl | cmd | errInfo | tokOut | tokIn | tokqStat | qtLuma | qtChroma | reserved => exact h

/-- A command's own step leaves the word of a target as it is, unless that is STATUS or in the written operand. -/
theorem exec_targetValue_eq_or_written {i : Instr} {s t : State} (h : exec i s = .next t) {g : Target}
    (hg : g ≠ .status) : targetValue g t = targetValue g s ∨ ∀ off, g.region off → writtenBytes i off := by
  obtain ⟨-, -, -, -, hctrl, hout, hin, hcmd, herr, hcfg, -⟩ := exec_frame h
  cases g with
  | status => exact absurd rfl hg
  | dcPred c => exact (exec_prevDc_eq_or_written h).imp_left fun he => by simp only [targetValue, he]
  | px e => exact (exec_px_eq_or_written h).imp_left fun he => by simp only [targetValue, he]
  | ib c e => exact (exec_ib_eq_or_written h c).imp_left fun he => by simp only [targetValue, he]
  | zs c e => exact (exec_zs_eq_or_written h c).imp_left fun he => by simp only [targetValue, he]
  | rb c e u => exact (exec_rb_eq_or_written h c).imp_left fun he => by simp only [targetValue, he]
  | id | version | cfg | ctrl | cmd | errInfo | tokOut | tokIn | tokqStat | qtLuma | qtChroma | reserved =>
    left
    simp only [targetValue, hctrl, hout, hin, hcmd, herr, hcfg]

/-- Settles O45: the word at a byte changes only if it is STATUS or lies in the written operand. -/
theorem onlyOperandBytesChange : Obligations.OnlyOperandBytesChange := by
  intro i s t off h _ hstatus hwritten
  have hword : targetValue (targetOf off) t = targetValue (targetOf off) s := by
    by_cases hres : targetOf off = .reserved
    · rw [hres]
      rfl
    · have hregion : (targetOf off).region off := Target.region_of_word (targetOf_word hres)
      have hne : targetOf off ≠ .status := fun e => by
        rw [e] at hregion
        exact hstatus hregion
      exact (exec_targetValue_eq_or_written h hne).resolve_right fun hall => hwritten (hall off hregion)
  rw [readByte, readByte, hword]

/-! ## The read operands (R148, R207) -/

theorem quantQuotient_congr {c : Chan} {s s' : State} (hcfg : s.cfg = s'.cfg) (hrb : s.rb.get c = s'.rb.get c) :
    quantQuotient c s = quantQuotient c s' := by
  funext e
  rw [quantQuotient, quantQuotient, hcfg, hrb]

/-- SAT after CSC_INV gathers what the elements report (R103). -/
theorem cscInv_sat_iff {s t : State} (h : exec .cscInv s = .next t) :
    t.flags.sat = true ↔ s.flags.sat = true
      ∨ ∃ e : Fin 64, invSat s.cfg.roundTie s.rb.y[e] s.rb.cb[e] s.rb.cr[e] = true := by
  rw [exec_cscInv, Host.Outcome.next.injEq] at h
  subst h
  simp only [complete_fields, Flags.setDone_fields, Flags.orSat_fields, Bool.or_eq_true, List.any_eq_true,
    List.mem_finRange, true_and]

section
variable {i : Instr} {s s' t t' : State} (h : exec i s = .next t) (h' : exec i s' = .next t')
include h h'

theorem exec_writesAgree (hagree : readsAgree i s s') : writesAgree i t t' := by
  obtain ⟨hcfg, hseq, hread⟩ := hagree
  cases i with
  | entEnc c =>
    obtain ⟨hzs, hdc⟩ := hread
    cases h
    cases h'
    refine ⟨?_, trivial⟩
    simp only [hzs, hdc]
  | entDec c =>
    cases h
    cases h'
    refine ⟨rfl, ?_⟩
    simp only [PerChan.get_set_self]
  | nop | cscFwd | cscInv | fdct | idct | quant | dequant | zzFlat | zzUnflat | dcReset =>
    obtain ⟨hidle, -⟩ := exec_completes h nofun nofun
    obtain ⟨hidle', -⟩ := exec_completes h' nofun nofun
    refine ⟨hidle.trans hidle'.symm, ?_⟩
    cases h
    cases h'
    simp only [complete_fields, PerChan.get_set_self, hcfg, hseq, hread]

theorem exec_sat_agree (hagree : readsAgree i s s') (hsat : s.flags.sat = s'.flags.sat) :
    t.flags.sat = t'.flags.sat := by
  obtain ⟨hcfg, -, hread⟩ := hagree
  cases i with
  | cscInv => rw [Bool.eq_iff_iff, cscInv_sat_iff h, cscInv_sat_iff h', hsat, hcfg, hread]
  | quant c =>
    rw [exec_quant, Host.Outcome.next.injEq] at h h'
    subst h h'
    rw [Bool.eq_iff_iff, withQuantized_sat_iff, withQuantized_sat_iff, hsat, hcfg, quantQuotient_congr hcfg hread]
  | nop | cscFwd | fdct | idct | dequant | zzFlat | zzUnflat | entEnc | entDec | dcReset =>
    cases h
    cases h'
    exact hsat

theorem exec_done_agree (hdone : s.flags.done = s'.flags.done) : t.flags.done = t'.flags.done := by
  cases i with
  | entEnc | entDec =>
    cases h
    cases h'
    exact hdone
  | nop | cscFwd | cscInv | fdct | idct | quant | dequant | zzFlat | zzUnflat | dcReset =>
    obtain ⟨-, hset⟩ := exec_completes h nofun nofun
    obtain ⟨-, hset'⟩ := exec_completes h' nofun nofun
    exact hset.trans hset'.symm

end

/-- Settles O46: each command's result is an expression over the operands it reads. -/
theorem resultDependsOnlyOnOperands : Obligations.ResultDependsOnlyOnOperands :=
  fun _ _ _ _ _ hagree h h' => ⟨exec_writesAgree h h' hagree, exec_sat_agree h h' hagree, exec_done_agree h h'⟩

end Sys2Proof.Machine
end

section
/-! The statements of 70_reset_and_hazards.md settled (R250 to R252): the state after power-on and after a soft reset as
the host reads it, and the reset step. The power-on state is the soft reset of itself (`softReset_reset`), so the laws
of every soft reset are laws of it. -/

namespace Sys2Proof.Machine

/-! ## The state after power-on (R250) -/

theorem softReset_reset : softReset State.reset = State.reset := rfl

/-- Settles O58: in a configuration every soft reset gives the invariant. -/
theorem powerOnMeetsTheInvariant : Obligations.PowerOnMeetsTheInvariant := by
  have hinv := softReset_inv (s := State.reset) defaultParams_wf
  rwa [softReset_reset] at hinv

/-- STATUS after the reset step that follows a soft reset (R252). -/
theorem statusWord_resetStep_softReset (s : State) : statusWord (resetStep (softReset s)) = 0 := rfl

/-- Settles O10: the buffers element by element, then the registers as in any RESET; CFG is the word of the defaults. -/
theorem powerOnState : Obligations.PowerOnState := by
  have hreads := targetValue_softReset State.reset
  rw [softReset_reset] at hreads
  obtain ⟨hstatus, hctrl, -, herrInfo, -, -⟩ := hreads
  obtain ⟨-, hcfg⟩ := identityAndConfigurationRegisters
  refine ⟨rfl, getElem_powerOn_px defaultParams, fun c e => ?elements, softReset_prevDc_get State.reset, rfl, rfl,
    rfl, hstatus, statusWord_resetStep_softReset State.reset, hctrl, herrInfo, rfl, rfl, hcfg, rfl⟩
  case elements =>
    exact ⟨getElem_powerOn_rb defaultParams c e, getElem_powerOn_ib defaultParams c e,
      getElem_powerOn_zs defaultParams c e⟩

/-! ## The reset step (R252) -/

theorem engineStep_reset {s : State} (hr : s.phase = .reset) : engineStep s = .next (resetStep s) := by
  simp only [engineStep, hr]

/-- Settles O11: under the invariant a machine in RESET is its own soft reset, so no flag stands after the step. -/
theorem resetStepLeavesReset : Obligations.ResetStepLeavesReset := by
  intro s hw hr
  refine ⟨(step_onEngine hw).trans (engineStep_reset hr), fun hs => ?_⟩
  have hstatus := statusWord_resetStep_softReset s
  rwa [← hs.eq_softReset hr] at hstatus

/-! ## The soft reset (R251) -/

theorem targetValue_softReset_of_isBuffer {t : Target} (hb : t.isBuffer = true) (s : State) :
    targetValue t (softReset s) = 0 := by
  cases t with
  | px e => exact congrArg pixelWord (getElem_powerOn_px s.cfg e)
  | ib c e => exact congrArg (BitVec.signExtend 32) (getElem_powerOn_ib s.cfg c e)
  | zs c e => exact congrArg (BitVec.signExtend 32) (getElem_powerOn_zs s.cfg c e)
  | rb c e upper =>
    have hzero : realHalf 0 upper = 0 := by cases upper <;> rfl
    exact (congrArg (realHalf · upper) (getElem_powerOn_rb s.cfg c e)).trans hzero
  | _ => cases hb

theorem readByte_softReset {off : Nat} (hb : inBuffer off) (s : State) : readByte (softReset s) off = 0 := by
  rw [readByte, targetValue_softReset_of_isBuffer ((targetOf_isBuffer_iff off).2 hb)]
  exact BitVec.extractLsb'_zero

/-- Settles O12: the effect of the write is `softReset`, which keeps the response, so the next state is the soft reset
of `s` with the response recorded. -/
theorem softResetClearsEverything : Obligations.SoftResetClearsEverything := by
  intro s v hw h8
  refine ⟨fun hr => ?inReset, fun hr => ?_⟩
  case inReset => exact step_onWrite_reset hw rfl (by decide) hr v
  refine ⟨softReset { s with resp := some (.write .okay) }, ?write, rfl, ?status, fun off hb => readByte_softReset hb _⟩
  case write => exact step_onWrite_register hw hr (t := .ctrl) nofun rfl rfl (writeCtrl_softReset h8)
  case status =>
    obtain ⟨hstatus, -⟩ := targetValue_softReset { s with resp := some (.write .okay) }
    exact hstatus

end Sys2Proof.Machine
end
